-- ==== Sys2Proof/Word.lean ====
section
/-! DEFINITION. The word types of the block and the two-valued PASS operand. Spec: R10 (bit numbering), R70
(32-bit registers, byte-addressed sample memory), R105 (PASS codes). -/
namespace Sys2Proof

/-- One byte of sample memory (R70). -/
abbrev Byte := BitVec 8

/-- One 32-bit register, command word or descriptor word (R21, R100, R102). -/
abbrev Word := BitVec 32

/-- The PASS operand of `prim.sgrab` (R105): pass 0 has radius 2 and n = 25, pass 1 has radius 1 and n = 9. -/
inductive Pass where
  | p0
  | p1
  deriving DecidableEq, Repr

end Sys2Proof
end

