-- ==== Sys2Proof/Config.lean ====
section
/-! DEFINITION. What the implementation fixes (R4, R8, spec/93_implementation_defined.md part 2) and the free values the
spec leaves open. A free value is an opaque constant: nothing in Lean can evaluate it, so whatever is proved holds for
every value. Its first argument is a draw number, taken from the counter `draws` of the state. -/
namespace Sys2Proof.Config

/-- `MAX_UNIT_W` (R8). -/
def maxUnitW : Nat := 384
/-- `MAX_UNIT_H` (R8). -/
def maxUnitH : Nat := 384
/-- `P`, SGR_PROJ_BITS (R7, U17). Log entry 20. -/
def sgrProjBits : Nat := 8
/-- SGR_RST_BITS (R226). -/
def sgrRstBits : Nat := 4
/-- WIENER_FILTER_BITS (R185). -/
def wienerFilterBits : Nat := 7
/-- The ID register (R22). -/
def idValue : Word := 0x4C520001#32
/-- The CAPS register: MAX_UNIT_H in 31:16, MAX_UNIT_W in 15:0 (R23). -/
def capsValue : Word := 0x01800180#32

/-- Contract minimum of stored tap k (R4, R187); the block does not check it. -/
def wienerTapMin : Nat → Int
  | 0 => -5
  | 1 => -23
  | _ => -17
/-- Contract maximum of stored tap k (R4, R187); the block does not check it. -/
def wienerTapMax : Nat → Int
  | 0 => 10
  | 1 => 8
  | _ => 46
/-- Contract range of W0 (R4, R230); the block does not check it. -/
def sgrW0Min : Int := -96
/-- Contract range of W0 (R4, R230). -/
def sgrW0Max : Int := 31
/-- Contract range of W1 (R4, R230); the block does not check it. -/
def sgrW1Min : Int := -32
/-- Contract range of W1 (R4, R230). -/
def sgrW1Max : Int := 95

/-- Free value (U4, R253, R286, R311): whether the write of the destination container at this address was
performed before the command ended early. Log entry 6. -/
opaque landed : Nat → Nat → Bool
/-- Free value (R97, U3): whether a host read of the destination container at this address of a BUSY command
returns the new value. Log entry 7. -/
opaque raceRead : Nat → Nat → Bool
/-- Free value (U2, U3): the byte a destination address holds after a command whose aliasing or concurrency rule
was broken. Log entry 8. -/
opaque looseByte : Nat → Nat → Byte
/-- Free value (R81, R286): whether a read the command may but need not perform met an error response. Log entry 9. -/
opaque optionalReadFails : Nat → Bool
/-- Free value (R288 item 2, R89): whether a bus error on words 1 to 3 of a descriptor is met before its KIND = 3
is seen. Log entry 10. -/
opaque descErrorFirst : Nat → Bool
/-- Free value (R94, R97): the descriptor word (draw, word number) a command reads after another agent changed its
descriptors. Log entry 11. -/
opaque looseWord : Nat → Nat → Word
/-- Free value (R97, R260): RESULT0 (0) and RESULT1 (1) of a box command whose source rows another agent changed
while it was BUSY. Log entry 12. -/
opaque looseResult : Nat → Nat → Word

end Sys2Proof.Config
end

