-- ==== Sys2Proof/Syntax.lean ====
section
/-! DEFINITION. The commands of LR-CMD version 1, one constructor per row of spec/opcode_table.json (R101). Every
other operand of a command comes from the register snapshot (R103). -/
namespace Sys2Proof

/-- A legal command (R101, R113). -/
inductive Instr where
  /-- `nop`, word 0x0000_0000 (R254). -/
  | nop
  /-- `run.unit`, word 0x0000_0001 (R255). -/
  | runUnit
  /-- `run.plane`, word 0x0000_0002 (R258). -/
  | runPlane
  /-- `prim.rsr`, word 0x0000_0003 (R134). -/
  | primRsr
  /-- `prim.clip3`, word 0x0000_0004 (R135). -/
  | primClip3
  /-- `prim.lut`, word 0x0000_0005 (R155). -/
  | primLut
  /-- `prim.box3`, word 0x0000_0006 (R170). -/
  | primBox3
  /-- `prim.box5`, word 0x0000_0007 (R171). -/
  | primBox5
  /-- `prim.sgrab`, words 0x0000_0008 (pass 0) and 0x0000_0018 (pass 1) (R233). -/
  | primSgrab (pass : Pass)
  deriving DecidableEq, Repr

end Sys2Proof
end

