-- ==== Sys2Proof/Machine/HostProgram.lean ====
section
/-! DEFINITION. Host programs as plain data (R114): the statements of the host, an agent outside the block whose bus
transactions are the block's inputs. Labels are positions in the program and bound names are numbers (log entry 18). -/
namespace Sys2Proof.Machine

/-- The width of one bus access. The block serves only 32-bit accesses of its register window (R77). -/
inductive Width where
  | w8
  | w16
  | w32
  deriving DecidableEq, Repr

/-- The number of bytes of an access. -/
def Width.bytes : Width → Nat
  | .w8 => 1
  | .w16 => 2
  | .w32 => 4

/-- A `value` or `addr` operand of a host statement (R114): a constant, or a name bound by an earlier load or register
read. -/
inductive HostOperand where
  | const (v : Word)
  | name (n : Nat)
  deriving DecidableEq, Repr

/-- One host statement (R114). A register access carries its width so that the accesses R77 answers with an error
response can be written down too. -/
inductive HostStmt where
  /-- `wr REG, value`: a write of the register window at a byte offset. -/
  | wr (width : Width) (off : BitVec 8) (value : HostOperand)
  /-- `rd REG -> name`: a read of the register window. -/
  | rd (width : Width) (off : BitVec 8) (name : Nat)
  /-- `poll REG, mask, value`: repeat an aligned 32-bit read until `(REG & mask) == value`. -/
  | poll (off : BitVec 8) (mask value : HostOperand)
  /-- `mem.w8`, `mem.w16`, `mem.w32`: a host store to sample memory. -/
  | memW (width : Width) (addr value : HostOperand)
  /-- `mem.r8`, `mem.r16`: a host load from sample memory. -/
  | memR (width : Width) (addr : HostOperand) (name : Nat)
  /-- `b label`. -/
  | b (target : Nat)
  /-- `bnz name, label`: branch when the value bound to the name is not 0. -/
  | bnz (name : Nat) (target : Nat)
  deriving DecidableEq, Repr

/-- The host: its program, its position in it and the names it has bound (R114). -/
structure HostState where
  prog : List HostStmt
  pc : Nat
  names : List (Nat × Word)
  deriving DecidableEq, Repr

end Sys2Proof.Machine
end

