-- ==== Sys2Proof/WellFormed.lean ====
section
/-! DEFINITION. Well-formedness of commands and of host programs. -/
namespace Sys2Proof

/-- Field OP of a command (R101). -/
def Instr.opNumber : Instr → Nat
  | .nop => 0
  | .runUnit => 1
  | .runPlane => 2
  | .primRsr => 3
  | .primClip3 => 4
  | .primLut => 5
  | .primBox3 => 6
  | .primBox5 => 7
  | .primSgrab _ => 8

/-- Field PASS of a command (R100, R105). -/
def Instr.passNumber : Instr → Nat
  | .nop => 0
  | .runUnit => 0
  | .runPlane => 0
  | .primRsr => 0
  | .primClip3 => 0
  | .primLut => 0
  | .primBox3 => 0
  | .primBox5 => 0
  | .primSgrab .p0 => 0
  | .primSgrab .p1 => 1

/-- R100: OP is assigned, and PASS is 0 for every OP but 0x8. PASS is a two-valued type, so every command meets it. -/
def Instr.wellFormed (i : Instr) : Bool :=
  decide (i.opNumber ≤ 8) && (i.passNumber == 0 || i.opNumber == 8)

namespace Machine

/-- R77, R114: a register access is 32 bits wide and its offset a multiple of 4. R77 does not say whether it is the bus
address or the offset that is aligned to 4 bytes, and nothing aligns REG_BASE (R4, R76); DESIGN CHOICE: the offset
(log entry 34). -/
def registerAccessOk (width : Width) (off : BitVec 8) : Bool :=
  width == .w32 && off.toNat % 4 == 0

/-- R114: register accesses are aligned words, loads are of 1 or 2 bytes, branches stay in a program of `len`
statements (its end included). -/
def HostStmt.wellFormed (len : Nat) : HostStmt → Bool
  | .wr width off _ => registerAccessOk width off
  | .rd width off _ => registerAccessOk width off
  | .poll off _ _ => registerAccessOk .w32 off
  | .memW _ _ _ => true
  | .memR width _ _ => width != .w32
  | .b target => decide (target ≤ len)
  | .bnz _ target => decide (target ≤ len)

/-- A host program in the syntax of R114. -/
def programWellFormed (p : List HostStmt) : Bool := p.all (HostStmt.wellFormed p.length)

end Machine
end Sys2Proof
end

