-- ==== Sys2Proof/Decode.lean ====
section
/-! DEFINITION. The decoder of the CMD word (R100, R101, R110) and the encoder beside it. The CMD word is one aligned
32-bit bus write (R100), so a word, not a list of bytes, is what is decoded. -/
namespace Sys2Proof

/-- Field OP, bits 3:0 (R100). -/
def cmdOp (w : Word) : BitVec 4 := w.extractLsb' 0 4
/-- Field PASS, bit 4 (R100). -/
def cmdPass (w : Word) : BitVec 1 := w.extractLsb' 4 1
/-- Field RSV, bits 31:5 (R100). -/
def cmdRsv (w : Word) : BitVec 27 := w.extractLsb' 5 27

/-- R110, in the rule's own words: OP in [0x9, 0xF], or bits 31:5 not all 0, or bit 4 = 1 with OP other than 0x8. -/
def illegalWord (w : Word) : Bool :=
  decide (9 ≤ (cmdOp w).toNat) || (cmdRsv w != 0#27) || (cmdPass w == 1#1 && cmdOp w != 8#4)

/-- Why a CMD word is illegal (R110). -/
inductive DecodeError where
  /-- OP in [0x9, 0xF]. -/
  | reservedOp
  /-- Bits 31:5 are not all 0. -/
  | reservedBits
  /-- PASS = 1 with OP other than 0x8. -/
  | passBit
  deriving DecidableEq, Repr

/-- The command of an OP code with the PASS bit (R101); total, rejecting by name. -/
def decodeOp (op : BitVec 4) (pass : BitVec 1) : Except DecodeError Instr :=
  match op with
  | 0x8#4 => if pass = 1#1 then .ok (.primSgrab .p1) else .ok (.primSgrab .p0)
  | 0x0#4 => if pass = 1#1 then .error .passBit else .ok .nop
  | 0x1#4 => if pass = 1#1 then .error .passBit else .ok .runUnit
  | 0x2#4 => if pass = 1#1 then .error .passBit else .ok .runPlane
  | 0x3#4 => if pass = 1#1 then .error .passBit else .ok .primRsr
  | 0x4#4 => if pass = 1#1 then .error .passBit else .ok .primClip3
  | 0x5#4 => if pass = 1#1 then .error .passBit else .ok .primLut
  | 0x6#4 => if pass = 1#1 then .error .passBit else .ok .primBox3
  | 0x7#4 => if pass = 1#1 then .error .passBit else .ok .primBox5
  | _ => .error .reservedOp

/-- The decoder of R101 and R110: every 32-bit word gives a command or a rejection by name. -/
def decode (w : Word) : Except DecodeError Instr :=
  if cmdRsv w = 0#27 then decodeOp (cmdOp w) (cmdPass w) else .error .reservedBits

/-- The CMD word of a command: the legal words of R101. -/
def encode : Instr → Word
  | .nop => 0x00000000#32
  | .runUnit => 0x00000001#32
  | .runPlane => 0x00000002#32
  | .primRsr => 0x00000003#32
  | .primClip3 => 0x00000004#32
  | .primLut => 0x00000005#32
  | .primBox3 => 0x00000006#32
  | .primBox5 => 0x00000007#32
  | .primSgrab .p0 => 0x00000008#32
  | .primSgrab .p1 => 0x00000018#32

/-- The instruction the decoder reads from the table's bits: one 32-bit word, bit 0 the least significant. Bits above
`nbits` are 0, and a value that does not fit in one word is no command (R112: one length, always 4 bytes). -/
def decodeTableWord (nbits w : Nat) : Option Instr :=
  if w % 2 ^ nbits < 2 ^ 32 then
    match decode (BitVec.ofNat 32 (w % 2 ^ nbits)) with
    | .ok i => some i
    | .error _ => none
  else none

end Sys2Proof
end

