-- ==== Sys2Proof/Machine/State.lean ====
section
/-! DEFINITION. The state of the block and of what surrounds it, as plain data, and its value after reset (R20, R310). -/
namespace Sys2Proof.Machine

/-- Sample memory (R70): the bytes that differ from `unlistedByte`, by address. -/
abbrev Memory := List Host.Cell

/-- What a byte of sample memory that nothing has written reads as. DESIGN CHOICE, unsafe: log entry 1. -/
def unlistedByte : Byte := 0#8

/-- The canonical form of sample memory: addresses strictly rising, no entry equal to what an unlisted address reads
as. -/
abbrev Memory.wf (m : Memory) : Prop :=
  m.Pairwise (fun c d => c.1 < d.1) ∧ ∀ c ∈ m, c.2 ≠ unlistedByte

/-- The codes of STATUS.ERR_CODE that the block produces (R280). -/
inductive ErrCode where
  | none
  | illegalCmd
  | badFormat
  | badKind
  | badGeometry
  | misaligned
  | passDisabled
  | busError
  deriving DecidableEq, Repr

/-- The read-write registers that acceptance copies into the snapshot (R44), each a 32-bit register whose reserved
bits hold 0 (R21). -/
structure Params where
  format : Word
  planeSize : Word
  unitPos : Word
  unitSize : Word
  srcBase : Word
  srcStride : Word
  dstBase : Word
  dstStride : Word
  unitKind : Word
  wienerH : Word
  wienerV : Word
  sgrPreset : Word
  sgrMult : Word
  opa : Word
  opb : Word
  opc : Word
  descBase : Word
  unitGrid : Word
  deriving DecidableEq, Repr

/-- The command snapshot S (R44): the CMD word and the copied registers. -/
structure Snapshot where
  cmd : Word
  regs : Params
  deriving DecidableEq, Repr

/-- The control state (R45): idle, or busy with the accepted command. -/
inductive Fsm where
  | idle
  | busy (cmd : Instr)
  deriving DecidableEq, Repr

/-- One entry of an SGR buffer (R47): the 8-bit table entry T and the offset b2, 20 bits at the widest depth. -/
structure AbEntry where
  t : BitVec 8
  b : BitVec 20
  deriving DecidableEq, Repr

/-- One entry of a sliding window (R48, R166): a horizontal sum and a horizontal sum of squares. -/
abbrev HEntry := Nat × Nat

/-- The scratch buffers (R46, R47, R48). -/
structure Scratch where
  /-- `WI[r][c]` at row r + 3, column c (R46). -/
  wi : List (List (BitVec 16))
  /-- `(TA_0, B_0)[i][j]` at row i + 1, column j + 1 (R47). -/
  sgr0 : List (List AbEntry)
  /-- `(TA_1, B_1)[i][j]` at row i + 1, column j + 1 (R47). -/
  sgr1 : List (List AbEntry)
  /-- The most recent horizontal-sum rows of box_sum_accumulator_3x3, oldest first (R48). -/
  win3 : List (List HEntry)
  /-- The most recent horizontal-sum rows of box_sum_accumulator_5x5, oldest first (R48). -/
  win5 : List (List HEntry)
  deriving DecidableEq, Repr

/-- What the platform says of a range of sample-memory addresses (R87, R88). -/
inductive RegionKind where
  /-- Accesses get an error response (R88, R286). -/
  | errorResponse
  /-- A device whose reads have side effects (R87). -/
  | device
  deriving DecidableEq, Repr

/-- A range of addresses of one kind. -/
structure Region where
  base : Nat
  size : Nat
  kind : RegionKind
  deriving DecidableEq, Repr

/-- One container write: the address of its first byte and its bytes, lowest address first (R72, R86). -/
structure Store where
  addr : Nat
  bytes : List Byte
  deriving DecidableEq, Repr

/-- Which agent moves next. The list of turns is the schedule (log entry 4). -/
inductive Turn where
  /-- The host performs its next statement. -/
  | host
  /-- The block, when BUSY, executes the rest of its command and completes it. -/
  | block
  /-- The block, when BUSY with run.plane, executes the next cell (R89, R258). -/
  | cell
  /-- The hardware reset input is asserted and released (R310). -/
  | reset
  /-- Another bus agent stores one byte of sample memory (R97). -/
  | agent (addr : Word) (v : Byte)
  /-- The n-th write an abandoned command left in flight completes (R311 item 2). -/
  | land (n : Nat)
  deriving DecidableEq, Repr

/-- Whether another agent has broken R97 for the running command: by writing its source rows or destination
containers (`data`), or its descriptors (`desc`). The model's own field (log entry 24). -/
structure Taint where
  data : Bool
  desc : Bool
  deriving DecidableEq, Repr

/-- What the running command found when it was accepted: sample memory, whose destination containers hold "the value before
the command" of R97, and the number of the free value its unpredictable writes take. The model's own (log entry 37). -/
structure Start where
  mem : Memory
  draw : Nat
  deriving DecidableEq, Repr

/-- The whole state (R20), with the sample memory, the platform, the host and the schedule around the block. -/
structure State where
  /-- The registers FORMAT to UNIT_GRID that hold parameters (R27 to R40, R42, R43). -/
  params : Params
  /-- CTRL.IRQ_EN (R24). -/
  irqEn : Bool
  /-- STATUS.DONE (R25). -/
  done : Bool
  /-- STATUS.ERR (R25). -/
  err : Bool
  /-- STATUS.OVR (R25). -/
  ovr : Bool
  /-- STATUS.ERR_CODE (R25, R280). -/
  errCode : ErrCode
  /-- RESULT0 (R41). -/
  result0 : Word
  /-- RESULT1 (R41). -/
  result1 : Word
  /-- The control state and the running command (R45). -/
  fsm : Fsm
  /-- The cells of the running run.plane that are complete; 0 while IDLE and for every other command (R89, R258; log
  entry 28). -/
  progress : Nat
  /-- The command snapshot (R44). Between commands U6 leaves it unspecified; the model keeps the last one taken. DESIGN
  CHOICE: log entry 36. -/
  snap : Snapshot
  /-- The scratch buffers (R46 to R48). -/
  scratch : Scratch
  /-- Sample memory (R70). -/
  mem : Memory
  /-- `REG_BASE`, the bus address of the register window, an open parameter of the platform (R4, R76; log entry 17). -/
  regBase : Nat
  /-- The platform's regions of sample memory (R87, R88; log entry 15). -/
  regions : List Region
  /-- The host (R114). -/
  host : HostState
  /-- The turns to come (log entry 4). -/
  sched : List Turn
  /-- Broken concurrency rules of the running command (log entry 24). -/
  taint : Taint
  /-- What the running command found at its acceptance; nothing while IDLE (R97; log entry 37). -/
  start : Start
  /-- Writes of an abandoned command that may still complete (R311 item 2; log entry 29). -/
  inFlight : List Store
  /-- The number of the next free value (log entry 23). -/
  draws : Nat
  deriving DecidableEq, Repr

/-- Why the machine stops. -/
inductive Fault where
  /-- Raised by a host turn: a register access that is not an aligned 32-bit word (R77, U15), or a host load or store of
  an address the platform answers with an error response. What the host sees is the open parameter HOST_BUS_ERROR (D46);
  the block's state does not change. Safe. -/
  | hostBusError
  /-- Raised by a host turn: a host load or store reaches past the last byte of sample memory (R70). Safe. -/
  | addressRange
  /-- Raised by a host turn: the statement uses a name that no earlier statement has bound (R114). Safe. -/
  | unboundName
  deriving DecidableEq, Repr

/-- Why the model gives no meaning. -/
inductive Refusal where
  /-- An instruction that has no meaning yet. Safe. -/
  | notModelled (mnemonic : String)
  /-- Raised by a memory command whose source window, descriptors or destination touch a device region, whatever its filter
  reads of the window, and by a host load or store of one: a model refuses such a command (R87, U9; log entry 13). Safe. -/
  | deviceMemory
  deriving DecidableEq, Repr

/-- The outcome of a step of this machine. -/
abbrev Outcome := Host.Outcome State Fault Refusal

/-- The parameter registers after reset (R21, R310). -/
def Params.reset : Params :=
  { format := 0#32, planeSize := 0#32, unitPos := 0#32, unitSize := 0#32, srcBase := 0#32, srcStride := 0#32
    dstBase := 0#32, dstStride := 0#32, unitKind := 0#32, wienerH := 0#32, wienerV := 0#32, sgrPreset := 0#32
    sgrMult := 0#32, opa := 0#32, opb := 0#32, opc := 0#32, descBase := 0#32, unitGrid := 0#32 }

/-- The snapshot after reset. R310 leaves it unspecified and never read; DESIGN CHOICE: log entry 2. -/
def Snapshot.reset : Snapshot := { cmd := 0#32, regs := Params.reset }

/-- The scratch buffers after reset. R50 leaves them unspecified and never read; DESIGN CHOICE: log entry 3. -/
def Scratch.reset : Scratch := { wi := [], sgr0 := [], sgr1 := [], win3 := [], win5 := [] }

/-- No rule of R97 broken. -/
def Taint.clear : Taint := { data := false, desc := false }

/-- Some rule of R97 broken. -/
def Taint.any (t : Taint) : Bool := t.data || t.desc

/-- No command is running. -/
def Start.none : Start := { mem := [], draw := 0 }

/-- The machine right after hardware reset (R310), with nothing placed in sample memory and no host program. -/
def State.reset : State :=
  { params := Params.reset, irqEn := false, done := false, err := false, ovr := false, errCode := .none
    result0 := 0#32, result1 := 0#32, fsm := .idle, progress := 0, snap := Snapshot.reset, scratch := Scratch.reset
    mem := [], regBase := 0, regions := [], host := { prog := [], pc := 0, names := [] }, sched := [], taint := Taint.clear
    start := Start.none, inFlight := [], draws := 0 }

end Sys2Proof.Machine
end

