-- ==== Sys2Proof/Machine/Arith.lean ====
section
/-! DEFINITION. Exact integer arithmetic (R9, R11, R12): rounding shift, clamp, finite sums. -/
namespace Sys2Proof.Machine

/-- RoundingShiftRight (R130): `floor((v + 2^(b-1)) / 2^b)`, and `v` for b = 0. -/
def rsr (v : Int) (b : Nat) : Int :=
  if b = 0 then v else (v + 2 ^ (b - 1)) / 2 ^ b

/-- Clip3 (R131): the cases are tested in this order, so low > high has a result too. -/
def clip3 (v low high : Int) : Int :=
  if v < low then low else if high < v then high else v

/-- `f 0 + … + f (n-1)` over the integers. -/
def sumInt : Nat → (Nat → Int) → Int
  | 0, _ => 0
  | n + 1, f => sumInt n f + f n

/-- `f 0 + … + f (n-1)` over the naturals. -/
def sumNat : Nat → (Nat → Nat) → Nat
  | 0, _ => 0
  | n + 1, f => sumNat n f + f n

/-- `trunc_32` of an integer (R11). -/
def trunc32 (v : Int) : Word := BitVec.ofInt 32 v

/-- `⌈a / b⌉` for b ≥ 1 (R257). -/
def ceilDiv (a b : Nat) : Nat := (a + b - 1) / b

end Sys2Proof.Machine
end

