-- ==== Sys2Proof/Machine/Tables.lean ====
section
/-! DEFINITION. The two constant tables (R49): the reciprocal table (R150) and the preset table (R215). -/
namespace Sys2Proof.Machine

/-- Entries 0 to 47 of the reciprocal table (R150). -/
def reciprocalHead : List Nat :=
  [255, 128, 85, 64, 51, 43, 37, 32, 28, 26, 23, 21, 20, 18, 17, 16] ++
  [15, 14, 13, 13, 12, 12, 11, 11, 10, 10, 9, 9, 9, 9, 8, 8] ++
  [8, 8, 7, 7, 7, 7, 7, 6, 6, 6, 6, 6, 6, 6, 5, 5]

/-- The 256 entries of the reciprocal table, the rest by R150's runs: 5 for z = 48 to 55, 4 for 56 to 72, 3 for 73 to
101, 2 for 102 to 169, 1 for 170 to 254, 0 for 255. -/
def reciprocalTable : List Nat :=
  reciprocalHead ++ List.replicate 8 5 ++ List.replicate 17 4 ++ List.replicate 29 3 ++ List.replicate 68 2 ++
    List.replicate 85 1 ++ [0]

/-- `T[z]` (R150). -/
def recip (z : Nat) : Nat := reciprocalTable.getD z 0

/-- One row of the preset table (R215). -/
structure Preset where
  r0 : Nat
  scale0 : Nat
  r1 : Nat
  scale1 : Nat
  deriving DecidableEq, Repr

/-- The preset table (R215). -/
def presetTable : List Preset :=
  [⟨2, 140, 1, 3236⟩, ⟨2, 112, 1, 2158⟩, ⟨2, 93, 1, 1618⟩, ⟨2, 80, 1, 1438⟩] ++
  [⟨2, 70, 1, 1295⟩, ⟨2, 58, 1, 1177⟩, ⟨2, 47, 1, 1079⟩, ⟨2, 37, 1, 996⟩] ++
  [⟨2, 30, 1, 925⟩, ⟨2, 25, 1, 863⟩, ⟨0, 0, 1, 2589⟩, ⟨0, 0, 1, 1618⟩] ++
  [⟨0, 0, 1, 1177⟩, ⟨0, 0, 1, 925⟩, ⟨2, 56, 0, 0⟩, ⟨2, 22, 0, 0⟩]

/-- The row of a preset index; every 4-bit index has one (R38, R215). -/
def presetOf (k : Nat) : Preset := presetTable.getD k ⟨0, 0, 0, 0⟩

/-- The radius of a pass in a preset row (R215, R216). -/
def Preset.radius (q : Preset) : Pass → Nat
  | .p0 => q.r0
  | .p1 => q.r1

/-- The scale of a pass in a preset row (R215, R216). -/
def Preset.scale (q : Preset) : Pass → Nat
  | .p0 => q.scale0
  | .p1 => q.scale1

end Sys2Proof.Machine
end

