-- ==== Sys2Proof/Machine/Flags.lean ====
section
/-! DEFINITION. The flags of the block (R53): STATUS, its write-one-to-clear rule and the interrupt output. No arithmetic
operation sets a flag. -/
namespace Sys2Proof.Machine

/-- The code of an error (R280). -/
def ErrCode.code : ErrCode → BitVec 4
  | .none => 0#4
  | .illegalCmd => 1#4
  | .badFormat => 2#4
  | .badKind => 3#4
  | .badGeometry => 4#4
  | .misaligned => 5#4
  | .passDisabled => 6#4
  | .busError => 7#4

/-- STATUS.BUSY: fsm = BUSY (R45). -/
def State.isBusy (s : State) : Bool :=
  match s.fsm with
  | .idle => false
  | .busy _ => true

/-- The STATUS register as a read returns it (R25): BUSY 0, DONE 1, ERR 2, OVR 3, ERR_CODE 11:8. -/
def statusWord (s : State) : Word :=
  0#20 ++ s.errCode.code ++ 0#4 ++ BitVec.ofBool s.ovr ++ BitVec.ofBool s.err ++ BitVec.ofBool s.done ++
    BitVec.ofBool s.isBusy

/-- A host write of STATUS (R25): writing 1 to DONE clears DONE, 1 to ERR clears ERR and ERR_CODE, 1 to OVR clears
OVR; every other bit is ignored. -/
def writeStatus (v : Word) (s : State) : State :=
  { s with
    done := s.done && !v.getLsbD 1
    err := s.err && !v.getLsbD 2
    errCode := if v.getLsbD 2 then .none else s.errCode
    ovr := s.ovr && !v.getLsbD 3 }

/-- The interrupt output: IRQ = CTRL.IRQ_EN ∧ STATUS.DONE (R55, R287). -/
def State.irq (s : State) : Bool := s.irqEn && s.done

end Sys2Proof.Machine
end

