-- ==== Sys2Proof/Machine/Operands.lean ====
section
/-! DEFINITION. Every operand form of R103: register fields, their decodings, and the derived names of R44. -/
namespace Sys2Proof.Machine

/-- Bits 15:0 as `zext_16`: X0, PW, W, UW (R28 to R30, R43). -/
def lo16 (w : Word) : Nat := (w.extractLsb' 0 16).toNat

/-- Bits 31:16 as `zext_16`: Y0, PH, H, UH (R28 to R30, R43). -/
def hi16 (w : Word) : Nat := (w.extractLsb' 16 16).toNat

/-- Bits 15:0 as `sext_16`: W0, the box column j (R39, R103). -/
def lo16s (w : Word) : Int := (w.extractLsb' 0 16).toInt

/-- Bits 31:16 as `sext_16`: W1, the box row i (R39, R103). -/
def hi16s (w : Word) : Int := (w.extractLsb' 16 16).toInt

/-- The three bit depths of the block (R5). -/
inductive BitDepth where
  | bd8
  | bd10
  | bd12
  deriving DecidableEq, Repr

/-- FORMAT.BD_CODE (R27). -/
def bdCode (format : Word) : BitVec 2 := format.extractLsb' 0 2

/-- The bit depth a BD_CODE selects; code 3 is reserved (R27, R105). -/
def bitDepth? (format : Word) : Option BitDepth :=
  match bdCode format with
  | 0#2 => some .bd8
  | 1#2 => some .bd10
  | 2#2 => some .bd12
  | _ => none

/-- BD, the sample bit depth (R5). -/
def BitDepth.bits : BitDepth → Nat
  | .bd8 => 8
  | .bd10 => 10
  | .bd12 => 12

/-- SB, the bytes of a sample container (R6). -/
def BitDepth.sampleBytes : BitDepth → Nat
  | .bd8 => 1
  | .bd10 => 2
  | .bd12 => 2

/-- PIXMAX (R4, R44). -/
def BitDepth.pixMax (bd : BitDepth) : Nat := 2 ^ bd.bits - 1

/-- SB as the checks of R282 and R84 use it, from BD_CODE; BAD_FORMAT is checked before (R282). -/
def sampleBytesOf (format : Word) : Nat := if bdCode format = 0#2 then 1 else 2

/-- The filter kinds (R35, R105). -/
inductive FilterKind where
  | copy
  | wiener
  | selfGuided
  deriving DecidableEq, Repr

/-- The filter kind of bits 1:0 of UNIT_KIND or of a descriptor's word 0; code 3 is reserved (R35, R102). -/
def filterKind? (w : Word) : Option FilterKind :=
  match w.extractLsb' 0 2 with
  | 0#2 => some .copy
  | 1#2 => some .wiener
  | 2#2 => some .selfGuided
  | _ => none

/-- Stored tap k of a WIENER_H or WIENER_V layout as `sext_8` (R36, R103). -/
def storedTap (w : Word) : Nat → Int
  | 0 => (w.extractLsb' 0 8).toInt
  | 1 => (w.extractLsb' 8 8).toInt
  | _ => (w.extractLsb' 16 8).toInt

/-- LZT of a WIENER_H or WIENER_V layout (R36, R103). -/
def leadingZeroTaps (w : Word) : Nat := (w.extractLsb' 24 2).toNat

/-- SGR_PRESET.PRESET (R38). -/
def presetIndex (w : Word) : Nat := (w.extractLsb' 0 4).toNat

/-- PRESET of a descriptor's word 0, bits 7:4 (R102). -/
def descPresetIndex (w : Word) : Nat := (w.extractLsb' 4 4).toNat

/-- The shift count of `prim.rsr`: OPB[4:0] (R103, R134). -/
def shiftCount (w : Word) : Nat := (w.extractLsb' 0 5).toNat

/-- The per-unit parameter record (RestorationUnitInfo) as RUN_UNIT reads it from S and RUN_PLANE from a
descriptor (R102, R255, R258). -/
structure UnitRecord where
  kind : FilterKind
  wienerH : Word
  wienerV : Word
  preset : Nat
  mult : Word
  deriving DecidableEq, Repr

/-- A restoration unit: its top-left plane position and its size (R78). -/
structure UnitRect where
  x0 : Nat
  y0 : Nat
  w : Nat
  h : Nat
  deriving DecidableEq, Repr

/-- The unit of RUN_UNIT and of the box commands (R78). -/
def unitOf (p : Params) : UnitRect :=
  { x0 := lo16 p.unitPos, y0 := hi16 p.unitPos, w := lo16 p.unitSize, h := hi16 p.unitSize }

/-- PW (R28). -/
def planeW (p : Params) : Nat := lo16 p.planeSize

/-- PH (R28). -/
def planeH (p : Params) : Nat := hi16 p.planeSize

end Sys2Proof.Machine
end

