-- ==== Sys2Proof/Machine/Ops.lean ====
section
/-! DEFINITION. The named operations over sample memory, registers and the life cycle of a command (R13, R21, R250 to
R253, R283). Every read and write of a register goes through `readReg` and `writeReg`. -/
namespace Sys2Proof.Machine

/-! ### Sample memory (R13, R72) -/

/-- The byte at an address. -/
def Memory.read : Memory → Nat → Byte
  | [], _ => unlistedByte
  | c :: m, a => if a = c.1 then c.2 else Memory.read m a

/-- Store one byte, keeping the canonical form: storing `unlistedByte` removes the entry. -/
def Memory.write : Memory → Nat → Byte → Memory
  | [], a, v => if v = unlistedByte then [] else [(a, v)]
  | c :: m, a, v =>
    if a < c.1 then (if v = unlistedByte then c :: m else (a, v) :: c :: m)
    else if a = c.1 then (if v = unlistedByte then m else (a, v) :: m)
    else c :: Memory.write m a v

/-- `MemRead(addr, n)`: the n-byte little-endian unsigned value (R13, R72). -/
def Memory.readLE (m : Memory) (a : Nat) : Nat → Nat
  | 0 => 0
  | n + 1 => (m.read a).toNat + 256 * Memory.readLE m (a + 1) n

/-- The n low bytes of a value, lowest first (R13, R72). -/
def leBytes : Nat → Nat → List Byte
  | 0, _ => []
  | n + 1, v => BitVec.ofNat 8 v :: leBytes n (v / 256)

/-- Store bytes at consecutive addresses. -/
def Memory.writeBytes (m : Memory) (a : Nat) : List Byte → Memory
  | [] => m
  | b :: bs => Memory.writeBytes (m.write a b) (a + 1) bs

/-- Perform container writes in order (R82, R86). -/
def Memory.writeStores (m : Memory) : List Store → Memory
  | [] => m
  | st :: sts => Memory.writeStores (m.writeBytes st.addr st.bytes) sts

/-! ### The register file (R21) -/

/-- The registers of the window (R21). -/
inductive Reg where
  | id
  | caps
  | ctrl
  | status
  | cmd
  | format
  | planeSize
  | unitPos
  | unitSize
  | srcBase
  | srcStride
  | dstBase
  | dstStride
  | unitKind
  | wienerH
  | wienerV
  | sgrPreset
  | sgrMult
  | opa
  | opb
  | opc
  | result0
  | result1
  | descBase
  | unitGrid
  deriving DecidableEq, Repr

/-- The register at a byte offset of the window; none for a reserved offset (R21). -/
def Reg.ofOffset? (off : Nat) : Option Reg :=
  match off with
  | 0x00 => some .id
  | 0x04 => some .caps
  | 0x08 => some .ctrl
  | 0x0C => some .status
  | 0x10 => some .cmd
  | 0x14 => some .format
  | 0x18 => some .planeSize
  | 0x1C => some .unitPos
  | 0x20 => some .unitSize
  | 0x24 => some .srcBase
  | 0x28 => some .srcStride
  | 0x2C => some .dstBase
  | 0x30 => some .dstStride
  | 0x34 => some .unitKind
  | 0x38 => some .wienerH
  | 0x3C => some .wienerV
  | 0x40 => some .sgrPreset
  | 0x44 => some .sgrMult
  | 0x48 => some .opa
  | 0x4C => some .opb
  | 0x50 => some .opc
  | 0x54 => some .result0
  | 0x58 => some .result1
  | 0x5C => some .descBase
  | 0x60 => some .unitGrid
  | _ => none

/-- The bits of FORMAT that hold state (R27). -/
def formatMask : Word := 0x00000003#32
/-- The bits of UNIT_KIND that hold state (R35). -/
def unitKindMask : Word := 0x00000003#32
/-- The bits of WIENER_H and WIENER_V that hold state (R36, R37). -/
def wienerMask : Word := 0x03FFFFFF#32
/-- The bits of SGR_PRESET that hold state (R38). -/
def sgrPresetMask : Word := 0x0000000F#32

/-- CTRL as a read returns it: IRQ_EN in bit 0, SOFT_RESET reads 0 (R24). -/
def ctrlWord (s : State) : Word := if s.irqEn then 1#32 else 0#32

/-- A register read (R21 to R43, R77); it has no side effect. -/
def readReg (r : Reg) (s : State) : Word :=
  match r with
  | .id => Config.idValue
  | .caps => Config.capsValue
  | .ctrl => ctrlWord s
  | .status => statusWord s
  | .cmd => 0#32
  | .format => s.params.format
  | .planeSize => s.params.planeSize
  | .unitPos => s.params.unitPos
  | .unitSize => s.params.unitSize
  | .srcBase => s.params.srcBase
  | .srcStride => s.params.srcStride
  | .dstBase => s.params.dstBase
  | .dstStride => s.params.dstStride
  | .unitKind => s.params.unitKind
  | .wienerH => s.params.wienerH
  | .wienerV => s.params.wienerV
  | .sgrPreset => s.params.sgrPreset
  | .sgrMult => s.params.sgrMult
  | .opa => s.params.opa
  | .opb => s.params.opb
  | .opc => s.params.opc
  | .result0 => s.result0
  | .result1 => s.result1
  | .descBase => s.params.descBase
  | .unitGrid => s.params.unitGrid

/-- A write of a register that has no side effect beyond its own bits: reserved bits and read-only registers ignore it
(R21). CTRL with SOFT_RESET = 1 and CMD are bus operations of Machine/Bus.lean; here CTRL sets IRQ_EN (R24) and
CMD holds no state (R26). -/
def writeReg (r : Reg) (v : Word) (s : State) : State :=
  match r with
  | .id => s
  | .caps => s
  | .ctrl => { s with irqEn := v.getLsbD 0 }
  | .status => writeStatus v s
  | .cmd => s
  | .format => { s with params := { s.params with format := v &&& formatMask } }
  | .planeSize => { s with params := { s.params with planeSize := v } }
  | .unitPos => { s with params := { s.params with unitPos := v } }
  | .unitSize => { s with params := { s.params with unitSize := v } }
  | .srcBase => { s with params := { s.params with srcBase := v } }
  | .srcStride => { s with params := { s.params with srcStride := v } }
  | .dstBase => { s with params := { s.params with dstBase := v } }
  | .dstStride => { s with params := { s.params with dstStride := v } }
  | .unitKind => { s with params := { s.params with unitKind := v &&& unitKindMask } }
  | .wienerH => { s with params := { s.params with wienerH := v &&& wienerMask } }
  | .wienerV => { s with params := { s.params with wienerV := v &&& wienerMask } }
  | .sgrPreset => { s with params := { s.params with sgrPreset := v &&& sgrPresetMask } }
  | .sgrMult => { s with params := { s.params with sgrMult := v } }
  | .opa => { s with params := { s.params with opa := v } }
  | .opb => { s with params := { s.params with opb := v } }
  | .opc => { s with params := { s.params with opc := v } }
  | .result0 => s
  | .result1 => s
  | .descBase => { s with params := { s.params with descBase := v } }
  | .unitGrid => { s with params := { s.params with unitGrid := v } }

/-! ### Acceptance, completion and errors (R250 to R253, R283) -/

/-- The first part of acceptance: S is written and DONE, ERR and ERR_CODE are cleared; OVR is not touched (R250). -/
def takeSnapshot (word : Word) (s : State) : State :=
  { s with
    snap := { cmd := word, regs := s.params }
    done := false
    err := false
    errCode := .none
    progress := 0
    taint := Taint.clear }

/-- The end of acceptance: the command runs (R250). Memory as it is now is the memory before the command (R97), and the
draw counter as it is now numbers the values the command writes where they are unpredictable (U2, U3; log entry 37). -/
def startCommand (i : Instr) (s : State) : State := { s with fsm := .busy i, start := { mem := s.mem, draw := s.draws } }

/-- `raise Error(code)` (R283), at acceptance (R250) and during execution (R253): ERR_CODE, ERR and DONE are set and the
block is IDLE. The error saves no state and transfers no control (R289). S keeps the words the command took, which U6 leaves
unspecified: DESIGN CHOICE, log entry 36. -/
def raiseError (code : ErrCode) (s : State) : State :=
  { s with errCode := code, err := true, done := true, fsm := .idle, progress := 0, start := Start.none }

/-- Successful completion (R252 step 3). S keeps the words the command took, which U6 leaves unspecified: DESIGN CHOICE,
log entry 36. -/
def complete (s : State) : State := { s with done := true, fsm := .idle, progress := 0, start := Start.none }

/-- RESULT0 and RESULT1 as a command writes them (R41, R252 step 2). -/
def setResults (r0 r1 : Word) (s : State) : State := { s with result0 := r0, result1 := r1 }

/-- A CMD write while BUSY is dropped and sets OVR (R251). -/
def dropCommand (s : State) : State := { s with ovr := true }

/-- The block after a hardware or soft reset (R310, R311); memory, platform, host and schedule are outside it. -/
def resetBlock (s : State) : State :=
  { State.reset with
    mem := s.mem
    regBase := s.regBase
    regions := s.regions
    host := s.host
    sched := s.sched
    inFlight := s.inFlight
    draws := s.draws }

/-- The next free value: advance the draw counter. -/
def bumpDraws (s : State) : State := { s with draws := s.draws + 1 }

end Sys2Proof.Machine
end

