-- ==== Sys2Proof/Machine/Window.lean ====
section
/-! DEFINITION. The source window, the destination and the address ranges a command touches (R73 to R75, R78 to R82,
R96, R257). -/
namespace Sys2Proof.Machine

/-! ### Samples (R73 to R75) -/

/-- SAddr (R75): exact, no wrap-around. -/
def sampleAddr (base stride : Word) (bd : BitDepth) (y x : Nat) : Nat :=
  base.toNat + y * stride.toNat + x * bd.sampleBytes

/-- SampleRead (R73): the container masked with PIXMAX = 2^BD - 1. -/
def sampleRead (m : Memory) (bd : BitDepth) (a : Nat) : Nat := m.readLE a bd.sampleBytes % 2 ^ bd.bits

/-! ### The edge rule (R80) -/

/-- rlo, the top row a unit may read (R80). -/
def rowLo (u : UnitRect) : Int := max 0 ((u.y0 : Int) - 2)

/-- rhi, the bottom row a unit may read (R80). -/
def rowHi (p : Params) (u : UnitRect) : Int := min ((planeH p : Int) - 1) ((u.y0 : Int) + u.h + 1)

/-- The plane row of unit-relative row i (R80). -/
def srcRow (p : Params) (u : UnitRect) (i : Int) : Int := clip3 (u.y0 + i) (rowLo u) (rowHi p u)

/-- The plane column of unit-relative column j (R80). -/
def srcCol (p : Params) (u : UnitRect) (j : Int) : Int := clip3 (u.x0 + j) 0 ((planeW p : Int) - 1)

/-- The address of `Src(i, j)` (R80). -/
def srcAddr (p : Params) (bd : BitDepth) (u : UnitRect) (i j : Int) : Nat :=
  sampleAddr p.srcBase p.srcStride bd (srcRow p u i).toNat (srcCol p u j).toNat

/-- `Src(i, j)`, the source window sample (R80). -/
def src (p : Params) (bd : BitDepth) (u : UnitRect) (m : Memory) (i j : Int) : Nat :=
  sampleRead m bd (srcAddr p bd u i j)

/-! ### The destination (R74, R82) -/

/-- The address of `Dst(i, j)` (R82). -/
def dstAddr (p : Params) (bd : BitDepth) (u : UnitRect) (i j : Nat) : Nat :=
  sampleAddr p.dstBase p.dstStride bd (u.y0 + i) (u.x0 + j)

/-- The container write of `Dst(i, j) <- v` (R74, R82). -/
def dstStore (p : Params) (bd : BitDepth) (u : UnitRect) (i j : Nat) (v : Int) : Store :=
  { addr := dstAddr p bd u i j, bytes := leBytes bd.sampleBytes v.toNat }

/-- The container writes of a whole unit, one per destination sample (R82). -/
def unitStores (p : Params) (bd : BitDepth) (u : UnitRect) (v : Nat → Nat → Int) : List Store :=
  (List.range u.h).flatMap fun i => (List.range u.w).map fun j => dstStore p bd u i j (v i j)

/-! ### The grid of run.plane (R257) -/

/-- Columns of the grid. -/
def gridCols (p : Params) : Nat := ceilDiv (planeW p) (lo16 p.unitGrid)

/-- Rows of the grid. -/
def gridRows (p : Params) : Nat := ceilDiv (planeH p) (hi16 p.unitGrid)

/-- N, the number of cells (R257). -/
def cellCount (p : Params) : Nat := gridRows p * gridCols p

/-- The unit of the cell at grid row r and column c (R257). -/
def cellAt (p : Params) (r c : Nat) : UnitRect :=
  { x0 := c * lo16 p.unitGrid
    y0 := r * hi16 p.unitGrid
    w := min (lo16 p.unitGrid) (planeW p - c * lo16 p.unitGrid)
    h := min (hi16 p.unitGrid) (planeH p - r * hi16 p.unitGrid) }

/-- The cells in raster order (R257, R258). -/
def gridCells (p : Params) : List UnitRect :=
  (List.range (gridRows p)).flatMap fun r => (List.range (gridCols p)).map fun c => cellAt p r c

/-! ### Address ranges (R81, R82, R96, R97) -/

/-- `len` bytes from `start`. -/
structure Span where
  start : Nat
  len : Nat
  deriving DecidableEq, Repr

/-- The two ranges share a byte. -/
def Span.meets (a b : Span) : Bool :=
  decide (max a.start b.start < min (a.start + a.len) (b.start + b.len))

/-- Some range of the first list shares a byte with some range of the second. -/
def spansMeet (as bs : List Span) : Bool := as.any fun a => bs.any a.meets

/-- Source rows y0 to y0 + n - 1 of the plane, all columns (R81). -/
def sourceRows (p : Params) (bd : BitDepth) (y0 n : Nat) : List Span :=
  (List.range n).map fun k => ⟨sampleAddr p.srcBase p.srcStride bd (y0 + k) 0, planeW p * bd.sampleBytes⟩

/-- The containers a unit may read: plane rows rlo to rhi, all columns (R81). -/
def unitSource (p : Params) (bd : BitDepth) (u : UnitRect) : List Span :=
  sourceRows p bd (rowLo u).toNat (rowHi p u + 1 - rowLo u).toNat

/-- The containers a unit writes (R82). -/
def unitDest (p : Params) (bd : BitDepth) (u : UnitRect) : List Span :=
  (List.range u.h).map fun i => ⟨dstAddr p bd u i 0, u.w * bd.sampleBytes⟩

/-- The source window of a unit: its rectangle extended by 3 columns and rows on every side, read through the edge rule
(00_scope glossary, R79, R80): plane rows rlo to rhi, columns X0 - 3 to X0 + W + 2 inside the frame. -/
def windowSpans (p : Params) (bd : BitDepth) (u : UnitRect) : List Span :=
  let left := u.x0 - 3
  let right := min (planeW p) (u.x0 + u.w + 3)
  (List.range (rowHi p u + 1 - rowLo u).toNat).map fun k =>
    ⟨sampleAddr p.srcBase p.srcStride bd ((rowLo u).toNat + k) left, (right - left) * bd.sampleBytes⟩

/-- The whole plane as one unit: what the cells of the grid cover together (R257). -/
def planeRect (p : Params) : UnitRect := { x0 := 0, y0 := 0, w := planeW p, h := planeH p }

/-- The unit's own source containers: the only ones a copy reads (R256). -/
def unitOwn (p : Params) (bd : BitDepth) (u : UnitRect) : List Span :=
  (List.range u.h).map fun i =>
    ⟨sampleAddr p.srcBase p.srcStride bd (u.y0 + i) u.x0, u.w * bd.sampleBytes⟩

/-- The containers a unit of a filter kind may read (R81): a copy reads no context (R256). -/
def unitWindow (kind : FilterKind) (p : Params) (bd : BitDepth) (u : UnitRect) : List Span :=
  match kind with
  | .copy => unitOwn p bd u
  | .wiener => unitSource p bd u
  | .selfGuided => unitSource p bd u

/-- The source containers a box of radius r around (i, j) reads, at most (2r+1)² (R165, R170, R171). -/
def boxReads (p : Params) (bd : BitDepth) (u : UnitRect) (r : Nat) (i j : Int) : List Span :=
  (List.range (2 * r + 1)).flatMap fun (y : Nat) => (List.range (2 * r + 1)).map fun (x : Nat) =>
    ⟨srcAddr p bd u (i + y - r) (j + x - r), bd.sampleBytes⟩

/-- The source containers run.unit may read. KIND = 3 never reaches execution (R281). -/
def runUnitSource (p : Params) (bd : BitDepth) : List Span :=
  match filterKind? p.unitKind with
  | none => []
  | some kind => unitWindow kind p bd (unitOf p)

/-- The source containers a command may read (R81, R170, R171, R256). The units of run.plane cover the plane, so together
they may read all of it, whatever their kinds. -/
def sourceSpans (i : Instr) (p : Params) : List Span :=
  match bitDepth? p.format with
  | none => []
  | some bd =>
    match i with
    | .nop => []
    | .runUnit => runUnitSource p bd
    | .runPlane => unitSource p bd (planeRect p)
    | .primRsr => []
    | .primClip3 => []
    | .primLut => []
    | .primBox3 => boxReads p bd (unitOf p) 1 (hi16s p.opa) (lo16s p.opa)
    | .primBox5 => boxReads p bd (unitOf p) 2 (hi16s p.opa) (lo16s p.opa)
    | .primSgrab _ => []

/-- The source containers of R81, rows rlo to rhi of the command's unit and all columns, whatever its filter reads of
them: its destination must not overlap them (R96, U2), and no other agent may write them while it is BUSY (R97; log
entry 24). -/
def guardedRows (i : Instr) (p : Params) : List Span :=
  match bitDepth? p.format with
  | none => []
  | some bd =>
    match i with
    | .nop => []
    | .runUnit => unitSource p bd (unitOf p)
    | .runPlane => unitSource p bd (planeRect p)
    | .primRsr => []
    | .primClip3 => []
    | .primLut => []
    | .primBox3 => unitSource p bd (unitOf p)
    | .primBox5 => unitSource p bd (unitOf p)
    | .primSgrab _ => []

/-- The units a command writes, in order (R82, R257). -/
def destCells (i : Instr) (p : Params) : List UnitRect :=
  match i with
  | .nop => []
  | .runUnit => [unitOf p]
  | .runPlane => gridCells p
  | .primRsr => []
  | .primClip3 => []
  | .primLut => []
  | .primBox3 => []
  | .primBox5 => []
  | .primSgrab _ => []

/-- The destination containers a command writes (R82). -/
def destSpans (i : Instr) (p : Params) : List Span :=
  match bitDepth? p.format with
  | none => []
  | some bd =>
    match i with
    | .nop => []
    | .runUnit => unitDest p bd (unitOf p)
    | .runPlane => unitDest p bd (planeRect p)
    | .primRsr => []
    | .primClip3 => []
    | .primLut => []
    | .primBox3 => []
    | .primBox5 => []
    | .primSgrab _ => []

/-- The descriptors a command reads (R102, R258). -/
def descSpans (i : Instr) (p : Params) : List Span :=
  match i with
  | .nop => []
  | .runUnit => []
  | .runPlane => [⟨p.descBase.toNat, 16 * cellCount p⟩]
  | .primRsr => []
  | .primClip3 => []
  | .primLut => []
  | .primBox3 => []
  | .primBox5 => []
  | .primSgrab _ => []

/-- Every range a command may access. -/
def commandSpans (i : Instr) (p : Params) : List Span := sourceSpans i p ++ destSpans i p ++ descSpans i p

/-- The source window of a command, whatever its filter reads of it (R79, R87). The windows of run.plane's cells cover the
plane. -/
def sourceWindow (i : Instr) (p : Params) : List Span :=
  match bitDepth? p.format with
  | none => []
  | some bd =>
    match i with
    | .nop => []
    | .runUnit => windowSpans p bd (unitOf p)
    | .runPlane => windowSpans p bd (planeRect p)
    | .primRsr => []
    | .primClip3 => []
    | .primLut => []
    | .primBox3 => windowSpans p bd (unitOf p)
    | .primBox5 => windowSpans p bd (unitOf p)
    | .primSgrab _ => []

/-- The ranges that must be ordinary memory: the command's source window, read or not, and every range it may access
(R87, U9). A copy's window has the context it does not read (R256), and a box may reach outside its window (R80, R170). -/
def ordinarySpans (i : Instr) (p : Params) : List Span := sourceWindow i p ++ commandSpans i p

/-- The command breaks the aliasing rule: its destination overlaps a source container of R81 or a descriptor it reads
(R96). A copy's context rows and columns count, although it does not read them (R256). -/
def aliased (i : Instr) (p : Params) : Bool := spansMeet (destSpans i p) (guardedRows i p ++ descSpans i p)

/-- Some range of the list touches a region of this kind. -/
def touches (k : RegionKind) (spans : List Span) (regions : List Region) : Bool :=
  regions.any fun g => g.kind == k && spans.any (Span.meets ⟨g.base, g.size⟩)

/-- A model refuses a command whose source window, descriptors or destination lie on a device (R87, U9; log entry 13). -/
def onOrdinaryMemory (i : Instr) (s : State) (next : Outcome) : Outcome :=
  if touches .device (ordinarySpans i s.snap.regs) s.regions then .refused .deviceMemory else next

end Sys2Proof.Machine
end

