-- ==== Sys2Proof/Machine/Checks.lean ====
section
/-! DEFINITION. The acceptance checks (R281, R282, R84, R85). -/
namespace Sys2Proof.Machine

/-- The commands that use BD (R281). -/
def usesBitDepth : Instr → Bool
  | .nop => false
  | .runUnit => true
  | .runPlane => true
  | .primRsr => false
  | .primClip3 => false
  | .primLut => false
  | .primBox3 => true
  | .primBox5 => true
  | .primSgrab _ => true

/-- The unit group of R282. -/
def unitGroupOK (p : Params) : Bool :=
  let u := unitOf p
  decide (1 ≤ planeW p) && decide (1 ≤ planeH p) && decide (1 ≤ u.w) && decide (u.w ≤ Config.maxUnitW) &&
    decide (1 ≤ u.h) && decide (u.h ≤ Config.maxUnitH) && decide (u.x0 + u.w ≤ planeW p) &&
    decide (u.y0 + u.h ≤ planeH p)

/-- The grid group of R282. -/
def gridGroupOK (p : Params) : Bool :=
  decide (1 ≤ planeW p) && decide (1 ≤ planeH p) && decide (1 ≤ lo16 p.unitGrid) &&
    decide (lo16 p.unitGrid ≤ Config.maxUnitW) && decide (1 ≤ hi16 p.unitGrid) &&
    decide (hi16 p.unitGrid ≤ Config.maxUnitH)

/-- The source and destination groups of R282, for one plane (R85); all arithmetic is exact. -/
def planeFits (base stride : Word) (p : Params) : Bool :=
  decide (planeW p * sampleBytesOf p.format ≤ stride.toNat) &&
    decide ((base.toNat : Int) + ((planeH p : Int) - 1) * stride.toNat + planeW p * sampleBytesOf p.format ≤ 2 ^ 32)

/-- The source group of R282. -/
def sourceGroupOK (p : Params) : Bool := planeFits p.srcBase p.srcStride p

/-- The destination group of R282. -/
def destGroupOK (p : Params) : Bool := planeFits p.dstBase p.dstStride p

/-- The descriptors group of R282. -/
def descGroupOK (p : Params) : Bool := decide (p.descBase.toNat + 16 * cellCount p ≤ 2 ^ 32)

/-- GeometryOK (R282): the groups the table of R281 names for the command. -/
def geometryOK (i : Instr) (p : Params) : Bool :=
  match i with
  | .nop => true
  | .runUnit => unitGroupOK p && sourceGroupOK p && destGroupOK p
  | .runPlane => gridGroupOK p && sourceGroupOK p && destGroupOK p && descGroupOK p
  | .primRsr => true
  | .primClip3 => true
  | .primLut => true
  | .primBox3 => unitGroupOK p && sourceGroupOK p
  | .primBox5 => unitGroupOK p && sourceGroupOK p
  | .primSgrab _ => true

/-- R84 for one plane: base and stride are even when SB = 2. -/
def planeAligned (base stride : Word) (p : Params) : Bool :=
  sampleBytesOf p.format == 1 || (base.toNat % 2 == 0 && stride.toNat % 2 == 0)

/-- AlignOK (R84, R281). -/
def alignOK (i : Instr) (p : Params) : Bool :=
  match i with
  | .nop => true
  | .runUnit => planeAligned p.srcBase p.srcStride p && planeAligned p.dstBase p.dstStride p
  | .runPlane =>
    planeAligned p.srcBase p.srcStride p && planeAligned p.dstBase p.dstStride p && p.descBase.toNat % 4 == 0
  | .primRsr => true
  | .primClip3 => true
  | .primLut => true
  | .primBox3 => planeAligned p.srcBase p.srcStride p
  | .primBox5 => planeAligned p.srcBase p.srcStride p
  | .primSgrab _ => true

/-- The kind check of R281: only run.unit is checked at acceptance. -/
def kindOK (i : Instr) (p : Params) : Bool :=
  match i with
  | .runUnit => (filterKind? p.unitKind).isSome
  | .nop => true
  | .runPlane => true
  | .primRsr => true
  | .primClip3 => true
  | .primLut => true
  | .primBox3 => true
  | .primBox5 => true
  | .primSgrab _ => true

/-- The pass check of R281: the selected pass has radius 0 in the selected preset. -/
def passOK (i : Instr) (p : Params) : Bool :=
  match i with
  | .primSgrab pass => (presetOf (presetIndex p.sgrPreset)).radius pass != 0
  | .nop => true
  | .runUnit => true
  | .runPlane => true
  | .primRsr => true
  | .primClip3 => true
  | .primLut => true
  | .primBox3 => true
  | .primBox5 => true

/-- AcceptCheck for a legal command word (R281): the first failing check in the order of the codes. -/
def acceptCheck (i : Instr) (p : Params) : ErrCode :=
  if usesBitDepth i && (bitDepth? p.format).isNone then .badFormat
  else if !kindOK i p then .badKind
  else if !geometryOK i p then .badGeometry
  else if !alignOK i p then .misaligned
  else if !passOK i p then .passDisabled
  else .none

end Sys2Proof.Machine
end

