-- ==== Sys2Proof/Machine/Lifecycle.lean ====
section
/-! DEFINITION. Presenting a command to the dispatcher (R250, R251) and the endings of a running command (R252, R253). -/
namespace Sys2Proof.Machine

/-- A legal command word presented on CMD. While BUSY it is dropped (R251). While IDLE it is accepted: the snapshot is
taken, the acceptance checks run, and the command is rejected or becomes BUSY (R250). With no turn scheduled the block
then executes it to its end at once; otherwise it stays BUSY until the schedule gives the block its turn (R262, R319; log
entry 4). -/
def present (i : Instr) (body : State → Outcome) (s : State) : Outcome :=
  match s.fsm with
  | .busy _ => .next (dropCommand s)
  | .idle =>
    match acceptCheck i s.params with
    | .none =>
      if s.sched = [] then body (startCommand i (takeSnapshot (encode i) s))
      else .next (startCommand i (takeSnapshot (encode i) s))
    | e => .next (raiseError e (takeSnapshot (encode i) s))

/-- An illegal word presented on CMD: dropped while BUSY (R251), ILLEGAL_CMD at acceptance otherwise (R110, R281). -/
def presentIllegal (word : Word) (s : State) : State :=
  match s.fsm with
  | .busy _ => dropCommand s
  | .idle => raiseError .illegalCmd (takeSnapshot word s)

/-- A command whose effect is to write RESULT0 and RESULT1 completes (R252). -/
def completeWith (r0 r1 : Word) (s : State) : State := complete (setResults r0 r1 s)

/-- How the memory part of a command ended: with the error code, if any, that stopped it (R252, R253). -/
def finish (r : Option ErrCode × State) : State :=
  match r.1 with
  | none => complete r.2
  | some e => raiseError e r.2

end Sys2Proof.Machine
end

