-- ==== Sys2Proof/Machine/FixedPoint.lean ====
section
/-! DEFINITION. fixed_point_rounding_clamp_unit: `prim.rsr` (R134) and `prim.clip3` (R135). -/
namespace Sys2Proof.Machine

/-- The effect of a running `prim.rsr` (R134): v = sext_32(S.OPA), b = S.OPB[4:0]. -/
def performPrimRsr (s : State) : Outcome :=
  .next (completeWith (trunc32 (rsr s.snap.regs.opa.toInt (shiftCount s.snap.regs.opb))) 0#32 s)

/-- The effect of a running `prim.clip3` (R135): v, low, high = sext_32 of S.OPA, S.OPB, S.OPC. -/
def performPrimClip3 (s : State) : Outcome :=
  .next (completeWith (trunc32 (clip3 s.snap.regs.opa.toInt s.snap.regs.opb.toInt s.snap.regs.opc.toInt)) 0#32 s)

/-- `prim.rsr` presented on CMD (R134, R136). -/
def execPrimRsr (s : State) : Outcome := present .primRsr performPrimRsr s

/-- `prim.clip3` presented on CMD (R135, R136). -/
def execPrimClip3 (s : State) : Outcome := present .primClip3 performPrimClip3 s

end Sys2Proof.Machine
end

