-- ==== Sys2Proof/Machine/ReciprocalLut.lean ====
section
/-! DEFINITION. reciprocal_lut: `prim.lut` (R155). The table itself is in Machine/Tables.lean (R150). -/
namespace Sys2Proof.Machine

/-- The clamp of the index (R152, R155). -/
def lutIndex (zin : Nat) : Nat := min zin 255

/-- The effect of a running `prim.lut` (R155): RESULT0 = T[zi], RESULT1 = 256 - T[zi]. -/
def performPrimLut (s : State) : Outcome :=
  let t := recip (lutIndex s.snap.regs.opa.toNat)
  .next (completeWith (trunc32 t) (trunc32 (256 - (t : Int))) s)

/-- `prim.lut` presented on CMD (R155). -/
def execPrimLut (s : State) : Outcome := present .primLut performPrimLut s

end Sys2Proof.Machine
end

