-- ==== Sys2Proof/Machine/BoxSum.lean ====
section
/-! DEFINITION. box_sum_accumulator_3x3 and box_sum_accumulator_5x5: the box sums (R165), their separable form over a
sliding window of horizontal-sum rows (R166), `prim.box3` (R170) and `prim.box5` (R171). -/
namespace Sys2Proof.Machine

/-! ### Direct and separable sums -/

/-- `BoxSum_r(i, j)`, the direct double sum (R165). -/
def boxSum (f : Int → Int → Nat) (r : Nat) (i j : Int) : Nat :=
  sumNat (2 * r + 1) fun y => sumNat (2 * r + 1) fun x => f (i + y - r) (j + x - r)

/-- `BoxSq_r(i, j)`, the direct double sum of squares (R165). -/
def boxSq (f : Int → Int → Nat) (r : Nat) (i j : Int) : Nat :=
  sumNat (2 * r + 1) fun y => sumNat (2 * r + 1) fun x => f (i + y - r) (j + x - r) ^ 2

/-- `HSum_r(y, j)` and `HSq_r(y, j)` (R166). -/
def hEntry (f : Int → Int → Nat) (r : Nat) (y j : Int) : HEntry :=
  (sumNat (2 * r + 1) fun x => f y (j + x - r), sumNat (2 * r + 1) fun x => f y (j + x - r) ^ 2)

/-- The horizontal-sum row y for columns -1 to w (R166, R221). -/
def hRow (f : Int → Int → Nat) (r w : Nat) (y : Int) : List HEntry :=
  (List.range (w + 2)).map fun (c : Nat) => hEntry f r y ((c : Int) - 1)

/-- The vertical 1-D sum of one column of a window (R166). -/
def vEntry (win : List (List HEntry)) (c : Nat) : HEntry :=
  win.foldr (fun row acc => ((row.getD c (0, 0)).1 + acc.1, (row.getD c (0, 0)).2 + acc.2)) (0, 0)

/-- The window moves down one row: the new row enters and the oldest beyond k = 2r+1 rows is dropped (R166). -/
def slideWindow (r : Nat) (win : List (List HEntry)) (row : List HEntry) : List (List HEntry) :=
  (win ++ [row]).drop ((win ++ [row]).length - (2 * r + 1))

/-- The box sums of `n` centre rows from row `i` on, columns -1 to w, with the window after the last of them (R166). -/
def boxRows (f : Int → Int → Nat) (r w : Nat) : Nat → Int → List (List HEntry) →
    List (List HEntry) × List (List HEntry)
  | 0, _, win => ([], win)
  | n + 1, i, win =>
    let win' := slideWindow r win (hRow f r w (i + r))
    let rest := boxRows f r w n (i + 1) win'
    ((List.range (w + 2)).map (vEntry win') :: rest.1, rest.2)

/-- The 2r rows above the first window (R166, R221): rows -1-r to r-2. -/
def primeWindow (f : Int → Int → Nat) (r w : Nat) : List (List HEntry) :=
  (List.range (2 * r)).map fun (t : Nat) => hRow f r w ((t : Int) - 1 - r)

/-- The box sums of a unit over rows -1 to h and columns -1 to w, and the final window (R166, R221). -/
def boxSweep (f : Int → Int → Nat) (r w h : Nat) : List (List HEntry) × List (List HEntry) :=
  boxRows f r w (h + 2) (-1) (primeWindow f r w)

/-! ### The primitive commands -/

/-- The effect of a running box command of radius r (R170, R171). It reads the containers of its box and no others; a bus
error on one ends it with BUS_ERROR and the results unchanged (R286; log entry 9). If another agent changed the source
rows while it was BUSY (R97), the results are free values (log entry 12). -/
def performBox (i : Instr) (r : Nat) (s : State) : Outcome :=
  let p := s.snap.regs
  match bitDepth? p.format with
  | none => .next (raiseError .badFormat s)
  | some bd =>
    let u := unitOf p
    let row := hi16s p.opa
    let col := lo16s p.opa
    let f := src p bd u s.mem
    onOrdinaryMemory i s <|
      if touches .errorResponse (boxReads p bd u r row col) s.regions then .next (raiseError .busError s)
      else if s.taint.data then
        .next (completeWith (Config.looseResult s.draws 0) (Config.looseResult s.draws 1) (bumpDraws s))
      else .next (completeWith (trunc32 (boxSum f r row col)) (trunc32 (boxSq f r row col)) s)

/-- The effect of a running `prim.box3` (R170). -/
def performPrimBox3 (s : State) : Outcome := performBox .primBox3 1 s

/-- The effect of a running `prim.box5` (R171). -/
def performPrimBox5 (s : State) : Outcome := performBox .primBox5 2 s

/-- `prim.box3` presented on CMD (R170). -/
def execPrimBox3 (s : State) : Outcome := present .primBox3 performPrimBox3 s

/-- `prim.box5` presented on CMD (R171). -/
def execPrimBox5 (s : State) : Outcome := present .primBox5 performPrimBox5 s

end Sys2Proof.Machine
end

