-- ==== Sys2Proof/Machine/Sgr.lean ====
section
/-! DEFINITION. sgr_guided_filter_pipeline: the statistic stage (R216 to R222), the neighbour combinations (R223, R224),
the pass outputs (R225, R228), the blend (R229) and `prim.sgrab` (R233). -/
namespace Sys2Proof.Machine

/-- The box radius of a pass (R216). -/
def passRadius : Pass → Nat
  | .p0 => 2
  | .p1 => 1

/-- n = (2r+1)², the samples of a box (R217, R218). -/
def boxCount (r : Nat) : Nat := (2 * r + 1) ^ 2

/-- `one_over_n` (R217): 164 for n = 25 and 455 for n = 9. -/
def oneOver (n : Nat) : Nat := (2 ^ 12 + n / 2) / n

/-- The variance p of box statistics after bit-depth normalisation (R219, R220). -/
def sgrVariance (sum sumsq r : Nat) (bd : BitDepth) : Int :=
  let a := rsr sumsq (2 * (bd.bits - 8))
  let d := rsr sum (bd.bits - 8)
  max 0 (a * boxCount r - d * d)

/-- The index z into the reciprocal table (R152, R220). -/
def sgrIndex (sum sumsq r scale : Nat) (bd : BitDepth) : Nat :=
  (min (rsr (sgrVariance sum sumsq r bd * scale) 20) 255).toNat

/-- The table entry t = T[z] of a box (R218). -/
def sgrT (sum sumsq r scale : Nat) (bd : BitDepth) : Nat := recip (sgrIndex sum sumsq r scale bd)

/-- The offset b2 of a box (R222). -/
def sgrOffset (t sum r : Nat) : Int := rsr ((t : Int) * sum * oneOver (boxCount r)) 12

/-- SgrAB (R218): the multiplier a2 = 256 - t (R153) and the offset b2. -/
def sgrAB (sum sumsq r scale : Nat) (bd : BitDepth) : Int × Int :=
  let t := sgrT sum sumsq r scale bd
  (256 - (t : Int), sgrOffset t sum r)

/-- One buffer entry of a box statistic: T and b2 (R47, R221). -/
def abEntry (r scale : Nat) (bd : BitDepth) (e : HEntry) : AbEntry :=
  let t := sgrT e.1 e.2 r scale bd
  { t := BitVec.ofNat 8 t, b := BitVec.ofInt 20 (sgrOffset t e.1 r) }

/-- The buffer of a pass over rows -1 to h and columns -1 to w (R47, R221). -/
def abBuffer (r scale : Nat) (bd : BitDepth) (sums : List (List HEntry)) : List (List AbEntry) :=
  sums.map fun row => row.map (abEntry r scale bd)

/-- The buffer entry at row index k = i + 1 and column index c = j + 1 (R47). -/
def abAt (buf : List (List AbEntry)) (k c : Nat) : AbEntry := (buf.getD k []).getD c ⟨0#8, 0#20⟩

/-- `A_p[i][j]`, formed as 256 - T where it is used (R47, R153). -/
def aAt (buf : List (List AbEntry)) (k c : Nat) : Int := 256 - ((abAt buf k c).t.toNat : Int)

/-- `B_p[i][j]` (R47). -/
def bAt (buf : List (List AbEntry)) (k c : Nat) : Int := (abAt buf k c).b.toNat

/-- The 5-6-5 weights over dx = x - 1 (R223). -/
def weight565 (x : Nat) : Int := if x = 1 then 6 else 5

/-- The 3-4-3 and 4-4-4 weights over dy = y - 1, dx = x - 1 (R224). -/
def weight343 (y x : Nat) : Int := if x = 1 ∨ y = 1 then 4 else 3

/-- The pass-0 combination of a buffer plane at unit position (i, j); `odd` is the parity of the absolute row Y0 + i
(R223). -/
def combine0 (g : Nat → Nat → Int) (odd : Bool) (i j : Nat) : Int :=
  if odd then sumInt 3 fun x => weight565 x * g (i + 1) (j + x)
  else (sumInt 3 fun x => weight565 x * g i (j + x)) + sumInt 3 fun x => weight565 x * g (i + 2) (j + x)

/-- The pass-1 combination of a buffer plane at unit position (i, j) (R224). -/
def combine1 (g : Nat → Nat → Int) (i j : Nat) : Int :=
  sumInt 3 fun y => sumInt 3 fun x => weight343 y x * g (i + y) (j + x)

/-- shift0 by row parity (R223). -/
def shift0 (odd : Bool) : Nat := if odd then 4 else 5

/-- shift1 (R224). -/
def shift1 : Nat := 5

/-- The pass output `RSR(Acomb · U + Bcomb, 8 + shift - 4)` (R225). -/
def passOutput (acomb bcomb : Int) (sample : Nat) (shift : Nat) : Int :=
  rsr (acomb * sample + bcomb) (8 + shift - Config.sgrRstBits)

/-- F_0 at unit position (i, j) (R223, R225). -/
def f0At (buf : List (List AbEntry)) (odd : Bool) (sample : Nat) (i j : Nat) : Int :=
  passOutput (combine0 (aAt buf) odd i j) (combine0 (bAt buf) odd i j) sample (shift0 odd)

/-- F_1 at unit position (i, j) (R224, R225). -/
def f1At (buf : List (List AbEntry)) (sample : Nat) (i j : Nat) : Int :=
  passOutput (combine1 (aAt buf) i j) (combine1 (bAt buf) i j) sample shift1

/-- u, the scaled source sample (R226, R229). -/
def scaledSample (sample : Nat) : Int := (sample : Int) * 2 ^ Config.sgrRstBits

/-- The third weight w2 (R229), for a blend precision P (R7). -/
def thirdWeight (precision : Nat) (w0 w1 : Int) : Int := 2 ^ precision - w0 - w1

/-- The final blend (R229), for a blend precision P (R7, U17). -/
def blend (precision : Nat) (bd : BitDepth) (w0 w1 f0 u f1 : Int) : Int :=
  clip3 (rsr (w0 * f0 + w1 * u + thirdWeight precision w0 w1 * f1) (Config.sgrRstBits + precision)) 0 bd.pixMax

/-- The scratch buffers of an SGR unit: each enabled pass forms its statistics through its accumulator (R216, R221,
R232). The buffers of a disabled pass keep what they held. -/
def sgrScratch (q : Preset) (bd : BitDepth) (f : Int → Int → Nat) (w h : Nat) (sc : Scratch) : Scratch :=
  let sc0 :=
    if q.r0 = 0 then sc
    else
      let sweep := boxSweep f 2 w h
      { sc with sgr0 := abBuffer 2 q.scale0 bd sweep.1, win5 := sweep.2 }
  if q.r1 = 0 then sc0
  else
    let sweep := boxSweep f 1 w h
    { sc0 with sgr1 := abBuffer 1 q.scale1 bd sweep.1, win3 := sweep.2 }

/-- The destination sample at unit position (i, j) of a unit whose top row is y0 (R223 to R229); a disabled pass
contributes u (R228). -/
def sgrSample (q : Preset) (bd : BitDepth) (w0 w1 : Int) (f : Int → Int → Nat) (y0 : Nat) (sc : Scratch) (i j : Nat) :
    Int :=
  let sample := f i j
  let u := scaledSample sample
  let odd := (y0 + i) % 2 == 1
  let f0 := if q.r0 = 0 then u else f0At sc.sgr0 odd sample i j
  let f1 := if q.r1 = 0 then u else f1At sc.sgr1 sample i j
  blend Config.sgrProjBits bd w0 w1 f0 u f1

/-- The unit-relative source positions an SGR unit needs: its own samples, and the boxes of the statistics that a pass
with a weight other than 0 combines (R221 to R225, R229). -/
def sgrReads (q : Preset) (w0 w1 : Int) (u : UnitRect) : List (Int × Int) :=
  let box (r : Nat) (i j : Int) : List (Int × Int) :=
    (List.range (2 * r + 1)).flatMap fun (y : Nat) => (List.range (2 * r + 1)).map fun (x : Nat) =>
        (i + y - r, j + x - r)
  let rowBoxes (r : Nat) (i : Int) : List (Int × Int) :=
    (List.range (u.w + 2)).flatMap fun (c : Nat) => box r i ((c : Int) - 1)
  let own := (List.range u.h).flatMap fun (i : Nat) => (List.range u.w).map fun (j : Nat) => ((i : Int), (j : Int))
  let pass0 :=
    if q.r0 = 0 ∨ w0 = 0 then []
    else (List.range u.h).flatMap fun (i : Nat) =>
      if (u.y0 + i) % 2 = 1 then rowBoxes 2 i else rowBoxes 2 ((i : Int) - 1) ++ rowBoxes 2 ((i : Int) + 1)
  let pass1 :=
    if q.r1 = 0 ∨ thirdWeight Config.sgrProjBits w0 w1 = 0 then []
    else (List.range (u.h + 2)).flatMap fun (k : Nat) => rowBoxes 1 ((k : Int) - 1)
  own ++ pass0 ++ pass1

/-- The effect of a running `prim.sgrab` (R233): sum and sumsq are zext_32 of S.OPA and S.OPB. BD_CODE = 3 never
reaches execution (R281); a command that finds it ends with BAD_FORMAT (R27; log entry 22). -/
def performPrimSgrab (pass : Pass) (s : State) : Outcome :=
  let p := s.snap.regs
  match bitDepth? p.format with
  | none => .next (raiseError .badFormat s)
  | some bd =>
    let q := presetOf (presetIndex p.sgrPreset)
    let ab := sgrAB p.opa.toNat p.opb.toNat (passRadius pass) (q.scale pass) bd
    .next (completeWith (trunc32 ab.1) (trunc32 ab.2) s)

/-- `prim.sgrab` presented on CMD (R233). -/
def execPrimSgrab (pass : Pass) (s : State) : Outcome := present (.primSgrab pass) (performPrimSgrab pass) s

end Sys2Proof.Machine
end

