-- ==== Sys2Proof/Machine/Wiener.lean ====
section
/-! DEFINITION. The Wiener filter datapath: kernels (R185, R186), rounding parameters (R188, R189) and the two passes
through the 16-bit intermediate buffer (R190 to R194). -/
namespace Sys2Proof.Machine

/-- `E_d[k]`: the stored tap, or 0 where LZT forces it (R185). -/
def effectiveTap (w : Word) (k : Nat) : Int := if k < leadingZeroTaps w then 0 else storedTap w k

/-- The derived centre tap `F_d[3]` (R185). -/
def centreTap (w : Word) : Int :=
  2 ^ Config.wienerFilterBits - 2 * (effectiveTap w 0 + effectiveTap w 1 + effectiveTap w 2)

/-- The 7-tap kernel `F_d[t]` of a WIENER_H or WIENER_V layout (R185). -/
def kernel (w : Word) : Nat → Int
  | 0 => effectiveTap w 0
  | 1 => effectiveTap w 1
  | 2 => effectiveTap w 2
  | 3 => centreTap w
  | 4 => effectiveTap w 2
  | 5 => effectiveTap w 1
  | 6 => effectiveTap w 0
  | _ => 0

/-- RH (R188). -/
def BitDepth.roundH : BitDepth → Nat
  | .bd8 => 3
  | .bd10 => 3
  | .bd12 => 5

/-- RV (R188). -/
def BitDepth.roundV : BitDepth → Nat
  | .bd8 => 11
  | .bd10 => 11
  | .bd12 => 9

/-- The intermediate bias (R189). -/
def wienerOffset (bd : BitDepth) : Int := 2 ^ (bd.bits + Config.wienerFilterBits - bd.roundH - 1)

/-- The intermediate range limit (R189). -/
def wienerLimit (bd : BitDepth) : Int := 2 ^ (bd.bits + 1 + Config.wienerFilterBits - bd.roundH) - 1

/-- The horizontal sum at row r, column c (R190). -/
def wienerHSum (wh : Word) (f : Int → Int → Nat) (r c : Int) : Int :=
  sumInt 7 fun t => kernel wh t * (f r (c + t - 3) : Int)

/-- The intermediate value at row r, column c (R190). -/
def wienerInter (bd : BitDepth) (wh : Word) (f : Int → Int → Nat) (r c : Int) : Int :=
  clip3 (rsr (wienerHSum wh f r c) bd.roundH) (-wienerOffset bd) (wienerLimit bd - wienerOffset bd)

/-- One row of WI (R46, R190). -/
def wiRow (bd : BitDepth) (wh : Word) (f : Int → Int → Nat) (w : Nat) (r : Int) : List (BitVec 16) :=
  (List.range w).map fun (c : Nat) => BitVec.ofInt 16 (wienerInter bd wh f r c)

/-- The filled buffer WI, rows -3 to H+2: rows -2 to H+1 by R190, rows -3 and H+2 copies of their neighbours (R191). With
LZT_V >= 1 R191 leaves open whether the block forms those two rows; DESIGN CHOICE: it forms them for every LZT_V (log
entry 35). -/
def wiBuffer (bd : BitDepth) (wh : Word) (f : Int → Int → Nat) (w h : Nat) : List (List (BitVec 16)) :=
  wiRow bd wh f w (-2) :: ((List.range (h + 4)).map fun (k : Nat) => wiRow bd wh f w ((k : Int) - 2)) ++
    [wiRow bd wh f w ((h : Int) + 1)]

/-- `WI[r][c]` with row index k = r + 3 (R46). -/
def wiAt (wi : List (List (BitVec 16))) (k c : Nat) : Int := ((wi.getD k []).getD c 0#16).toInt

/-- The vertical sum over the buffer at unit row i, column c (R192). -/
def wienerVSum (wv : Word) (wi : List (List (BitVec 16))) (i c : Nat) : Int :=
  sumInt 7 fun t => kernel wv t * wiAt wi (i + t) c

/-- The destination sample at unit row i, column c (R192). -/
def wienerSample (bd : BitDepth) (wv : Word) (wi : List (List (BitVec 16))) (i c : Nat) : Int :=
  clip3 (rsr (wienerVSum wv wi i c) bd.roundV) 0 bd.pixMax

/-- The unit-relative source positions whose samples the two passes weigh with a tap other than 0 (R190, R192). -/
def wienerReads (wh wv : Word) (u : UnitRect) : List (Int × Int) :=
  (List.range u.h).flatMap fun (i : Nat) => ((List.range 7).filter fun t => kernel wv t != 0).flatMap fun (tv : Nat) =>
    (List.range u.w).flatMap fun (c : Nat) => ((List.range 7).filter fun t => kernel wh t != 0).map fun (th : Nat) =>
      ((i : Int) + tv - 3, (c : Int) + th - 3)

end Sys2Proof.Machine
end

