-- ==== Sys2Proof/Machine/Dispatcher.lean ====
section
/-! DEFINITION. restoration_unit_dispatcher: one unit through its filter (R193, R232, R255, R256), `nop` (R254),
`run.unit` (R255), `run.plane` (R257, R258), and the execution of a BUSY command. -/
namespace Sys2Proof.Machine

/-! ### One unit -/

/-- The scratch buffers and the destination samples of a unit, from the source window `f` (R193, R232, R256). -/
def unitResult (rec : UnitRecord) (bd : BitDepth) (u : UnitRect) (f : Int → Int → Nat) (sc : Scratch) :
    Scratch × (Nat → Nat → Int) :=
  match rec.kind with
  | .copy => (sc, fun i j => (f i j : Int))
  | .wiener =>
    let wi := wiBuffer bd rec.wienerH f u.w u.h
    ({ sc with wi := wi }, wienerSample bd rec.wienerV wi)
  | .selfGuided =>
    let q := presetOf rec.preset
    let sc' := sgrScratch q bd f u.w u.h sc
    (sc', sgrSample q bd (lo16s rec.mult) (hi16s rec.mult) f u.y0 sc')

/-- The unit-relative source positions a unit needs (log entry 9). -/
def unitReads (rec : UnitRecord) (u : UnitRect) : List (Int × Int) :=
  match rec.kind with
  | .copy => (List.range u.h).flatMap fun (i : Nat) => (List.range u.w).map fun (j : Nat) => ((i : Int), (j : Int))
  | .wiener => wienerReads rec.wienerH rec.wienerV u
  | .selfGuided => sgrReads (presetOf rec.preset) (lo16s rec.mult) (hi16s rec.mult) u

/-- The accesses a unit cannot do without: the source containers it needs and every destination container (R82). -/
def requiredSpans (rec : UnitRecord) (p : Params) (bd : BitDepth) (u : UnitRect) : List Span :=
  ((unitReads rec u).map fun ij => ⟨srcAddr p bd u ij.1 ij.2, bd.sampleBytes⟩) ++ unitDest p bd u

/-- The k bytes from an address as free values (U2, U3). -/
def looseBytes (draw addr k : Nat) : List Byte := (List.range k).map fun t => Config.looseByte draw (addr + t)

/-- Container writes whose contents are unpredictable: the same containers, any value (R96, R97; log entry 8). -/
def loosen (draw : Nat) (stores : List Store) : List Store :=
  stores.map fun st => { st with bytes := looseBytes draw st.addr st.bytes.length }

/-- A unit meets an error response: on an access it cannot do without, or on a source read it may but need not perform
(R81, R256, R286; log entry 9). -/
def unitFails (rec : UnitRecord) (p : Params) (bd : BitDepth) (u : UnitRect) (s : State) : Bool :=
  touches .errorResponse (requiredSpans rec p bd u) s.regions ||
    (touches .errorResponse (unitWindow rec.kind p bd u) s.regions && Config.optionalReadFails s.draws)

/-- The container writes of a unit whose rules hold (R82), or with any contents where the aliasing rule is broken
(`loose`): free values of the draw fixed at acceptance, so that a host read while BUSY that returns the new value returns
the one written here (R97; log entry 37). -/
def unitWrites (rec : UnitRecord) (p : Params) (bd : BitDepth) (u : UnitRect) (loose : Bool) (s : State) : List Store :=
  let stores := unitStores p bd u (unitResult rec bd u (src p bd u s.mem) s.scratch).2
  if loose then loosen s.start.draw stores else stores

/-- The unit takes a free value. -/
def unitDraws (rec : UnitRecord) (p : Params) (bd : BitDepth) (u : UnitRect) (loose fails : Bool) (s : State) : Bool :=
  loose || fails || touches .errorResponse (unitWindow rec.kind p bd u) s.regions

/-- One unit through its filter; `failed` says that a descriptor word of its cell gets an error response. It writes every
destination container once and nothing else (R82); on a bus error each container holds its old or its new value, as a
free value says (R253, R286, U18; log entries 6 and 33). -/
def filterUnit (rec : UnitRecord) (p : Params) (bd : BitDepth) (u : UnitRect) (loose failed : Bool) (s : State) :
    Option ErrCode × State :=
  let fails := failed || unitFails rec p bd u s
  let writes := unitWrites rec p bd u loose s
  let landedWrites := if fails then writes.filter fun st => Config.landed s.draws st.addr else writes
  (if fails then some .busError else none,
    { s with
      scratch := (unitResult rec bd u (src p bd u s.mem) s.scratch).1
      mem := s.mem.writeStores landedWrites
      draws := if unitDraws rec p bd u loose fails s then s.draws + 1 else s.draws })

/-! ### A command whose concurrency rule is broken -/

/-- The destination containers of a command as writes of free values, over all its units (R97, U3). -/
def looseDest (draw : Nat) (i : Instr) (p : Params) (bd : BitDepth) : List Store :=
  (destCells i p).flatMap fun u => loosen draw (unitStores p bd u fun _ _ => 0)

/-- The end of a command: where another agent has broken R97 while it ran, every destination container of the command
holds a free value of the draw fixed at acceptance, whatever it wrote before (R97, U3; log entries 8 and 37). -/
def spoil (i : Instr) (p : Params) (bd : BitDepth) (s : State) : State :=
  if s.taint.any then { s with mem := s.mem.writeStores (looseDest s.start.draw i p bd), draws := s.draws + 1 } else s

/-! ### run.unit -/

/-- The record run.unit uses (R255). -/
def snapshotRecord (p : Params) (kind : FilterKind) : UnitRecord :=
  { kind := kind, wienerH := p.wienerH, wienerV := p.wienerV, preset := presetIndex p.sgrPreset, mult := p.sgrMult }

/-- The effect of a running `run.unit` (R255). BD_CODE = 3 and KIND = 3 never reach execution (R281); a command that
finds one ends with BAD_FORMAT or BAD_KIND (R27, R35; log entry 22). -/
def performRunUnit (s : State) : Outcome :=
  let p := s.snap.regs
  match bitDepth? p.format with
  | none => .next (raiseError .badFormat s)
  | some bd =>
    match filterKind? p.unitKind with
    | none => .next (raiseError .badKind s)
    | some kind =>
      let r := filterUnit (snapshotRecord p kind) p bd (unitOf p) (aliased .runUnit p) false s
      onOrdinaryMemory .runUnit s (.next (finish (r.1, spoil .runUnit p bd r.2)))

/-! ### run.plane -/

/-- The address of word m of the descriptor of cell k (R102). -/
def descAddr (p : Params) (k m : Nat) : Nat := p.descBase.toNat + 16 * k + 4 * m

/-- Word m of the descriptor of cell k (R102, R258); a free value where another agent changed the descriptors while the
command ran (R94, R97; log entry 11). -/
def descWord (p : Params) (k m : Nat) (s : State) : Word :=
  if s.taint.desc then Config.looseWord s.draws m else BitVec.ofNat 32 (s.mem.readLE (descAddr p k m) 4)

/-- The record of a descriptor (R102, R258). -/
def descRecord (p : Params) (k : Nat) (kind : FilterKind) (s : State) : UnitRecord :=
  { kind := kind
    wienerH := descWord p k 1 s
    wienerV := descWord p k 2 s
    preset := descPresetIndex (descWord p k 0 s)
    mult := descWord p k 3 s }

/-- Reading the descriptor of cell k: a bus error on word 0 (R286), BAD_KIND (R258), or its record and whether one of
words 1 to 3 gets an error response, which the cell may meet before or after any of its own accesses (R89). With KIND = 3
and a bus error on words 1 to 3, which comes first is a free value (R288 item 2; log entry 10). -/
def readDescriptor (p : Params) (k : Nat) (s : State) : Except ErrCode (UnitRecord × Bool) :=
  let tail := touches .errorResponse [⟨descAddr p k 1, 12⟩] s.regions
  if touches .errorResponse [⟨descAddr p k 0, 4⟩] s.regions then .error .busError
  else
    match filterKind? (descWord p k 0 s) with
    | none => if tail && Config.descErrorFirst s.draws then .error .busError else .error .badKind
    | some kind => .ok (descRecord p k kind s, tail)

/-- The draw counter after a descriptor read: a tainted or partly failing descriptor takes a free value. -/
def afterDescriptor (p : Params) (k : Nat) (s : State) : State :=
  if s.taint.desc || touches .errorResponse [⟨descAddr p k 1, 12⟩] s.regions then bumpDraws s else s

/-- The cells of run.plane in raster order from cell k on: the error that stopped them, if any, the number of cells
completed, and the state (R258). Every access of a cell happens before every access of the next (R89). -/
def runCells (p : Params) (bd : BitDepth) (loose : Bool) : Nat → List UnitRect → State → Option ErrCode × Nat × State
  | k, [], s => (none, k, s)
  | k, u :: us, s =>
    match readDescriptor p k s with
    | .error e => (some e, k, afterDescriptor p k s)
    | .ok (rec, failed) =>
      let r := filterUnit rec p bd u loose failed (afterDescriptor p k s)
      match r.1 with
      | some e => (some e, k, r.2)
      | none => runCells p bd loose (k + 1) us r.2

/-- The end of run.plane: RESULT0 and RESULT1 are the cells completed and N, with or without an error (R253, R258). -/
def finishPlane (p : Params) (bd : BitDepth) (r : Option ErrCode × Nat × State) : State :=
  finish (r.1, spoil .runPlane p bd (setResults (trunc32 r.2.1) (trunc32 (cellCount p)) r.2.2))

/-- The effect of a running `run.plane`, from the first cell that is not yet complete (R258). -/
def performRunPlane (s : State) : Outcome :=
  let p := s.snap.regs
  match bitDepth? p.format with
  | none => .next (raiseError .badFormat s)
  | some bd =>
    onOrdinaryMemory .runPlane s <|
      .next (finishPlane p bd (runCells p bd (aliased .runPlane p) s.progress ((gridCells p).drop s.progress) s))

/-- After one cell: the command goes on with the next one, or ends with the cell's error (R253, R258). -/
def afterCell (p : Params) (bd : BitDepth) (r : Option ErrCode × Nat × State) : State :=
  match r.1 with
  | none => { r.2.2 with progress := r.2.1 }
  | some _ => finishPlane p bd r

/-- The next cell of a running `run.plane`, if one is left (R89, R258; log entry 28). -/
def performCell (s : State) : Outcome :=
  let p := s.snap.regs
  match bitDepth? p.format with
  | none => .next s
  | some bd =>
    match (gridCells p)[s.progress]? with
    | none => .next s
    | some u =>
      onOrdinaryMemory .runPlane s (.next (afterCell p bd (runCells p bd (aliased .runPlane p) s.progress [u] s)))

/-! ### nop, and the meanings presented on CMD -/

/-- The effect of a running `nop`: completion only (R254). -/
def performNop (s : State) : Outcome := .next (complete s)

/-- `nop` presented on CMD (R254). -/
def execNop (s : State) : Outcome := present .nop performNop s

/-- `run.unit` presented on CMD (R255). -/
def execRunUnit (s : State) : Outcome := present .runUnit performRunUnit s

/-- `run.plane` presented on CMD (R258). -/
def execRunPlane (s : State) : Outcome := present .runPlane performRunPlane s

/-- The block executes a command it has accepted, to its end (R252, R253). -/
def perform (i : Instr) (s : State) : Outcome :=
  match i with
  | .nop => performNop s
  | .runUnit => performRunUnit s
  | .runPlane => performRunPlane s
  | .primRsr => performPrimRsr s
  | .primClip3 => performPrimClip3 s
  | .primLut => performPrimLut s
  | .primBox3 => performPrimBox3 s
  | .primBox5 => performPrimBox5 s
  | .primSgrab pass => performPrimSgrab pass s

end Sys2Proof.Machine
end

