-- ==== Sys2Proof/Machine/Dispatch.lean ====
section
/-! DEFINITION. The meaning of every command presented on CMD (R101, R250, R251), one arm per constructor. -/
namespace Sys2Proof.Machine

def exec (i : Instr) (s : State) : Host.Outcome State Fault Refusal :=
  match i with
  | .nop => Sys2Proof.Machine.execNop s
  | .runUnit => Sys2Proof.Machine.execRunUnit s
  | .runPlane => Sys2Proof.Machine.execRunPlane s
  | .primRsr => Sys2Proof.Machine.execPrimRsr s
  | .primClip3 => Sys2Proof.Machine.execPrimClip3 s
  | .primLut => Sys2Proof.Machine.execPrimLut s
  | .primBox3 => Sys2Proof.Machine.execPrimBox3 s
  | .primBox5 => Sys2Proof.Machine.execPrimBox5 s
  | .primSgrab pass => Sys2Proof.Machine.execPrimSgrab pass s

end Sys2Proof.Machine
end

