-- ==== Sys2Proof/Machine/Bus.lean ====
section
/-! DEFINITION. Bus transactions: the register window as the host writes it (R21, R24, R77), reset and the abandonment of a
running command (R310, R311), and the accesses of the host and of other agents to sample memory (R97, R114). -/
namespace Sys2Proof.Machine

/-! ### Writes of a running command that may be under way -/

/-- The writes a BUSY command may have issued and that memory does not show yet: those of its unit, or of the cell run.plane
is at, with the values the filter rule gives (R82, R89); after a breach of R97, free values in every destination
container (U3). What stops the command later, or a cell it has not reached, adds none. -/
def pendingStores (i : Instr) (s : State) : List Store :=
  let p := s.snap.regs
  match bitDepth? p.format with
  | none => []
  | some bd =>
    if s.taint.any then looseDest s.start.draw i p bd
    else
      match i with
      | .nop => []
      | .runUnit =>
        match filterKind? p.unitKind with
        | none => []
        | some kind => unitWrites (snapshotRecord p kind) p bd (unitOf p) (aliased .runUnit p) s
      | .runPlane =>
        match (gridCells p)[s.progress]? with
        | none => []
        | some u =>
          match readDescriptor p s.progress s with
          | .error _ => []
          | .ok (rec, _) => unitWrites rec p bd u (aliased .runPlane p) s
      | .primRsr => []
      | .primClip3 => []
      | .primLut => []
      | .primBox3 => []
      | .primBox5 => []
      | .primSgrab _ => []

/-! ### Reset and abandonment -/

/-- Abandon the running command (R311): the block issues no further access; each container of the unit or cell it is at
holds its old or its new value, as a free value says (log entry 6), and a write not yet performed may still complete (log
entry 29). Earlier cells of run.plane are complete and later ones untouched (R89). -/
def abandon (i : Instr) (s : State) : State :=
  let writes := pendingStores i s
  { s with
    mem := s.mem.writeStores (writes.filter fun st => Config.landed s.draws st.addr)
    inFlight := s.inFlight ++ writes.filter fun st => !Config.landed s.draws st.addr
    draws := s.draws + 1 }

/-- Hardware reset (R310) and soft reset (R311): a running command is abandoned and every register takes its reset
value. A command on device memory has no result to abandon (U9). -/
def reset (s : State) : Outcome :=
  match s.fsm with
  | .idle => .next (resetBlock s)
  | .busy i => onOrdinaryMemory i s (.next (resetBlock (abandon i s)))

/-! ### The register window -/

/-- A word written to CMD: presented to the dispatcher (R26, R250, R251). -/
def presentWord (word : Word) (s : State) : Outcome :=
  match decode word with
  | .ok i => exec i s
  | .error _ => .next (presentIllegal word s)

/-- A write of CTRL: SOFT_RESET = 1 resets the block whatever bit 0 of the value is (R24, R311). -/
def writeCtrl (v : Word) (s : State) : Outcome :=
  if v.getLsbD 1 then reset s else .next (writeReg .ctrl v s)

/-- A host write of the register window (R21, R77): reserved offsets ignore it; an access that is not an aligned word
gets an error response (U15). -/
def busWrite (width : Width) (off : BitVec 8) (v : Word) (s : State) : Outcome :=
  if registerAccessOk width off then
    match Reg.ofOffset? off.toNat with
    | none => .next s
    | some .cmd => presentWord v s
    | some .ctrl => writeCtrl v s
    | some r => .next (writeReg r v s)
  else .fault .hostBusError

/-- What a host read of the register window returns: 0 for a reserved offset (R21, R77). -/
def busReadValue (off : BitVec 8) (s : State) : Word :=
  match Reg.ofOffset? off.toNat with
  | none => 0#32
  | some r => readReg r s

/-! ### Where the window sits on the host bus (R76) -/

/-- The bus address of a register offset: REG_BASE + offset (R4, R76). -/
def regAddress (off : BitVec 8) (s : State) : Nat := s.regBase + off.toNat

/-- The offset of the register window a bus address selects; none outside its 256 bytes (R70, R76). -/
def windowOffset? (addr : Nat) (s : State) : Option (BitVec 8) :=
  if s.regBase ≤ addr ∧ addr < s.regBase + 256 then some (BitVec.ofNat 8 (addr - s.regBase)) else none

/-- A host write at a bus address of the register window. No host statement of R114 names an address outside the
window; nothing answers there. -/
def busWriteAt (width : Width) (addr : Nat) (v : Word) (s : State) : Outcome :=
  match windowOffset? addr s with
  | some off => busWrite width off v s
  | none => .fault .hostBusError

/-- A host read at a bus address of the register window (R77): the value, with the unchanged state, handed on. -/
def busReadAt (width : Width) (addr : Nat) (s : State) (next : Word → Outcome) : Outcome :=
  match windowOffset? addr s with
  | some off => if registerAccessOk width off then next (busReadValue off s) else .fault .hostBusError
  | none => .fault .hostBusError

/-! ### Sample memory as other agents see it -/

/-- The size of sample memory (R70). -/
def memorySize : Nat := 2 ^ 32

/-- Some range of the list holds a byte of `len` bytes from `a`. -/
def spansHit (spans : List Span) (a len : Nat) : Bool := spans.any (Span.meets ⟨a, len⟩)

/-- What writing `len` bytes from `a` breaks of R97 for a running command. -/
def taintBy (i : Instr) (p : Params) (a len : Nat) (t : Taint) : Taint :=
  { data := t.data || spansHit (guardedRows i p ++ destSpans i p) a len
    desc := t.desc || spansHit (descSpans i p) a len }

/-- Another agent stores bytes: sample memory takes them, and the running command's rule of R97 may be broken. The spec does
not say what such a store does in an error-response or device region; DESIGN CHOICE: it lands like any other (log
entry 32). -/
def agentStore (a : Nat) (bytes : List Byte) (s : State) : State :=
  { s with
    mem := s.mem.writeBytes a bytes
    taint :=
      match s.fsm with
      | .idle => s.taint
      | .busy i => taintBy i s.snap.regs a bytes.length s.taint }

/-- Whether the host may access these bytes: they exist (R70), get no error response (D46) and are ordinary memory
(R87). -/
def hostAccess (a len : Nat) (s : State) (next : Outcome) : Outcome :=
  if memorySize < a + len then .fault .addressRange
  else if touches .errorResponse [⟨a, len⟩] s.regions then .fault .hostBusError
  else if touches .device [⟨a, len⟩] s.regions then .refused .deviceMemory
  else next

/-- The container size of a command (R6). -/
def containerSize (p : Params) : Nat := sampleBytesOf p.format

/-- The first byte of the container a destination byte lies in (R86); container addresses are even when SB = 2
(R83). -/
def containerBase (p : Params) (a : Nat) : Nat := a - a % containerSize p

/-- What a host load of bytes from `a` reads where each container gives its value in memory `old` or in memory `new`, as a
free value says (R97; log entry 7). -/
def raceReadLE (p : Params) (draw : Nat) (old new : Memory) : Nat → Nat → Nat
  | _, 0 => 0
  | a, n + 1 =>
    let m := if Config.raceRead draw (containerBase p a) then new else old
    (m.read a).toNat + 256 * raceReadLE p draw old new (a + 1) n

/-- Memory with the bytes of these ranges as another memory has them. -/
def restoreSpans (old : Memory) (spans : List Span) (m : Memory) : Memory :=
  m.writeStores (spans.map fun sp => ⟨sp.start, (List.range sp.len).map fun k => old.read (sp.start + k)⟩)

/-- Sample memory as a host read of a BUSY command's destination may still find it: each container not yet written holds
its value before the command, also where another agent has written it since (R97); after a breach of R97 no container
counts as written (U3). -/
def beforeMem (i : Instr) (s : State) : Memory :=
  if s.taint.any then restoreSpans s.start.mem (destSpans i s.snap.regs) s.mem else s.mem

/-- A host load: the value, with the state after it, handed on (R114). While a command is BUSY a destination container
gives the value before the command or the one the command writes, and never a third; cells of run.plane change in order
(R89, R97). -/
def hostLoad (a len : Nat) (s : State) (next : Nat → State → Outcome) : Outcome :=
  match s.fsm with
  | .idle => next (s.mem.readLE a len) s
  | .busy i =>
    if spansHit (destSpans i s.snap.regs) a len then
      onOrdinaryMemory i s <|
        next (raceReadLE s.snap.regs s.draws (beforeMem i s) ((beforeMem i s).writeStores (pendingStores i s)) a len)
          (bumpDraws s)
    else next (s.mem.readLE a len) s

end Sys2Proof.Machine
end

