-- ==== Sys2Proof/Machine/HostTurn.lean ====
section
/-! DEFINITION. What each agent does in its turn: the host's statements (R114), the block, other agents, late landings and
hardware reset. -/
namespace Sys2Proof.Machine

/-- The value bound to a name (R114). -/
def lookupName (names : List (Nat × Word)) (n : Nat) : Option Word :=
  match names with
  | [] => none
  | b :: bs => if b.1 = n then some b.2 else lookupName bs n

/-- Bind a name, in place of an earlier binding (R114). -/
def bindName (n : Nat) (v : Word) (s : State) : State :=
  { s with host := { s.host with names := (n, v) :: s.host.names.filter fun b => b.1 != n } }

/-- The value of an operand (R114). -/
def operandValue (o : HostOperand) (s : State) : Option Word :=
  match o with
  | .const v => some v
  | .name n => lookupName s.host.names n

/-- Use the value of an operand, or stop: its name is not bound (R114). -/
def withOperand (o : HostOperand) (s : State) (next : Word → Outcome) : Outcome :=
  match operandValue o s with
  | some v => next v
  | none => .fault .unboundName

/-- The host moves to a statement. -/
def jumpTo (pc : Nat) (s : State) : State := { s with host := { s.host with pc := pc } }

/-- The host moves past the statement it performs. -/
def advanceHost (s : State) : State := jumpTo (s.host.pc + 1) s

/-- `poll` after its register read gave `v`: done when `(v & mask) == value`, else it is repeated (R114). -/
def pollResult (v mask value : Word) (s : State) : State := if v &&& mask = value then advanceHost s else s

/-- One host statement (R114). A statement that completes leaves the host past it, but for an unsatisfied poll and a
taken branch. -/
def hostStmt (st : HostStmt) (s : State) : Outcome :=
  match st with
  | .wr width off o => withOperand o s fun v => busWriteAt width (regAddress off s) v (advanceHost s)
  | .rd width off n =>
    busReadAt width (regAddress off s) s fun v => .next (bindName n v (advanceHost s))
  | .poll off mask value =>
    withOperand mask s fun m => withOperand value s fun v =>
      busReadAt .w32 (regAddress off s) s fun r => .next (pollResult r m v s)
  | .memW width addr o =>
    withOperand addr s fun a => withOperand o s fun v =>
      hostAccess a.toNat width.bytes s (.next (agentStore a.toNat (leBytes width.bytes v.toNat) (advanceHost s)))
  | .memR width addr n =>
    withOperand addr s fun a =>
      hostAccess a.toNat width.bytes s <|
        hostLoad a.toNat width.bytes s fun v t => .next (bindName n (BitVec.ofNat 32 v) (advanceHost t))
  | .b target => .next (jumpTo target s)
  | .bnz n target =>
    withOperand (.name n) s fun v => .next (if v = 0#32 then advanceHost s else jumpTo target s)

/-- The host's turn: its next statement; past the end of its program it does nothing. -/
def hostTurn (s : State) : Outcome :=
  match s.host.prog[s.host.pc]? with
  | none => .next s
  | some st => hostStmt st s

/-- The block's turn: a BUSY block executes its command to its end (R252, R253); an IDLE block waits (R297). -/
def blockTurn (s : State) : Outcome :=
  match s.fsm with
  | .idle => .next s
  | .busy i => perform i s

/-- A cell turn: a block BUSY with run.plane executes its next cell; any other command has none (R89, R258; log entry
28). -/
def cellTurn (s : State) : Outcome := if s.fsm = .busy .runPlane then performCell s else .next s

/-- A write an abandoned command left in flight completes (R311 item 2). A command running by then did not issue it, so
it counts as another agent's store (R97; log entry 29). -/
def landTurn (n : Nat) (s : State) : State :=
  match s.inFlight[n]? with
  | none => s
  | some st => agentStore st.addr st.bytes { s with inFlight := s.inFlight.eraseIdx n }

/-- One turn of the schedule (log entry 4). -/
def takeTurn (t : Turn) (s : State) : Outcome :=
  match t with
  | .host => hostTurn s
  | .block => blockTurn s
  | .cell => cellTurn s
  | .reset => reset s
  | .agent a v => .next (agentStore a.toNat [v] s)
  | .land n => .next (landTurn n s)

/-- With nothing scheduled a BUSY block moves first, otherwise the host does (R262, R319; log entry 4). -/
def defaultTurn (s : State) : Turn := if s.isBusy then .block else .host

/-- The host program that writes one word to CMD (R115, `cmd m`). -/
def cmdProgram (word : Word) : List HostStmt := [.wr .w32 0x10#8 (.const word)]

/-- The state with a CMD write of this word as the host's next statement, and the host's turn as the next turn (log
entry 16). -/
def placeCommand (word : Word) (s : State) : State :=
  { s with host := { s.host with prog := cmdProgram word, pc := 0 }, sched := [.host] }

end Sys2Proof.Machine
end

