-- ==== Sys2Proof/Machine/Step.lean ====
section
/-! DEFINITION. One step of the machine: one turn of the schedule. -/
namespace Sys2Proof.Machine

/-- One step: the next scheduled turn, or the default turn where none is scheduled. -/
def step (s : State) : Host.Outcome State Fault Refusal :=
  match s.sched with
  | [] => takeTurn (defaultTurn s) s
  | t :: rest => takeTurn t { s with sched := rest }

/-- The state whose next step presents this table word on CMD (log entry 16). -/
def State.withFetchWord (s : State) (nbits w : Nat) : State :=
  placeCommand (BitVec.ofNat 32 (w % 2 ^ nbits)) s

end Sys2Proof.Machine
end

