-- ==== Sys2Proof/Machine/Assembler.lean ====
section
/-! DEFINITION. Command mnemonics (R113), the packing helpers (R104) and the pseudo-instructions of host programs with their
expansions (R115). -/
namespace Sys2Proof.Machine

/-! ### Mnemonics (R113) -/

/-- The mnemonic of a command, with the PASS operand of `prim.sgrab`. -/
def mnemonic : Instr → String
  | .nop => "nop"
  | .runUnit => "run.unit"
  | .runPlane => "run.plane"
  | .primRsr => "prim.rsr"
  | .primClip3 => "prim.clip3"
  | .primLut => "prim.lut"
  | .primBox3 => "prim.box3"
  | .primBox5 => "prim.box5"
  | .primSgrab .p0 => "prim.sgrab p0"
  | .primSgrab .p1 => "prim.sgrab p1"

/-- Every command (R101). -/
def allCommands : List Instr :=
  [.nop, .runUnit, .runPlane, .primRsr, .primClip3, .primLut, .primBox3, .primBox5, .primSgrab .p0, .primSgrab .p1]

/-- The command a mnemonic names (R113). -/
def commandNamed (name : String) : Option Instr := allCommands.find? fun i => mnemonic i == name

/-! ### Packing helpers (R104) -/

/-- `pack_xy(x, y)`: UNIT_POS, UNIT_SIZE, PLANE_SIZE, UNIT_GRID. -/
def packXY (x y : BitVec 16) : Word := y.setWidth 32 <<< 16 ||| x.setWidth 32

/-- `pack_wiener(c0, c1, c2, l)`. -/
def packWiener (c0 c1 c2 : Int) (l : BitVec 2) : Word :=
  l.setWidth 32 <<< 24 ||| (BitVec.ofInt 8 c2).setWidth 32 <<< 16 ||| (BitVec.ofInt 8 c1).setWidth 32 <<< 8 |||
    (BitVec.ofInt 8 c0).setWidth 32

/-- `pack_mult(w0, w1)`. -/
def packMult (w0 w1 : Int) : Word :=
  (BitVec.ofInt 16 w1).setWidth 32 <<< 16 ||| (BitVec.ofInt 16 w0).setWidth 32

/-- `pack_box_pos(i, j)`. -/
def packBoxPos (i j : Int) : Word :=
  (BitVec.ofInt 16 i).setWidth 32 <<< 16 ||| (BitVec.ofInt 16 j).setWidth 32

/-! ### Pseudo-instructions (R115) -/

/-- The pseudo-instructions of R115. -/
inductive Pseudo where
  | cmd (m : Instr)
  | wait
  | run (m : Instr)
  | ack
  | plane (pw ph : BitVec 16)
  | unit (x0 y0 w h : BitVec 16)
  | wienerH (c0 c1 c2 : Int) (lzt : BitVec 2)
  | wienerV (c0 c1 c2 : Int) (lzt : BitVec 2)
  | sgr (preset : BitVec 4) (w0 w1 : Int)
  deriving DecidableEq, Repr

/-- `wr REG, value` with a constant value (R114). -/
def wrConst (off : BitVec 8) (v : Word) : HostStmt := .wr .w32 off (.const v)

/-- `poll STATUS, 0x2, 0x2` (R115). -/
def waitStmt : HostStmt := .poll 0x0C#8 (.const 2#32) (.const 2#32)

/-- The expansion of a pseudo-instruction (R115). -/
def Pseudo.expand : Pseudo → List HostStmt
  | .cmd m => [wrConst 0x10#8 (encode m)]
  | .wait => [waitStmt]
  | .run m => [wrConst 0x10#8 (encode m), waitStmt]
  | .ack => [wrConst 0x0C#8 0xE#32]
  | .plane pw ph => [wrConst 0x18#8 (packXY pw ph)]
  | .unit x0 y0 w h => [wrConst 0x1C#8 (packXY x0 y0), wrConst 0x20#8 (packXY w h)]
  | .wienerH c0 c1 c2 lzt => [wrConst 0x38#8 (packWiener c0 c1 c2 lzt)]
  | .wienerV c0 c1 c2 lzt => [wrConst 0x3C#8 (packWiener c0 c1 c2 lzt)]
  | .sgr preset w0 w1 => [wrConst 0x40#8 (preset.setWidth 32), wrConst 0x44#8 (packMult w0 w1)]

end Sys2Proof.Machine
end

