-- ==== Sys2Proof/Safety.lean ====
section
/-! DEFINITION. The terms claims use: the machine invariant, the destination bytes of a command, the contract ranges, and
the filters as the rules write them, without buffers. -/
namespace Sys2Proof.Machine

/-! ### Destination bytes (R82) -/

/-- The byte at `a` lies in a destination container of the unit: the container of `Dst(i, j)` starts at `dstAddr`. -/
def unitDestByte (p : Params) (bd : BitDepth) (u : UnitRect) (a : Nat) : Prop :=
  ∃ i j, i < u.h ∧ j < u.w ∧ dstAddr p bd u i j ≤ a ∧ a < dstAddr p bd u i j + bd.sampleBytes

/-- The byte at `a` lies in a destination container of the command (R82, R258, R259). -/
def destByte (i : Instr) (p : Params) (a : Nat) : Prop :=
  match i with
  | .runUnit => ∃ bd, bitDepth? p.format = some bd ∧ unitDestByte p bd (unitOf p) a
  | .runPlane => ∃ bd, bitDepth? p.format = some bd ∧ ∃ u ∈ gridCells p, unitDestByte p bd u a
  | .nop => False
  | .primRsr => False
  | .primClip3 => False
  | .primLut => False
  | .primBox3 => False
  | .primBox5 => False
  | .primSgrab _ => False

/-- A destination container of the command starts at `a` (R82). -/
def destContainer (i : Instr) (p : Params) (a : Nat) : Prop :=
  match i with
  | .runUnit => ∃ bd, bitDepth? p.format = some bd ∧
      ∃ r c, r < (unitOf p).h ∧ c < (unitOf p).w ∧ a = dstAddr p bd (unitOf p) r c
  | .runPlane => ∃ bd, bitDepth? p.format = some bd ∧
      ∃ u ∈ gridCells p, ∃ r c, r < u.h ∧ c < u.w ∧ a = dstAddr p bd u r c
  | .nop => False
  | .primRsr => False
  | .primClip3 => False
  | .primLut => False
  | .primBox3 => False
  | .primBox5 => False
  | .primSgrab _ => False

/-! ### The invariant -/

/-- Reserved bits of the parameter registers read as 0 (R21, R111). -/
def Params.reservedZero (p : Params) : Prop :=
  p.format &&& ~~~formatMask = 0#32 ∧ p.unitKind &&& ~~~unitKindMask = 0#32 ∧ p.wienerH &&& ~~~wienerMask = 0#32 ∧
    p.wienerV &&& ~~~wienerMask = 0#32 ∧ p.sgrPreset &&& ~~~sgrPresetMask = 0#32

/-- Every listed byte of memory exists (R70). -/
def Memory.bounded (m : Memory) : Prop := ∀ c ∈ m, c.1 < memorySize

/-- What every reachable state has: sample memory in canonical form and inside its 2^32 bytes; reserved bits 0 in the
registers (R21) and in S, which copies them (R44), while IDLE by the model's choice (U6; log entries 2, 26 and 36);
ERR_CODE is 0 exactly while ERR = 0 (R25, R280); a BUSY command is one whose acceptance checks passed on the snapshot,
with its word in S, and neither DONE nor ERR is set (R44, R45, R250); progress counts cells of the running run.plane and is 0
otherwise (R258); a write in flight lies inside memory; and while no other agent has broken R97 for the rows and containers
of a BUSY command, each destination container of a unit it has not completed holds its value before the command (R82, R89,
R97). -/
structure State.Inv (s : State) : Prop where
  memWf : s.mem.wf
  memBounded : s.mem.bounded
  paramsReserved : s.params.reservedZero
  snapReserved : s.snap.regs.reservedZero
  errIff : s.err = false ↔ s.errCode = .none
  busy : ∀ i, s.fsm = .busy i →
    acceptCheck i s.snap.regs = .none ∧ s.snap.cmd = encode i ∧ s.done = false ∧ s.err = false
  idleProgress : s.fsm = .idle → s.progress = 0
  busyProgress : ∀ i, s.fsm = .busy i → s.progress ≤ if i = .runPlane then cellCount s.snap.regs else 0
  flightBounded : ∀ st ∈ s.inFlight, st.addr + st.bytes.length ≤ memorySize
  busyUnwritten : ∀ i bd, s.fsm = .busy i → s.taint.data = false → bitDepth? s.snap.regs.format = some bd →
    ∀ (k : Nat) (u : UnitRect), (destCells i s.snap.regs)[k]? = some u → s.progress ≤ k →
      ∀ a, unitDestByte s.snap.regs bd u a → s.mem.read a = s.start.mem.read a

/-! ### Where a command's accesses lie -/

/-- The command's source window, descriptors and destination lie off every device (R87). -/
def offDevices (i : Instr) (s : State) : Prop := touches .device (ordinarySpans i s.params) s.regions = false

/-- No access of the command gets an error response (R286). -/
def offErrors (i : Instr) (s : State) : Prop := touches .errorResponse (commandSpans i s.params) s.regions = false

/-- The command's accesses lie on ordinary memory with no error response (R87, R88). -/
def onPlainMemory (i : Instr) (s : State) : Prop := offDevices i s ∧ offErrors i s

/-! ### The life of a command -/

/-- The commands whose rules write RESULT0 and RESULT1 (R41). -/
def writesResults : Instr → Bool
  | .nop => false
  | .runUnit => false
  | .runPlane => true
  | .primRsr => true
  | .primClip3 => true
  | .primLut => true
  | .primBox3 => true
  | .primBox5 => true
  | .primSgrab _ => true

/-- The block is IDLE and nothing is scheduled before the command ends (log entry 4). -/
def readyFor (s : State) : Prop := s.fsm = .idle ∧ s.sched = []

/-- The state in which an accepted command runs: S taken, DONE, ERR, ERR_CODE cleared, BUSY (R250). -/
def accepted (i : Instr) (s : State) : State := startCommand i (takeSnapshot (encode i) s)

/-- s after command i was accepted and ended without an error, with these RESULT values: STATUS shows DONE with ERR and
ERR_CODE 0 (R250, R252). That S still holds the command, and every other field not named what it held, the scratch buffers
among them, is the model's choice where the spec leaves it open (U6; log entries 3 and 36). -/
def endedWith (i : Instr) (r0 r1 : Word) (s : State) : State :=
  { s with
    snap := ⟨encode i, s.params⟩
    done := true
    err := false
    errCode := .none
    fsm := .idle
    progress := 0
    taint := Taint.clear
    start := Start.none
    result0 := r0
    result1 := r1 }

/-- s after command i was accepted and ended with an error (R253), or was rejected with it (R250); S and the scratch buffers
as in `endedWith`, by the model's choice (U6; log entries 3 and 36). -/
def failedWith (i : Instr) (e : ErrCode) (s : State) : State :=
  { s with
    snap := ⟨encode i, s.params⟩
    done := true
    err := true
    errCode := e
    fsm := .idle
    progress := 0
    taint := Taint.clear
    start := Start.none }

/-! ### Acceptance, in the words of R281 and R282 -/

/-- The unit group of R282. -/
def unitGroup (p : Params) : Prop :=
  1 ≤ planeW p ∧ 1 ≤ planeH p ∧ (1 ≤ (unitOf p).w ∧ (unitOf p).w ≤ 384) ∧ (1 ≤ (unitOf p).h ∧ (unitOf p).h ≤ 384) ∧
    (unitOf p).x0 + (unitOf p).w ≤ planeW p ∧ (unitOf p).y0 + (unitOf p).h ≤ planeH p

/-- The grid group of R282. -/
def gridGroup (p : Params) : Prop :=
  1 ≤ planeW p ∧ 1 ≤ planeH p ∧ (1 ≤ lo16 p.unitGrid ∧ lo16 p.unitGrid ≤ 384) ∧
    (1 ≤ hi16 p.unitGrid ∧ hi16 p.unitGrid ≤ 384)

/-- The source or destination group of R282. -/
def planeGroup (base stride : Word) (p : Params) : Prop :=
  planeW p * sampleBytesOf p.format ≤ stride.toNat ∧
    (base.toNat : Int) + ((planeH p : Int) - 1) * stride.toNat + planeW p * sampleBytesOf p.format ≤ 2 ^ 32

/-- The groups the table of R281 names for a command. -/
def geometryHolds (i : Instr) (p : Params) : Prop :=
  match i with
  | .runUnit => unitGroup p ∧ planeGroup p.srcBase p.srcStride p ∧ planeGroup p.dstBase p.dstStride p
  | .runPlane => gridGroup p ∧ planeGroup p.srcBase p.srcStride p ∧ planeGroup p.dstBase p.dstStride p ∧
      p.descBase.toNat + 16 * cellCount p ≤ 2 ^ 32
  | .primBox3 => unitGroup p ∧ planeGroup p.srcBase p.srcStride p
  | .primBox5 => unitGroup p ∧ planeGroup p.srcBase p.srcStride p
  | .nop => True
  | .primRsr => True
  | .primClip3 => True
  | .primLut => True
  | .primSgrab _ => True

/-- Base and stride are even where SB = 2 (R84). -/
def evenPlane (base stride : Word) (p : Params) : Prop :=
  sampleBytesOf p.format = 2 → base.toNat % 2 = 0 ∧ stride.toNat % 2 = 0

/-- The alignment the table of R281 names for a command (R84). -/
def alignmentHolds (i : Instr) (p : Params) : Prop :=
  match i with
  | .runUnit => evenPlane p.srcBase p.srcStride p ∧ evenPlane p.dstBase p.dstStride p
  | .runPlane => evenPlane p.srcBase p.srcStride p ∧ evenPlane p.dstBase p.dstStride p ∧ p.descBase.toNat % 4 = 0
  | .primBox3 => evenPlane p.srcBase p.srcStride p
  | .primBox5 => evenPlane p.srcBase p.srcStride p
  | .nop => True
  | .primRsr => True
  | .primClip3 => True
  | .primLut => True
  | .primSgrab _ => True

/-! ### Descriptors (R102) -/

/-- Word m of the descriptor of cell k in memory (R102). -/
def cellWord (m : Memory) (p : Params) (k n : Nat) : Word :=
  BitVec.ofNat 32 (m.readLE (p.descBase.toNat + 16 * k + 4 * n) 4)

/-- The record the descriptor of cell k holds; none for KIND = 3 (R102, R258). -/
def cellRecord (m : Memory) (p : Params) (k : Nat) : Option UnitRecord :=
  match filterKind? (cellWord m p k 0) with
  | none => none
  | some kind => some
      { kind := kind
        wienerH := cellWord m p k 1
        wienerV := cellWord m p k 2
        preset := ((cellWord m p k 0).extractLsb' 4 4).toNat
        mult := cellWord m p k 3 }

/-! ### Contract ranges (R187, R230); the block does not check them -/

/-- The stored taps of a WIENER_H or WIENER_V layout lie in their contract ranges (R187). -/
def contractTaps (w : Word) : Prop :=
  ∀ k < 3, Config.wienerTapMin k ≤ storedTap w k ∧ storedTap w k ≤ Config.wienerTapMax k

/-- The multipliers of an SGR_MULT layout lie in their contract ranges (R230). -/
def contractMult (w : Word) : Prop :=
  Config.sgrW0Min ≤ lo16s w ∧ lo16s w ≤ Config.sgrW0Max ∧ Config.sgrW1Min ≤ hi16s w ∧ hi16s w ≤ Config.sgrW1Max

/-! ### The filters as the rules write them -/

/-- The Wiener sample of R190 and R192 with no buffer between the passes. -/
def wienerDirect (bd : BitDepth) (wh wv : Word) (f : Int → Int → Nat) (i c : Nat) : Int :=
  clip3 (rsr (sumInt 7 fun t => kernel wv t * wienerInter bd wh f ((i : Int) + t - 3) c) bd.roundV) 0 bd.pixMax

/-- `A_p[i][j]` as R221 defines it, for row index k = i + 1 and column index c = j + 1. -/
def aDirect (r scale : Nat) (bd : BitDepth) (f : Int → Int → Nat) (k c : Nat) : Int :=
  (sgrAB (boxSum f r ((k : Int) - 1) ((c : Int) - 1)) (boxSq f r ((k : Int) - 1) ((c : Int) - 1)) r scale bd).1

/-- `B_p[i][j]` as R221 defines it, for row index k = i + 1 and column index c = j + 1. -/
def bDirect (r scale : Nat) (bd : BitDepth) (f : Int → Int → Nat) (k c : Nat) : Int :=
  (sgrAB (boxSum f r ((k : Int) - 1) ((c : Int) - 1)) (boxSq f r ((k : Int) - 1) ((c : Int) - 1)) r scale bd).2

/-- The SGR sample of R218 to R229 with no buffers: box sums by R165, statistics by R221, combinations by R223 and
R224. -/
def sgrDirect (q : Preset) (bd : BitDepth) (w0 w1 : Int) (f : Int → Int → Nat) (y0 i j : Nat) : Int :=
  let u := scaledSample (f i j)
  let odd := (y0 + i) % 2 == 1
  let f0 :=
    if q.r0 = 0 then u
    else passOutput (combine0 (aDirect 2 q.scale0 bd f) odd i j) (combine0 (bDirect 2 q.scale0 bd f) odd i j) (f i j)
      (shift0 odd)
  let f1 :=
    if q.r1 = 0 then u
    else passOutput (combine1 (aDirect 1 q.scale1 bd f) i j) (combine1 (bDirect 1 q.scale1 bd f) i j) (f i j) shift1
  blend Config.sgrProjBits bd w0 w1 f0 u f1

/-- The destination sample of a unit at (i, j) as the filter rules write it (R192, R229, R256). -/
def sampleDirect (rec : UnitRecord) (bd : BitDepth) (f : Int → Int → Nat) (y0 i j : Nat) : Int :=
  match rec.kind with
  | .copy => (f i j : Int)
  | .wiener => wienerDirect bd rec.wienerH rec.wienerV f i j
  | .selfGuided => sgrDirect (presetOf rec.preset) bd (lo16s rec.mult) (hi16s rec.mult) f y0 i j

/-! ### What a BUSY command may write next (R82, R89) -/

/-- `v` is the value the filter rule gives the container at `a` among those the BUSY command may be writing: its unit's, or
those of the cell run.plane is at, by the descriptor memory holds (R82, R89). -/
def ruleValue (i : Instr) (s : State) (a : Nat) (v : Int) : Prop :=
  match i with
  | .runUnit => ∃ bd kind r c, bitDepth? s.snap.regs.format = some bd ∧ filterKind? s.snap.regs.unitKind = some kind ∧
      r < (unitOf s.snap.regs).h ∧ c < (unitOf s.snap.regs).w ∧ a = dstAddr s.snap.regs bd (unitOf s.snap.regs) r c ∧
      v = sampleDirect (snapshotRecord s.snap.regs kind) bd (src s.snap.regs bd (unitOf s.snap.regs) s.mem)
        (unitOf s.snap.regs).y0 r c
  | .runPlane => ∃ bd u rec r c, bitDepth? s.snap.regs.format = some bd ∧
      (gridCells s.snap.regs)[s.progress]? = some u ∧ cellRecord s.mem s.snap.regs s.progress = some rec ∧
      r < u.h ∧ c < u.w ∧ a = dstAddr s.snap.regs bd u r c ∧
      v = sampleDirect rec bd (src s.snap.regs bd u s.mem) u.y0 r c
  | .nop => False
  | .primRsr => False
  | .primClip3 => False
  | .primLut => False
  | .primBox3 => False
  | .primBox5 => False
  | .primSgrab _ => False

end Sys2Proof.Machine
end

