-- ==== Sys2Proof/Certificates/Slice0/Obligations.lean ====
section
/-! DEFINITION. The statements for the provers, from the numbered rules of spec/. `readyFor s` says that the block is IDLE
and the schedule is empty, so that an accepted command runs to its end in the same step (log entry 4).
Where a statement equates whole states (`endedWith`, `failedWith`, `{ s with … }`) it says more than the rules it names: that
the snapshot S stays as the command left it, and the scratch buffers too, where U6 and R50 leave both open between commands,
is the model's choice (log entries 3 and 36), and so are what both hold after a reset (log entries 2, 3 and 26) and the values
of the model's own fields (log entries 23, 24, 28 and 37). -/
section
open Sys2Proof Sys2Proof.Machine

/-! ### Reset, registers, flags -/

/-- R54: after a hardware or a soft reset every register has its value of the table in R21, and the block is IDLE. The
reset input and CTRL.SOFT_RESET have one effect, and with no command running it always answers. What `resetBlock` gives S and
the scratch buffers, which R310 leaves unspecified, is the model's choice (U6; log entries 2, 3 and 26). -/
def Obligations.ResetGivesEveryRegisterItsResetValue : Prop :=
  (∀ r, readReg r State.reset = if r = .id then 0x4C520001#32 else if r = .caps then 0x01800180#32 else 0#32) ∧
    State.reset.fsm = .idle ∧ State.reset.irq = false ∧
    (∀ s, s.fsm = .idle → reset s = .next (resetBlock s)) ∧
    (∀ s t, reset s = .next t → (∀ r, readReg r t = readReg r State.reset) ∧ t.fsm = .idle ∧ t.irq = false) ∧
    (∀ s, takeTurn .reset s = reset s) ∧
    ∀ s v, v.getLsbD 1 = true → busWrite .w32 0x08#8 v s = reset s

/-- R311, R82, R89: a soft reset of a BUSY block, off devices, resets the registers and abandons the command. Each
destination container holds its old value or one the command may have been writing; each write left in flight is such a
write, to a container still old; no other byte changes. Where no rule of R96 and R97 was broken, the command may have been
writing only its filter's values, for its unit or for the cell run.plane is at: none of an earlier or a later cell. -/
def Obligations.SoftResetAbandonsTheRunningCommand : Prop :=
  ∀ s i v, s.Inv → s.fsm = .busy i → touches .device (ordinarySpans i s.snap.regs) s.regions = false →
    v.getLsbD 1 = true →
    let sb := sampleBytesOf s.snap.regs.format
    ∃ t, busWrite .w32 0x08#8 v s = .next t ∧
      (∀ r, readReg r t = readReg r State.reset) ∧ t.fsm = .idle ∧
      (∀ a, ¬ destByte i s.snap.regs a → t.mem.read a = s.mem.read a) ∧
      (∀ a, destContainer i s.snap.regs a → t.mem.readLE a sb = s.mem.readLE a sb ∨
        ∃ st ∈ pendingStores i s, st.addr = a ∧ st.bytes = leBytes sb (t.mem.readLE a sb)) ∧
      (∀ st ∈ t.inFlight, st ∈ s.inFlight ∨ st ∈ pendingStores i s ∧ destContainer i s.snap.regs st.addr ∧
        t.mem.readLE st.addr sb = s.mem.readLE st.addr sb) ∧
      (s.taint = Taint.clear → aliased i s.snap.regs = false →
        ∀ st ∈ pendingStores i s, ∃ x, ruleValue i s st.addr x ∧ st.bytes = leBytes sb x.toNat)

/-- R55: IRQ = CTRL.IRQ_EN and STATUS.DONE at every point, and the host deasserts it by writing 1 to STATUS.DONE or 0 to
CTRL.IRQ_EN. -/
def Obligations.InterruptIsEnableAndDone : Prop :=
  (∀ s : State, s.irq = ((readReg .ctrl s).getLsbD 0 && (readReg .status s).getLsbD 1)) ∧
    (∀ s v t, v.getLsbD 1 = true → busWrite .w32 0x0C#8 v s = .next t → t.irq = false) ∧
    ∀ s v t, v.getLsbD 0 = false → busWrite .w32 0x08#8 v s = .next t → t.irq = false

/-- R25: a write of STATUS clears DONE, ERR with ERR_CODE, and OVR where the written bit is 1; every other bit of the
written value is ignored, nothing else changes, and reserved bits read as 0. -/
def Obligations.StatusWriteClearsTheBitsWrittenOne : Prop :=
  (∀ s : State, readReg .status s &&& 0xFFFFF0F0#32 = 0#32) ∧
    ∀ s v, ∃ t, busWrite .w32 0x0C#8 v s = .next t ∧
      readReg .status t = readReg .status s &&& ~~~(v &&& 0xE#32) &&& (if v.getLsbD 2 then 0xFFFFF0FF#32 else
        0xFFFFFFFF#32) ∧
      t = { s with done := t.done, err := t.err, errCode := t.errCode, ovr := t.ovr }

/-- R21, R24, R26, R314: a register reads back what was written to its bits, reserved bits read as 0, a write of a
read-only register is ignored, and no other register changes. A CTRL write with SOFT_RESET = 0 sets IRQ_EN to bit 0, IDLE
or BUSY, and CTRL reads as IRQ_EN alone; CMD reads as 0. A CTRL write with SOFT_RESET = 1, a STATUS write and a CMD write
have statements of their own. -/
def Obligations.RegisterWriteReadsBackItsBits : Prop :=
  (∀ s r (off : BitVec 8) v, Reg.ofOffset? off.toNat = some r → r ≠ .ctrl → r ≠ .status → r ≠ .cmd →
    ∃ t, busWrite .w32 off v s = .next t ∧
      busReadValue off t =
        (if r = .id ∨ r = .caps ∨ r = .result0 ∨ r = .result1 then readReg r s
          else if r = .format ∨ r = .unitKind then v &&& 3#32
          else if r = .wienerH ∨ r = .wienerV then v &&& 0x03FFFFFF#32
          else if r = .sgrPreset then v &&& 0xF#32
          else v) ∧
      (∀ q, q ≠ r → readReg q t = readReg q s) ∧ t = { s with params := t.params }) ∧
  (∀ s v, v.getLsbD 1 = false →
    busWrite .w32 0x08#8 v s = .next { s with irqEn := v.getLsbD 0 } ∧
      busReadValue 0x08#8 { s with irqEn := v.getLsbD 0 } = v &&& 1#32) ∧
  (∀ s, busReadValue 0x08#8 s = if s.irqEn then 1#32 else 0#32) ∧
  ∀ s, busReadValue 0x10#8 s = 0#32

/-- R77, R76: the register window, 256 bytes from REG_BASE on the host bus, answers aligned 32-bit accesses; any other
access gets an error response; a reserved offset reads as 0 and ignores writes; a read has no side effect. How the host's
bus reports the error is open (D46): the model stops with a fault (log entry 14). That the offset, and not the bus address,
is what must be aligned is the model's choice (log entry 34). -/
def Obligations.RegisterWindowServesAlignedWords : Prop :=
  (∀ s width (off : BitVec 8) v n, (width ≠ .w32 ∨ off.toNat % 4 ≠ 0) →
    busWrite width off v s = .fault .hostBusError ∧ hostStmt (.rd width off n) s = .fault .hostBusError) ∧
  (∀ s (off : BitVec 8) v, off.toNat % 4 = 0 → 0x64 ≤ off.toNat →
    busWrite .w32 off v s = .next s ∧ busReadValue off s = 0#32) ∧
  (∀ s (off : BitVec 8) n, off.toNat % 4 = 0 →
    ∃ t, hostStmt (.rd .w32 off n) s = .next t ∧ lookupName t.host.names n = some (busReadValue off s) ∧
      t = { s with host := t.host }) ∧
  (∀ s addr (off : BitVec 8), windowOffset? addr s = some off ↔ addr = s.regBase + off.toNat) ∧
  ∀ s width (off : BitVec 8) v, hostStmt (.wr width off (.const v)) s = busWrite width off v (advanceHost s)

/-! ### Encoding -/

/-- R101: the words of the OP map decode to their commands, and words beside them do not decode. -/
def Obligations.OpMapWordsDecodeToTheirCommands : Prop :=
  decode 0x00000000#32 = .ok .nop ∧ decode 0x00000001#32 = .ok .runUnit ∧ decode 0x00000002#32 = .ok .runPlane ∧
    decode 0x00000003#32 = .ok .primRsr ∧ decode 0x00000004#32 = .ok .primClip3 ∧
    decode 0x00000005#32 = .ok .primLut ∧ decode 0x00000006#32 = .ok .primBox3 ∧
    decode 0x00000007#32 = .ok .primBox5 ∧ decode 0x00000008#32 = .ok (.primSgrab .p0) ∧
    decode 0x00000018#32 = .ok (.primSgrab .p1) ∧ decode 0x00000009#32 = .error .reservedOp ∧
    decode 0x00000021#32 = .error .reservedBits ∧ decode 0x00000011#32 = .error .passBit

/-- R110: a word is illegal when OP is in 9 to 15, or bits 31:5 are not all 0, or bit 4 is 1 with OP other than 8. These
are the words outside R101's legal words; an IDLE block ends one with ILLEGAL_CMD, code 1, and changes no register but
STATUS and no memory. That S holds the word and the registers afterwards, and the scratch buffers what they held, is the
model's choice (U6; log entries 3 and 36). -/
def Obligations.IllegalWordsEndWithIllegalCmd : Prop :=
  ∀ w : Word,
    let illegal := 9 ≤ w.toNat % 16 ∨ w.toNat / 32 ≠ 0 ∨ (w.toNat / 16 % 2 = 1 ∧ w.toNat % 16 ≠ 8)
    (illegal ↔ ∀ i, encode i ≠ w) ∧ (illegal ↔ ∃ e, decode w = .error e) ∧
      (illegal → ∀ s, s.fsm = .idle → presentWord w s = .next
        { s with
          snap := ⟨w, s.params⟩
          done := true
          err := true
          errCode := .illegalCmd
          progress := 0
          taint := Taint.clear
          start := Start.none }) ∧ ErrCode.illegalCmd.code = 1#4

/-- R100, R101: decoding and encoding are inverse in both directions, on words and on the opcode table's numbering, and
every decoded command is well formed. -/
def Obligations.DecodeAndEncodeAreInverse : Prop :=
  (∀ (w : Word) (i : Instr), decode w = .ok i ↔ w = encode i) ∧
    (∀ i : Instr, i.wellFormed = true ∧ decodeTableWord 32 (encode i).toNat = some i) ∧
    ∀ (n w : Nat) (i : Instr), decodeTableWord n w = some i → w % 2 ^ n = (encode i).toNat

/-- R104: the packing helpers put each value into the field the operand decodings of R103 read. -/
def Obligations.PackingHelpersFillTheirFields : Prop :=
  (∀ x y : BitVec 16, lo16 (packXY x y) = x.toNat ∧ hi16 (packXY x y) = y.toNat) ∧
    (∀ (c0 c1 c2 : Int) (l : BitVec 2), (-128 ≤ c0 ∧ c0 ≤ 127) → (-128 ≤ c1 ∧ c1 ≤ 127) → (-128 ≤ c2 ∧ c2 ≤ 127) →
      storedTap (packWiener c0 c1 c2 l) 0 = c0 ∧ storedTap (packWiener c0 c1 c2 l) 1 = c1 ∧
        storedTap (packWiener c0 c1 c2 l) 2 = c2 ∧ leadingZeroTaps (packWiener c0 c1 c2 l) = l.toNat ∧
        packWiener c0 c1 c2 l &&& ~~~wienerMask = 0#32) ∧
    (∀ a b : Int, (-32768 ≤ a ∧ a ≤ 32767) → (-32768 ≤ b ∧ b ≤ 32767) →
      lo16s (packMult a b) = a ∧ hi16s (packMult a b) = b ∧ hi16s (packBoxPos a b) = a ∧ lo16s (packBoxPos a b) = b) ∧
    packWiener 3 (-7) 15 0#2 = 0x000FF903#32 ∧ packMult (-32) 31 = 0x001FFFE0#32

/-! ### The step -/

/-- R52, R100, R250, in the model's own terms: whose turn it is (log entry 4) and where a word is placed (log entry 16) are
the model's choice. Where the host's next statement writes a word that decodes to command i to CMD, a step is exec of i,
with the host moved past the statement and the turn taken off the schedule; an illegal word is presented likewise; a
placed table word runs at the very next step; and with an empty schedule a BUSY block moves first. -/
def Obligations.StepPresentsTheWordWrittenToCmd : Prop :=
  (∀ s w i, decode w = .ok i → s.host.prog[s.host.pc]? = some (.wr .w32 0x10#8 (.const w)) →
    (s.sched = [] → s.fsm = .idle → step s = exec i (advanceHost s)) ∧
      ∀ rest, s.sched = .host :: rest → step s = exec i (advanceHost { s with sched := rest })) ∧
  (∀ s w e, decode w = .error e → s.host.prog[s.host.pc]? = some (.wr .w32 0x10#8 (.const w)) →
    (s.sched = [] → s.fsm = .idle → step s = .next (presentIllegal w (advanceHost s))) ∧
      ∀ rest, s.sched = .host :: rest → step s = .next (presentIllegal w (advanceHost { s with sched := rest }))) ∧
  (∀ n w i, decodeTableWord n w = some i →
    step (State.reset.withFetchWord n w) =
      exec i (advanceHost { State.reset.withFetchWord n w with sched := [] })) ∧
  ∀ s i, s.fsm = .busy i → s.sched = [] → step s = perform i s

/-- R115: `run m` on an IDLE block takes two steps: the command ends in the first, with or without an error, and its
`wait` passes in the second. -/
def Obligations.RunPseudoEndsAfterItsWait : Prop :=
  ∀ s i, readyFor s → offDevices i s →
    s.host.prog[s.host.pc]? = (Pseudo.expand (.run i))[0]? →
    s.host.prog[s.host.pc + 1]? = (Pseudo.expand (.run i))[1]? →
    ∃ t, step s = .next t ∧ t.fsm = .idle ∧ t.done = true ∧ t.host.pc = s.host.pc + 1 ∧
      step t = .next { t with host := { t.host with pc := s.host.pc + 2 } }

/-! ### Acceptance -/

/-- R251: a CMD write while BUSY is dropped: OVR is set, and the running command, S and every other register are
unchanged. -/
def Obligations.CmdWriteWhileBusyIsDropped : Prop :=
  ∀ s c w, s.fsm = .busy c → presentWord w s = .next { s with ovr := true } ∧
    busWrite .w32 0x10#8 w s = .next { s with ovr := true }

/-- R250, R283: a command rejected at acceptance performs no memory access and changes no register but STATUS. S and the
scratch buffers after it are the model's choice (U6; log entries 3 and 36). -/
def Obligations.RejectionChangesOnlyStatus : Prop :=
  ∀ s i e, s.fsm = .idle → acceptCheck i s.params = e → e ≠ .none → exec i s = .next (failedWith i e s)

/-- R281, R282, R84: the acceptance checks, their conditions in the table's words and their order: the first failing one
is reported. -/
def Obligations.AcceptanceReportsTheFirstFailingCheck : Prop :=
  ∀ (i : Instr) (p : Params),
    let badFormat := (i = .runUnit ∨ i = .runPlane ∨ i = .primBox3 ∨ i = .primBox5 ∨ ∃ pass, i = .primSgrab pass) ∧
      p.format.toNat % 4 = 3
    let badKind := i = .runUnit ∧ p.unitKind.toNat % 4 = 3
    let disabled := (i = .primSgrab .p0 ∧ (presetOf (p.sgrPreset.toNat % 16)).r0 = 0) ∨
      (i = .primSgrab .p1 ∧ (presetOf (p.sgrPreset.toNat % 16)).r1 = 0)
    (badFormat → acceptCheck i p = .badFormat) ∧
      (¬ badFormat → badKind → acceptCheck i p = .badKind) ∧
      (¬ badFormat → ¬ badKind → ¬ geometryHolds i p → acceptCheck i p = .badGeometry) ∧
      (¬ badFormat → ¬ badKind → geometryHolds i p → ¬ alignmentHolds i p → acceptCheck i p = .misaligned) ∧
      (¬ badFormat → ¬ badKind → geometryHolds i p → alignmentHolds i p → disabled →
        acceptCheck i p = .passDisabled) ∧
      (¬ badFormat → ¬ badKind → geometryHolds i p → alignmentHolds i p → ¬ disabled → acceptCheck i p = .none)

/-- R83, R85: an accepted command forms no address at or above 2^32 and no misaligned access. -/
def Obligations.AcceptedAccessesAreAlignedAndInMemory : Prop :=
  ∀ (i : Instr) (p : Params), acceptCheck i p = .none →
    (∀ sp ∈ sourceSpans i p ++ destSpans i p, sp.start + sp.len ≤ 2 ^ 32 ∧ sp.start % sampleBytesOf p.format = 0 ∧
      sp.len % sampleBytesOf p.format = 0) ∧
    (∀ sp ∈ descSpans i p, sp.start + sp.len ≤ 2 ^ 32 ∧ sp.start % 4 = 0) ∧
    ∀ a, destContainer i p a → a + sampleBytesOf p.format ≤ 2 ^ 32 ∧ a % sampleBytesOf p.format = 0

/-- R250: after a CMD write to an IDLE block, legal or not, STATUS shows exactly one of BUSY and DONE. -/
def Obligations.CmdWriteLeavesBusyOrDone : Prop :=
  ∀ s w t, s.fsm = .idle → presentWord w s = .next t →
    (readReg .status t).getLsbD 0 = !(readReg .status t).getLsbD 1

/-- R257, R282: the grid: N cells in raster order, each of the rule's size and satisfying the unit group's limits, and
every plane sample in exactly one of them. -/
def Obligations.GridCutsThePlaneIntoCells : Prop :=
  ∀ p : Params, gridGroup p →
    let cols := (planeW p + lo16 p.unitGrid - 1) / lo16 p.unitGrid
    let rows := (planeH p + hi16 p.unitGrid - 1) / hi16 p.unitGrid
    cellCount p = rows * cols ∧ (gridCells p).length = rows * cols ∧
      (∀ r c, r < rows → c < cols → (gridCells p)[r * cols + c]? = some
        { x0 := c * lo16 p.unitGrid
          y0 := r * hi16 p.unitGrid
          w := min (lo16 p.unitGrid) (planeW p - c * lo16 p.unitGrid)
          h := min (hi16 p.unitGrid) (planeH p - r * hi16 p.unitGrid) }) ∧
      (∀ u ∈ gridCells p, 1 ≤ u.w ∧ u.w ≤ 384 ∧ 1 ≤ u.h ∧ u.h ≤ 384 ∧ u.x0 + u.w ≤ planeW p ∧
        u.y0 + u.h ≤ planeH p) ∧
      ∀ x y, x < planeW p → y < planeH p →
        ∃! k : Nat, ∃ u : UnitRect, (gridCells p)[k]? = some u ∧
          (u.x0 ≤ x ∧ x < u.x0 + u.w) ∧ (u.y0 ≤ y ∧ y < u.y0 + u.h)

/-! ### nop and the arithmetic primitives -/

/-- R254: the only effect of `nop` is its completion. S and the scratch buffers after it are the model's choice (U6; log
entries 3 and 36). -/
def Obligations.NopOnlyCompletes : Prop :=
  ∀ s, readyFor s → exec .nop s = .next (endedWith .nop s.result0 s.result1 s)

/-- R134, R130: `prim.rsr` writes RSR(OPA, OPB mod 32) exactly, whatever FORMAT holds: the result fits in 32 signed bits,
and for b ≥ 1 lies in [-2^(31-b), 2^(31-b)]. S and the scratch buffers after the command are the model's choice (U6; log
entries 3 and 36). -/
def Obligations.PrimRsrRoundsTheShiftedOperand : Prop :=
  ∀ s, readyFor s →
    let v := s.params.opa.toInt
    let b := s.params.opb.toNat % 32
    ∃ r, exec .primRsr s = .next (endedWith .primRsr r 0#32 s) ∧
      r.toInt = (if b = 0 then v else (v + 2 ^ (b - 1)) / 2 ^ b) ∧
      (1 ≤ b → -(2 : Int) ^ (31 - b) ≤ r.toInt ∧ r.toInt ≤ 2 ^ (31 - b))

/-- R135, R131: `prim.clip3` writes Clip3(OPA, OPB, OPC) of the signed operands, whatever FORMAT holds, also for
low > high. S and the scratch buffers after the command are the model's choice (U6; log entries 3 and 36). -/
def Obligations.PrimClip3ClampsTheOperand : Prop :=
  ∀ s, readyFor s →
    let v := s.params.opa.toInt
    let low := s.params.opb.toInt
    let high := s.params.opc.toInt
    ∃ r, exec .primClip3 s = .next (endedWith .primClip3 r 0#32 s) ∧
      r.toInt = (if v < low then low else if high < v then high else v)

/-- R155, R150, R153: `prim.lut` writes T[z] and 256 - T[z] for z = min(OPA, 255), with T by its defining formula. S and the scratch
buffers after the command are the model's choice (U6; log entries 3 and 36). -/
def Obligations.PrimLutReadsTheReciprocalTable : Prop :=
  ∀ s, readyFor s →
    let z := min s.params.opa.toNat 255
    let a2ref := if z = 0 then 1 else if 255 ≤ z then 256 else (z * 256 + z / 2) / (z + 1)
    ∃ r0 r1, exec .primLut s = .next (endedWith .primLut r0 r1 s) ∧ r0.toNat = 256 - a2ref ∧ r1.toNat = a2ref

/-- R154: T[0] = 255, T[255] = 0, T is non-increasing, every entry fits in 8 bits, and there are 256 entries that sum to
1556 (R150). -/
def Obligations.ReciprocalTableFallsFrom255To0 : Prop :=
  recip 0 = 255 ∧ recip 255 = 0 ∧ (∀ z < 255, recip (z + 1) ≤ recip z) ∧ (∀ z < 256, recip z < 256) ∧
    (∀ z < 255, 256 - recip z ≤ 256 - recip (z + 1)) ∧ 256 - recip 0 = 1 ∧ 256 - recip 255 = 256 ∧
    reciprocalTable.length = 256 ∧ reciprocalTable.sum = 1556

/-! ### Box sums -/

/-- R170, R171, R165: an accepted box command on plain memory writes the exact double sums over its box through `Src`;
nothing is lost in the 32-bit results. S and the scratch buffers after the command are the model's choice (U6; log entries 3
and 36). -/
def Obligations.BoxCommandsSumTheirWindow : Prop :=
  ∀ s i r bd, (i = .primBox3 ∧ r = 1 ∨ i = .primBox5 ∧ r = 2) → readyFor s → acceptCheck i s.params = .none →
    onPlainMemory i s → bitDepth? s.params.format = some bd →
    let f := src s.params bd (unitOf s.params) s.mem
    let row := (s.params.opa.extractLsb' 16 16).toInt
    let col := (s.params.opa.extractLsb' 0 16).toInt
    ∃ r0 r1, exec i s = .next (endedWith i r0 r1 s) ∧
      r0.toNat = (sumNat (2 * r + 1) fun y => sumNat (2 * r + 1) fun x => f (row + y - r) (col + x - r)) ∧
      r1.toNat = sumNat (2 * r + 1) fun y => sumNat (2 * r + 1) fun x => f (row + y - r) (col + x - r) ^ 2

/-- R170, R286: where a container of the box gets an error response, the command ends with BUS_ERROR and the results
unchanged. That the command reads every container of its box is the model's inference (log entry 9, DEDUCED): R81 says
that it may. S and the scratch buffers after the command are the model's choice (U6; log entries 3 and 36). -/
def Obligations.BoxBusErrorKeepsTheResults : Prop :=
  ∀ (s : State) (i : Instr) (r : Nat) (bd : BitDepth) (y x : Nat),
    (i = .primBox3 ∧ r = 1 ∨ i = .primBox5 ∧ r = 2) → readyFor s → acceptCheck i s.params = .none →
    offDevices i s → bitDepth? s.params.format = some bd → y ≤ 2 * r → x ≤ 2 * r →
    touches .errorResponse [⟨srcAddr s.params bd (unitOf s.params) (hi16s s.params.opa + y - r)
      (lo16s s.params.opa + x - r), bd.sampleBytes⟩] s.regions = true →
    exec i s = .next (failedWith i .busError s)

/-! ### The Wiener filter -/

/-- R185, R186: the kernel of each LZT, with every tap symmetric and the taps summing to 128. -/
def Obligations.KernelFollowsItsLeadingZeroTaps : Prop :=
  ∀ w : Word,
    let c0 := (w.extractLsb' 0 8).toInt
    let c1 := (w.extractLsb' 8 8).toInt
    let c2 := (w.extractLsb' 16 8).toInt
    let lzt := w.toNat / 2 ^ 24 % 4
    ((List.range 7).map (kernel w) =
      if lzt = 0 then [c0, c1, c2, 128 - 2 * (c0 + c1 + c2), c2, c1, c0]
      else if lzt = 1 then [0, c1, c2, 128 - 2 * (c1 + c2), c2, c1, 0]
      else if lzt = 2 then [0, 0, c2, 128 - 2 * c2, c2, 0, 0]
      else [0, 0, 0, 128, 0, 0, 0]) ∧ ((List.range 7).map (kernel w)).sum = 128

/-- R186: stored taps that LZT zeroes are ignored, whatever their values: two settings with the same effective taps give
bit-identical output, the destination and STATUS. That the scratch buffers end alike too is no output R186 speaks of and does
not follow from it: it is the model's choice, which forms rows -3 and H + 2 of WI for every LZT_V (R191; log entry 35) and
keeps scratch contents after a command (R50; log entry 3). -/
def Obligations.ZeroedTapsDoNotMatter : Prop :=
  ∀ s wh wv t, readyFor s →
    (∀ k < 3, effectiveTap wh k = effectiveTap s.params.wienerH k) →
    (∀ k < 3, effectiveTap wv k = effectiveTap s.params.wienerV k) → exec .runUnit s = .next t →
    ∃ u, exec .runUnit { s with params := { s.params with wienerH := wh, wienerV := wv } } = .next u ∧
      u.mem = t.mem ∧ u.err = t.err ∧ u.errCode = t.errCode ∧ u.scratch = t.scratch

/-- R190, R191, R192, R193: an accepted Wiener unit on plain memory with no aliasing: every destination sample is the
two-pass value with its intermediate rounding and clamp, and nothing else in memory changes. S after the command is the
model's choice (U6; log entry 36). -/
def Obligations.WienerUnitWritesTheTwoPassSamples : Prop :=
  ∀ s bd, s.mem.wf → readyFor s → acceptCheck .runUnit s.params = .none → onPlainMemory .runUnit s →
    aliased .runUnit s.params = false → bitDepth? s.params.format = some bd →
    filterKind? s.params.unitKind = some .wiener →
    let u := unitOf s.params
    let rh := if bd = .bd12 then 5 else 3
    let rv := if bd = .bd12 then 9 else 11
    let offset : Int := 2 ^ (bd.bits + 7 - rh - 1)
    let limit : Int := 2 ^ (bd.bits + 1 + 7 - rh) - 1
    let inter := fun (i c : Int) => clip3 (rsr (sumInt 7 fun t =>
      kernel s.params.wienerH t * src s.params bd u s.mem i (c + t - 3)) rh) (-offset) (limit - offset)
    ∃ t, exec .runUnit s = .next t ∧
      t = { endedWith .runUnit s.result0 s.result1 s with mem := t.mem, scratch := t.scratch } ∧
      (∀ i c, i < u.h → c < u.w → (t.mem.readLE (dstAddr s.params bd u i c) bd.sampleBytes : Int) =
        clip3 (rsr (sumInt 7 fun t => kernel s.params.wienerV t * inter ((i : Int) + t - 3) c) rv) 0 (2 ^ bd.bits - 1)) ∧
      ∀ a, ¬ destByte .runUnit s.params a → t.mem.read a = s.mem.read a

/-- R46, R190, R191, in the model's own terms: after a Wiener unit, with or without a bus error, the buffer WI holds H + 6
rows of W entries: row r + 3 holds the intermediates of row r, with rows -3 and H + 2 equal to their neighbours. The spec
leaves the contents of WI after a command open (R50); that they stay is the model's choice (log entry 3). With LZT_V >= 1
the block need not form rows -3 and H + 2 (R191); that they are formed for every LZT_V is the model's choice (log entry
35). -/
def Obligations.WienerBufferHoldsTheIntermediates : Prop :=
  ∀ s t bd, readyFor s → acceptCheck .runUnit s.params = .none → bitDepth? s.params.format = some bd →
    filterKind? s.params.unitKind = some .wiener → exec .runUnit s = .next t →
    let u := unitOf s.params
    t.scratch.wi.length = u.h + 6 ∧
      (∀ k c, k < u.h + 6 → c < u.w → wiAt t.scratch.wi k c =
        wienerInter bd s.params.wienerH (src s.params bd u s.mem) ((k : Int) - 3) c) ∧
      ∀ c, c < u.w → wiAt t.scratch.wi 0 c = wiAt t.scratch.wi 1 c ∧
        wiAt t.scratch.wi (u.h + 5) c = wiAt t.scratch.wi (u.h + 4) c

/-- R196: the bounds of the datapath, for every encodable tap set and for the contract range, and R189's range of the
intermediate, [-offset, limit - offset], which fits in 16 signed bits. -/
def Obligations.WienerDatapathStaysInItsBounds : Prop :=
  ∀ (bd : BitDepth) (wh wv : Word) (f : Int → Int → Nat), (∀ i j, f i j ≤ bd.pixMax) →
    let rh := if bd = .bd12 then 5 else 3
    let offset : Int := 2 ^ (bd.bits + 7 - rh - 1)
    let limit : Int := 2 ^ (bd.bits + 1 + 7 - rh) - 1
    (∀ i c, -768 * (bd.pixMax : Int) ≤ wienerHSum wh f i c ∧ wienerHSum wh f i c ≤ 896 * bd.pixMax) ∧
    (contractTaps wh → ∀ i c,
      -90 * (bd.pixMax : Int) ≤ wienerHSum wh f i c ∧ wienerHSum wh f i c ≤ 218 * bd.pixMax) ∧
    (∀ i c, -offset ≤ wienerInter bd wh f i c ∧ wienerInter bd wh f i c ≤ limit - offset) ∧
    (-32768 ≤ -offset ∧ limit - offset ≤ 32767) ∧
    ∀ (i : Nat) (c : Int),
      let s := sumInt 7 fun t => kernel wv t * wienerInter bd wh f ((i : Int) + t - 3) c
      (-26213632 ≤ s ∧ s ≤ 28310656) ∧
        (contractTaps wv → -90 * (limit - offset) - 218 * offset ≤ s ∧ s ≤ 218 * (limit - offset) + 90 * offset)

/-- R195: if every `Src` value of the unit's window (rows -3 to H+2, columns -3 to W+2) is v, a Wiener unit writes v
everywhere, for every encodable tap set, every LZT and every bit depth. -/
def Obligations.WienerKeepsFlatPlanes : Prop :=
  ∀ s bd v, s.mem.wf → readyFor s → acceptCheck .runUnit s.params = .none → onPlainMemory .runUnit s →
    aliased .runUnit s.params = false → bitDepth? s.params.format = some bd →
    filterKind? s.params.unitKind = some .wiener →
    (∀ i j : Int, (-3 ≤ i ∧ i ≤ (unitOf s.params).h + 2) → (-3 ≤ j ∧ j ≤ (unitOf s.params).w + 2) →
      src s.params bd (unitOf s.params) s.mem i j = v) →
    ∃ t, exec .runUnit s = .next t ∧ t.err = false ∧ ∀ i j, i < (unitOf s.params).h → j < (unitOf s.params).w →
      t.mem.readLE (dstAddr s.params bd (unitOf s.params) i j) bd.sampleBytes = v

/-- R197: with stored taps 0, 0, 0 or LZT = 3 in both directions, the output of a Wiener unit equals its input. -/
def Obligations.IdentityTapsCopyTheUnit : Prop :=
  ∀ s bd, s.mem.wf → readyFor s → acceptCheck .runUnit s.params = .none → onPlainMemory .runUnit s →
    aliased .runUnit s.params = false → bitDepth? s.params.format = some bd →
    filterKind? s.params.unitKind = some .wiener →
    (∀ w ∈ [s.params.wienerH, s.params.wienerV], w.toNat % 2 ^ 24 = 0 ∨ w.toNat / 2 ^ 24 % 4 = 3) →
    ∃ t, exec .runUnit s = .next t ∧ t.err = false ∧ ∀ i j, i < (unitOf s.params).h → j < (unitOf s.params).w →
      t.mem.readLE (dstAddr s.params bd (unitOf s.params) i j) bd.sampleBytes =
        src s.params bd (unitOf s.params) s.mem i j

/-! ### The self-guided filter -/

/-- R215: the scales follow the rule's formula from the eps columns, every row enables a pass, and radii are 0 or the
pass's own. -/
def Obligations.PresetTableFollowsItsFormula : Prop :=
  ∀ k < 16,
    let q := presetOf k
    let eps0 := [12, 15, 18, 21, 24, 29, 36, 45, 56, 68, 0, 0, 0, 0, 30, 75].getD k 0
    let eps1 := [4, 6, 8, 9, 10, 11, 12, 13, 14, 15, 5, 8, 11, 14, 0, 0].getD k 0
    (q.r0 = if eps0 = 0 then 0 else 2) ∧ (q.r1 = if eps1 = 0 then 0 else 1) ∧ (q.r0 ≠ 0 ∨ q.r1 ≠ 0) ∧
      (q.scale0 = if eps0 = 0 then 0 else (2 ^ 20 + 625 * eps0 / 2) / (625 * eps0)) ∧
      (q.scale1 = if eps1 = 0 then 0 else (2 ^ 20 + 81 * eps1 / 2) / (81 * eps1))

/-- R233, R218: `prim.sgrab` of an enabled pass writes a2 = 256 - t and the low 32 bits of b2, by the statistic's own
steps. S and the scratch buffers after the command are the model's choice (U6; log entries 3 and 36). -/
def Obligations.PrimSgrabWritesTheStatistic : Prop :=
  ∀ s pass bd, readyFor s → bitDepth? s.params.format = some bd →
    (presetOf (s.params.sgrPreset.toNat % 16)).radius pass ≠ 0 →
    let sum := s.params.opa.toNat
    let sumsq := s.params.opb.toNat
    let n : Nat := if pass = .p0 then 25 else 9
    let overN : Nat := if pass = .p0 then 164 else 455
    let scale := (presetOf (s.params.sgrPreset.toNat % 16)).scale pass
    let a := rsr sumsq (2 * (bd.bits - 8))
    let d := rsr sum (bd.bits - 8)
    let t := recip (min (rsr (max 0 (a * n - d * d) * scale) 20) 255).toNat
    ∃ r0, exec (.primSgrab pass) s = .next (endedWith (.primSgrab pass) r0
        (BitVec.ofInt 32 (rsr ((t : Int) * sum * overN) 12)) s) ∧
      (r0.toNat : Int) = 256 - t ∧ 1 ≤ r0.toNat ∧ r0.toNat ≤ 256

/-- R222, R236: for sums a real box can give, b2 is non-negative and at most 65089, 261120 or 1045245 at BD 8, 10 or 12,
and a2 lies in [1, 256]. -/
def Obligations.StatisticsOfRealBoxesFit : Prop :=
  ∀ (pass : Pass) (bd : BitDepth) (sum sumsq scale : Nat), sum ≤ boxCount (passRadius pass) * bd.pixMax →
    let ab := sgrAB sum sumsq (passRadius pass) scale bd
    (1 ≤ ab.1 ∧ ab.1 ≤ 256) ∧ 0 ≤ ab.2 ∧
      ab.2 ≤ if bd = .bd8 then 65089 else if bd = .bd10 then 261120 else 1045245

/-- R221 to R229, R232: an accepted self-guided unit on plain memory with no aliasing: every destination sample is the
blend of the enabled passes' outputs and the source sample, and nothing else in memory changes. A pass output combines its
statistics with R223's weights (5, 6, 5 on row i where the absolute row is odd, on rows i - 1 and i + 1 where it is even) or
R224's (3, 4, 3 on rows i - 1 and i + 1, 4, 4, 4 on row i); entry (k, c) of a plane is its statistic at (k - 1, c - 1). S
after the command is the model's choice (U6; log entry 36). -/
def Obligations.SelfGuidedUnitWritesTheBlend : Prop :=
  ∀ s bd, s.mem.wf → readyFor s → acceptCheck .runUnit s.params = .none → onPlainMemory .runUnit s →
    aliased .runUnit s.params = false → bitDepth? s.params.format = some bd →
    filterKind? s.params.unitKind = some .selfGuided →
    let u := unitOf s.params
    let f := src s.params bd u s.mem
    let q := presetOf (s.params.sgrPreset.toNat % 16)
    let w0 := (s.params.sgrMult.extractLsb' 0 16).toInt
    let w1 := (s.params.sgrMult.extractLsb' 16 16).toInt
    let scaled := fun (i j : Nat) => 16 * (f i j : Int)
    let row565 := fun (g : Nat → Nat → Int) (k j : Nat) => 5 * g k j + 6 * g k (j + 1) + 5 * g k (j + 2)
    let row343 := fun (g : Nat → Nat → Int) (k j : Nat) => 3 * g k j + 4 * g k (j + 1) + 3 * g k (j + 2)
    let row444 := fun (g : Nat → Nat → Int) (k j : Nat) => 4 * g k j + 4 * g k (j + 1) + 4 * g k (j + 2)
    let comb0 := fun (g : Nat → Nat → Int) (i j : Nat) =>
      if (u.y0 + i) % 2 = 1 then row565 g (i + 1) j else row565 g i j + row565 g (i + 2) j
    let comb1 := fun (g : Nat → Nat → Int) (i j : Nat) => row343 g i j + row444 g (i + 1) j + row343 g (i + 2) j
    let f0 := fun (i j : Nat) => if q.r0 = 0 then scaled i j else
      rsr (comb0 (aDirect 2 q.scale0 bd f) i j * f i j + comb0 (bDirect 2 q.scale0 bd f) i j)
        (if (u.y0 + i) % 2 = 1 then 8 else 9)
    let f1 := fun (i j : Nat) => if q.r1 = 0 then scaled i j else
      rsr (comb1 (aDirect 1 q.scale1 bd f) i j * f i j + comb1 (bDirect 1 q.scale1 bd f) i j) 9
    ∃ t, exec .runUnit s = .next t ∧
      t = { endedWith .runUnit s.result0 s.result1 s with mem := t.mem, scratch := t.scratch } ∧
      (∀ i j, i < u.h → j < u.w → (t.mem.readLE (dstAddr s.params bd u i j) bd.sampleBytes : Int) =
        clip3 (rsr (w0 * f0 i j + w1 * scaled i j + (256 - w0 - w1) * f1 i j) 12) 0 (2 ^ bd.bits - 1)) ∧
      ∀ a, ¬ destByte .runUnit s.params a → t.mem.read a = s.mem.read a

/-- R47, R166, R221, in the model's own terms: after a self-guided unit the buffers of each enabled pass hold, at every
position of the domain, the table entry and the offset of the direct box sums there, although they were formed through the
sliding window. The spec leaves their contents after a command open (R50) and gives the entries no width beyond its bounds;
that they stay is log entry 3's choice, the widths are log entry 25's. -/
def Obligations.SgrBuffersHoldTheBoxStatistics : Prop :=
  ∀ s t bd, readyFor s → acceptCheck .runUnit s.params = .none → bitDepth? s.params.format = some bd →
    filterKind? s.params.unitKind = some .selfGuided → exec .runUnit s = .next t →
    let u := unitOf s.params
    let f := src s.params bd u s.mem
    let q := presetOf (presetIndex s.params.sgrPreset)
    ∀ k c, k < u.h + 2 → c < u.w + 2 →
      (q.r0 ≠ 0 → ((abAt t.scratch.sgr0 k c).t.toNat : Int) = 256 - aDirect 2 q.scale0 bd f k c ∧
        ((abAt t.scratch.sgr0 k c).b.toNat : Int) = bDirect 2 q.scale0 bd f k c) ∧
      (q.r1 ≠ 0 → ((abAt t.scratch.sgr1 k c).t.toNat : Int) = 256 - aDirect 1 q.scale1 bd f k c ∧
        ((abAt t.scratch.sgr1 k c).b.toNat : Int) = bDirect 1 q.scale1 bd f k c)

/-- R234, its BD 8 part: if every `Src` value of the unit's window is v at BD 8, a self-guided unit with multipliers in the
contract range writes v everywhere, for every preset. -/
def Obligations.SelfGuidedKeepsFlatPlanesAtBd8 : Prop :=
  ∀ s v, s.mem.wf → readyFor s → acceptCheck .runUnit s.params = .none → onPlainMemory .runUnit s →
    aliased .runUnit s.params = false → bitDepth? s.params.format = some .bd8 →
    filterKind? s.params.unitKind = some .selfGuided → contractMult s.params.sgrMult →
    (∀ i j : Int, (-3 ≤ i ∧ i ≤ (unitOf s.params).h + 2) → (-3 ≤ j ∧ j ≤ (unitOf s.params).w + 2) →
      src s.params .bd8 (unitOf s.params) s.mem i j = v) →
    ∃ t, exec .runUnit s = .next t ∧ t.err = false ∧ ∀ i j, i < (unitOf s.params).h → j < (unitOf s.params).w →
      t.mem.readLE (dstAddr s.params .bd8 (unitOf s.params) i j) 1 = v

/-- R227: on a flat plane of v at BD 8 the pass outputs are within [0, 4] and [-1, 0] of 16 v. -/
def Obligations.FlatPassOutputsStayNearTheSample : Prop :=
  ∀ (v : Nat) (scale i j : Nat) (odd : Bool), v ≤ 255 →
    let f := fun _ _ => v
    let f0 := passOutput (combine0 (aDirect 2 scale .bd8 f) odd i j) (combine0 (bDirect 2 scale .bd8 f) odd i j) v
      (shift0 odd)
    let f1 := passOutput (combine1 (aDirect 1 scale .bd8 f) i j) (combine1 (bDirect 1 scale .bd8 f) i j) v shift1
    (16 * (v : Int) ≤ f0 ∧ f0 ≤ 16 * v + 4) ∧ (16 * (v : Int) - 1 ≤ f1 ∧ f1 ≤ 16 * v)

/-- R235: where every multiplier the combination reads is 256, the pass returns the source sample: F = 16 U exactly. Pass 0
reads row i alone where the absolute row is odd and rows i - 1 and i + 1 where it is even, pass 1 all three (R223, R224);
entry (k, c) of a plane is its statistic at (k - 1, c - 1). -/
def Obligations.HighVariancePassesReturnTheSample : Prop :=
  ∀ (bd : BitDepth) (f : Int → Int → Nat) (scale sample i j : Nat) (odd : Bool),
    ((∀ k c, (if odd then k = i + 1 else k = i ∨ k = i + 2) → (j ≤ c ∧ c ≤ j + 2) → aDirect 2 scale bd f k c = 256) →
      passOutput (combine0 (aDirect 2 scale bd f) odd i j) (combine0 (bDirect 2 scale bd f) odd i j) sample
        (shift0 odd) = 16 * sample) ∧
    ((∀ k c, (i ≤ k ∧ k ≤ i + 2) → (j ≤ c ∧ c ≤ j + 2) → aDirect 1 scale bd f k c = 256) →
      passOutput (combine1 (aDirect 1 scale bd f) i j) (combine1 (bDirect 1 scale bd f) i j) sample shift1 =
        16 * sample)

/-! ### run.unit and run.plane -/

/-- R256: an accepted copy on plain memory with no aliasing: every destination sample is the unit's own source sample, and
nothing else in memory changes. S and the scratch buffers after the command are the model's choice (U6; log entries 3
and 36). -/
def Obligations.CopyUnitWritesTheSourceSamples : Prop :=
  ∀ s bd, s.mem.wf → readyFor s → acceptCheck .runUnit s.params = .none → onPlainMemory .runUnit s →
    aliased .runUnit s.params = false → bitDepth? s.params.format = some bd →
    filterKind? s.params.unitKind = some .copy →
    let u := unitOf s.params
    ∃ t, exec .runUnit s = .next t ∧ t = { endedWith .runUnit s.result0 s.result1 s with mem := t.mem } ∧
      (∀ i j, i < u.h → j < u.w → t.mem.readLE (dstAddr s.params bd u i j) bd.sampleBytes =
        s.mem.readLE (s.params.srcBase.toNat + (u.y0 + i) * s.params.srcStride.toNat + (u.x0 + j) * bd.sampleBytes)
          bd.sampleBytes % 2 ^ bd.bits) ∧
      ∀ a, ¬ destByte .runUnit s.params a → t.mem.read a = s.mem.read a

/-- R197, R231, R74: whatever the filter kind, taps, preset and multipliers, every destination container of a run.unit
that ends without an error and breaks no aliasing rule holds a value in [0, 2^BD - 1]. -/
def Obligations.UnitOutputLiesInThePixelRange : Prop :=
  ∀ s t bd i j, s.mem.wf → readyFor s → acceptCheck .runUnit s.params = .none →
    aliased .runUnit s.params = false → bitDepth? s.params.format = some bd → exec .runUnit s = .next t →
    t.err = false → i < (unitOf s.params).h → j < (unitOf s.params).w →
    t.mem.readLE (dstAddr s.params bd (unitOf s.params) i j) bd.sampleBytes ≤ 2 ^ bd.bits - 1

/-- R253, R286, U4, U18: an accepted run.unit off devices with no aliasing ends, without an error or with BUS_ERROR,
whichever access the error response met. After BUS_ERROR each destination container holds its old value or the one its
rule gives it, and the results stay; without an error each holds the one its rule gives; no other byte changes. An error
response on a destination container always ends it with BUS_ERROR. S after the command is the model's choice (U6; log
entry 36). -/
def Obligations.UnitBusErrorLeavesOldOrNewSamples : Prop :=
  ∀ s bd kind, s.mem.wf → readyFor s → acceptCheck .runUnit s.params = .none → offDevices .runUnit s →
    aliased .runUnit s.params = false → bitDepth? s.params.format = some bd →
    filterKind? s.params.unitKind = some kind →
    let u := unitOf s.params
    let new := fun (i j : Nat) => sampleDirect (snapshotRecord s.params kind) bd (src s.params bd u s.mem) u.y0 i j
    ∃ t, exec .runUnit s = .next t ∧ (t.errCode = .none ∨ t.errCode = .busError) ∧
      (∀ a, ¬ destByte .runUnit s.params a → t.mem.read a = s.mem.read a) ∧
      (t.errCode = .busError →
        t = { failedWith .runUnit .busError s with mem := t.mem, scratch := t.scratch, draws := t.draws } ∧
          ∀ i j, i < u.h → j < u.w →
            t.mem.readLE (dstAddr s.params bd u i j) bd.sampleBytes =
                s.mem.readLE (dstAddr s.params bd u i j) bd.sampleBytes ∨
              (t.mem.readLE (dstAddr s.params bd u i j) bd.sampleBytes : Int) = new i j) ∧
      (t.errCode = .none →
        t = { endedWith .runUnit s.result0 s.result1 s with mem := t.mem, scratch := t.scratch, draws := t.draws } ∧
          ∀ i j, i < u.h → j < u.w → (t.mem.readLE (dstAddr s.params bd u i j) bd.sampleBytes : Int) = new i j) ∧
      ∀ i j, i < u.h → j < u.w →
        touches .errorResponse [⟨dstAddr s.params bd u i j, bd.sampleBytes⟩] s.regions = true → t.errCode = .busError

/-- R258, R102, R257: an accepted run.plane on plain memory with no aliasing and no descriptor of KIND 3: every sample of
every cell is the one its descriptor's filter gives from the source plane, RESULT0 = RESULT1 = N, and nothing else in
memory changes. S after the command is the model's choice (U6; log entry 36). -/
def Obligations.RunPlaneFiltersEveryCell : Prop :=
  ∀ s bd, s.mem.wf → readyFor s → acceptCheck .runPlane s.params = .none → onPlainMemory .runPlane s →
    aliased .runPlane s.params = false → bitDepth? s.params.format = some bd →
    (∀ k < cellCount s.params, (cellRecord s.mem s.params k).isSome = true) →
    let n := BitVec.ofNat 32 (cellCount s.params)
    ∃ t, exec .runPlane s = .next t ∧
      t = { endedWith .runPlane n n s with mem := t.mem, scratch := t.scratch } ∧
      (∀ (k : Nat) (u : UnitRect) (rec : UnitRecord) (i j : Nat), (gridCells s.params)[k]? = some u →
        cellRecord s.mem s.params k = some rec → i < u.h → j < u.w →
        (t.mem.readLE (dstAddr s.params bd u i j) bd.sampleBytes : Int) =
          sampleDirect rec bd (src s.params bd u s.mem) u.y0 i j) ∧
      ∀ a, ¬ destByte .runPlane s.params a → t.mem.read a = s.mem.read a

/-- R258, R253: a run.plane whose first descriptor of KIND 3 is that of cell k ends with BAD_KIND: RESULT0 = k and
RESULT1 = N, the cells before k are complete, and no byte of any other cell is written. S after the command is the model's
choice (U6; log entry 36). -/
def Obligations.RunPlaneStopsAtTheFirstBadKind : Prop :=
  ∀ s bd k, s.mem.wf → readyFor s → acceptCheck .runPlane s.params = .none → onPlainMemory .runPlane s →
    aliased .runPlane s.params = false → bitDepth? s.params.format = some bd → k < cellCount s.params →
    cellRecord s.mem s.params k = none → (∀ m < k, (cellRecord s.mem s.params m).isSome = true) →
    ∃ t, exec .runPlane s = .next t ∧
      t = { failedWith .runPlane .badKind s with
        mem := t.mem
        scratch := t.scratch
        result0 := BitVec.ofNat 32 k
        result1 := BitVec.ofNat 32 (cellCount s.params) } ∧
      (∀ (m : Nat) (u : UnitRect) (rec : UnitRecord) (i j : Nat), m < k → (gridCells s.params)[m]? = some u →
        cellRecord s.mem s.params m = some rec → i < u.h → j < u.w →
        (t.mem.readLE (dstAddr s.params bd u i j) bd.sampleBytes : Int) =
          sampleDirect rec bd (src s.params bd u s.mem) u.y0 i j) ∧
      ∀ a, (∀ (m : Nat) (u : UnitRect), m < k → (gridCells s.params)[m]? = some u → ¬ unitDestByte s.params bd u a) →
        t.mem.read a = s.mem.read a

/-- R41, R253, R258, R286: however an accepted run.plane ends, aliased or not, RESULT1 is N and RESULT0 a count k of cells,
N exactly when no error stopped it. With no aliasing k is the number of cells completed: the cells before k hold the
samples of their descriptors' filters; each container of cell k holds its old value or, after BUS_ERROR, its filter's
value; and every byte outside the cells up to k is untouched. -/
def Obligations.RunPlaneReportsItsCells : Prop :=
  ∀ s bd, readyFor s → acceptCheck .runPlane s.params = .none → offDevices .runPlane s →
    bitDepth? s.params.format = some bd →
    ∃ t, exec .runPlane s = .next t ∧ t.done = true ∧ t.fsm = .idle ∧ t.result1.toNat = cellCount s.params ∧
      t.result0.toNat ≤ cellCount s.params ∧ (t.result0.toNat = cellCount s.params ↔ t.err = false) ∧
      (t.err = false ∧ t.errCode = .none ∨ t.err = true ∧ (t.errCode = .badKind ∨ t.errCode = .busError)) ∧
      (s.mem.wf → aliased .runPlane s.params = false →
        let held := fun (u : UnitRect) (i j : Nat) => t.mem.readLE (dstAddr s.params bd u i j) bd.sampleBytes
        (∀ (k : Nat) (u : UnitRect), k < t.result0.toNat → (gridCells s.params)[k]? = some u →
          ∃ rec, cellRecord s.mem s.params k = some rec ∧
            ∀ i j, i < u.h → j < u.w →
              (held u i j : Int) = sampleDirect rec bd (src s.params bd u s.mem) u.y0 i j) ∧
        (∀ u, (gridCells s.params)[t.result0.toNat]? = some u → ∀ i j, i < u.h → j < u.w →
          held u i j = s.mem.readLE (dstAddr s.params bd u i j) bd.sampleBytes ∨
            t.errCode = .busError ∧ ∃ rec, cellRecord s.mem s.params t.result0.toNat = some rec ∧
              (held u i j : Int) = sampleDirect rec bd (src s.params bd u s.mem) u.y0 i j) ∧
        ∀ a, (∀ (k : Nat) (u : UnitRect), k ≤ t.result0.toNat → (gridCells s.params)[k]? = some u →
          ¬ unitDestByte s.params bd u a) → t.mem.read a = s.mem.read a)

/-! ### What every command does -/

/-- R285, R262: every accepted command off devices ends, IDLE with DONE set: one executed in the step that accepts it, and
one left BUSY, at any later point, in the block's turn, whatever other agents wrote meanwhile (R97, U3). That it ends at
all, and when, is the model's choice of schedule (log entry 4; U16 leaves a command that never ends open). After acceptance
nop, prim.rsr, prim.clip3, prim.lut and prim.sgrab cannot fail; the only errors are BUS_ERROR, and BAD_KIND of run.plane. -/
def Obligations.EveryAcceptedCommandEnds : Prop :=
  let ended := fun (i : Instr) (t : State) => t.fsm = .idle ∧ t.done = true ∧
    (t.err = false ∧ t.errCode = .none ∨
      t.err = true ∧ t.errCode = .busError ∧ (i = .runUnit ∨ i = .runPlane ∨ i = .primBox3 ∨ i = .primBox5) ∨
      t.err = true ∧ t.errCode = .badKind ∧ i = .runPlane)
  (∀ s i, readyFor s → acceptCheck i s.params = .none → offDevices i s → ∃ t, exec i s = .next t ∧ ended i t) ∧
  ∀ s i, s.Inv → s.fsm = .busy i → touches .device (ordinarySpans i s.snap.regs) s.regions = false →
    ∃ t, perform i s = .next t ∧ takeTurn .block s = .next t ∧ ended i t

/-- R87, U9: a command whose source window, descriptors or destination lie on a device is refused, by name. The source window
is the unit with 3 columns and rows around it through the edge rule (R79, R80), whatever the filter reads of it, so a copy
with a device in its context is refused too; and the source containers a filter or a box may read beyond it count as well
(R81, R170; log entry 13). -/
def Obligations.CommandsOnDevicesAreRefused : Prop :=
  ∀ s i, readyFor s → acceptCheck i s.params = .none → touches .device (ordinarySpans i s.params) s.regions = true →
    exec i s = .refused .deviceMemory

/-- R41, R44, R283: the register frame of every command: no command changes a parameter register, IRQ_EN, REG_BASE, or
anything around the block but memory. RESULT0 and RESULT1 change only at the end of a primitive without an error and of an
accepted run.plane; OVR only by a drop. That the scratch buffers change only by run.unit and run.plane is the model's choice
(log entry 3), that S then holds the command's words is its choice (U6; log entry 36), and so are the cell count of a running
run.plane, 0 after a presented command (log entry 28), and what is kept of a command's start (log entry 37). -/
def Obligations.CommandsLeaveOtherRegistersAlone : Prop :=
  ∀ s t i, exec i s = .next t →
    t.params = s.params ∧ t.irqEn = s.irqEn ∧ t.regions = s.regions ∧ t.host = s.host ∧ t.sched = s.sched ∧
      t.inFlight = s.inFlight ∧ t.regBase = s.regBase ∧
      (s.fsm = .idle → t.ovr = s.ovr) ∧
      (i = .nop ∨ i = .runUnit ∨ s.fsm ≠ .idle ∨ acceptCheck i s.params ≠ .none ∨ t.err = true ∧ i ≠ .runPlane →
        t.result0 = s.result0 ∧ t.result1 = s.result1) ∧
      (i ≠ .runUnit → i ≠ .runPlane → t.scratch = s.scratch) ∧
      (s.fsm = .idle → t.snap = ⟨encode i, s.params⟩ ∧ t.progress = 0) ∧
      (t.fsm = .idle → s.fsm = .idle → t.start = Start.none)

/-- R82, R71: the memory frame of every command, errors, aliasing, breaches of R97 and drops included: every byte outside
the destination containers of the command reads as before, and a command that is dropped, rejected, or has no destination
writes nothing. It holds of a command presented, of a BUSY command in the block's turn, and of one cell of run.plane. -/
def Obligations.CommandsWriteOnlyTheirDestination : Prop :=
  (∀ s t i, exec i s = .next t →
    (∀ a, ¬ destByte i s.params a → t.mem.read a = s.mem.read a) ∧
      (s.fsm ≠ .idle ∨ acceptCheck i s.params ≠ .none ∨ (i ≠ .runUnit ∧ i ≠ .runPlane) → t.mem = s.mem)) ∧
  (∀ s t i, perform i s = .next t →
    (∀ a, ¬ destByte i s.snap.regs a → t.mem.read a = s.mem.read a) ∧
      (i ≠ .runUnit → i ≠ .runPlane → t.mem = s.mem)) ∧
  ∀ s t, performCell s = .next t → ∀ a, ¬ destByte .runPlane s.snap.regs a → t.mem.read a = s.mem.read a

/-- R260, R50, R81: the effects of an accepted command are a function of S and of the source samples and descriptors it
reads: two runs that agree on these end alike, whatever the scratch buffers, flags and earlier results were. -/
def Obligations.ResultsDependOnlyOnSnapshotAndSource : Prop :=
  ∀ s s' t i, s.mem.wf → s'.mem.wf → readyFor s → readyFor s' → s'.params = s.params →
    acceptCheck i s.params = .none → onPlainMemory i s → onPlainMemory i s' → aliased i s.params = false →
    (∀ sp ∈ sourceSpans i s.params ++ descSpans i s.params, ∀ a, sp.start ≤ a → a < sp.start + sp.len →
      s'.mem.read a = s.mem.read a) → exec i s = .next t →
    ∃ t', exec i s' = .next t' ∧ t'.err = t.err ∧ t'.errCode = t.errCode ∧
      (writesResults i = true → t'.result0 = t.result0 ∧ t'.result1 = t.result1) ∧
      (t.err = false → ∀ a, destByte i s.params a → t'.mem.read a = t.mem.read a)

/-- R319, R262, R89: a command that stays BUSY for a while ends as one that ends at once, whatever turns the model's schedule
gives (log entries 4 and 28): with turns left, acceptance leaves it BUSY, and the block's turn then gives the same state;
and a cell of run.plane done in a turn of its own changes nothing about how the command ends. -/
def Obligations.HeldCommandEndsAsAnImmediateOne : Prop :=
  (∀ s t i rest, readyFor s → rest ≠ [] → acceptCheck i s.params = .none → exec i s = .next t →
    ∃ u, exec i { s with sched := rest } = .next u ∧ u.fsm = .busy i ∧ u.mem = s.mem ∧
      blockTurn u = .next { t with sched := rest }) ∧
  ∀ s t c, s.fsm = .busy .runPlane → blockTurn s = .next t → cellTurn s = .next c →
    (c.fsm ≠ .idle → c.fsm = .busy .runPlane ∧ blockTurn c = .next t) ∧ (c.fsm = .idle → c = t)

/-- R44, R314: a register write while a command runs, a CTRL write with SOFT_RESET = 0 among them, changes the register and
not the command: it ends with the same memory and results, by its snapshot. That S is kept when it has ended is the model's
choice (U6; log entry 36). -/
def Obligations.RegisterWritesWhileBusyMissTheCommand : Prop :=
  ∀ s t i r v, s.fsm = .busy i → r ≠ .cmd → perform i s = .next t →
    ∃ u, perform i (writeReg r v s) = .next u ∧ u.mem = t.mem ∧ u.result0 = t.result0 ∧ u.result1 = t.result1 ∧
      (r ≠ .status → u.err = t.err ∧ u.errCode = t.errCode) ∧ u.snap = s.snap ∧ u.params = (writeReg r v s).params ∧
      (writeReg r v s).snap = s.snap ∧ (writeReg r v s).fsm = .busy i

/-- R261: a unit's output depends on the source only through `Src`: two units of one size whose windows (rows -3 to H+2,
columns -3 to W+2) agree give the same samples, be one at the frame edge and the other inside. A self-guided unit also
needs the same parity of its top row (R223). -/
def Obligations.EqualWindowsGiveEqualUnits : Prop :=
  ∀ (rec : UnitRecord) (bd : BitDepth) (f g : Int → Int → Nat) (y0 y0' w h : Nat),
    (∀ i j : Int, (-3 ≤ i ∧ i ≤ h + 2) → (-3 ≤ j ∧ j ≤ w + 2) → f i j = g i j) →
    (rec.kind = .selfGuided → y0 % 2 = y0' % 2) →
    ∀ i j, i < h → j < w → sampleDirect rec bd f y0 i j = sampleDirect rec bd g y0' i j

/-! ### The host and the invariant -/

/-- R72, R114: a host store of 1, 2 or 4 bytes puts byte k of the value at address a + k, a little-endian load there gives
the value, and every other byte reads as before. -/
def Obligations.HostStoresAreLittleEndian : Prop :=
  ∀ s width a v, s.mem.wf → a.toNat + width.bytes ≤ 2 ^ 32 →
    touches .errorResponse [⟨a.toNat, width.bytes⟩] s.regions = false →
    touches .device [⟨a.toNat, width.bytes⟩] s.regions = false →
    ∃ t, hostStmt (.memW width (.const a) (.const v)) s = .next t ∧
      (∀ k < width.bytes, t.mem.read (a.toNat + k) = v.extractLsb' (8 * k) 8) ∧
      t.mem.readLE a.toNat width.bytes = v.toNat % 256 ^ width.bytes ∧
      (∀ x, (x < a.toNat ∨ a.toNat + width.bytes ≤ x) → t.mem.read x = s.mem.read x) ∧
      t.host = { s.host with pc := s.host.pc + 1 } ∧ t.params = s.params ∧ t.fsm = s.fsm

/-- R97, U3: a host read of a destination container while the command is BUSY returns the container's value before the command
or the value the command writes, and never a third, also where R96 or R97 is broken and the value written is unpredictable:
one of the two is what memory holds when the command ends, unless a bus error or BAD_KIND stops a command for which R97 is
not broken. Where no rule of R96 and R97 is broken, it is the container's value in memory or its filter's. The value before
the command is kept in the model's own field `start` (log entry 37). -/
def Obligations.HostReadOfBusyDestinationIsOldOrNew : Prop :=
  ∀ s t i width a n, s.Inv → s.fsm = .busy i → destContainer i s.snap.regs a.toNat →
    width.bytes = sampleBytesOf s.snap.regs.format → hostStmt (.memR width (.const a) n) s = .next t →
    let held := (if s.taint.any then s.start.mem else s.mem).readLE a.toNat width.bytes
    ∃ v, lookupName t.host.names n = some v ∧ t.mem = s.mem ∧
      (v.toNat = held ∨ ∃ st ∈ pendingStores i s, st.addr = a.toNat ∧ st.bytes = leBytes width.bytes v.toNat) ∧
      (∀ u, perform i t = .next u → (s.taint.any = true ∨ u.err = false) →
        v.toNat = s.start.mem.readLE a.toNat width.bytes ∨ v.toNat = u.mem.readLE a.toNat width.bytes) ∧
      (s.taint = Taint.clear → aliased i s.snap.regs = false →
        v.toNat = s.mem.readLE a.toNat width.bytes ∨ ruleValue i s a.toNat v.toNat)

/-- R51, R53: only the host and reset change a parameter register, IRQ_EN or OVR; and another agent's store or a late
landing changes no register at all. -/
def Obligations.OnlyHostAndResetChangeParameters : Prop :=
  (∀ s t turn, (turn = .block ∨ turn = .cell) → takeTurn turn s = .next t →
    t.params = s.params ∧ t.irqEn = s.irqEn ∧ t.ovr = s.ovr) ∧
    (∀ s t a v, takeTurn (.agent a v) s = .next t → ∀ r, readReg r t = readReg r s) ∧
    ∀ s t n, takeTurn (.land n) s = .next t → ∀ r, readReg r t = readReg r s

/-- R41, R51: RESULT0 or RESULT1 changes in a step only when a command whose rule writes them ends, or at a reset. A command
accepted and ended in the same step is named by S after its end, which U6 leaves unspecified: that S still holds its word is
the model's choice (log entry 36), and that it ends in that step is the model's choice of schedule (log entry 4). -/
def Obligations.OnlyTheirCommandsWriteTheResults : Prop :=
  ∀ s t, step s = .next t → (t.result0 ≠ s.result0 ∨ t.result1 ≠ s.result1) →
    (∃ i, writesResults i = true ∧ t.fsm = .idle ∧ t.done = true ∧
      (s.fsm = .busy i ∨ s.fsm = .idle ∧ t.snap.cmd = encode i)) ∨
    (t.fsm = .idle ∧ ∀ r, readReg r t = readReg r State.reset)

/-- The invariant holds right after reset: registers and STATUS by R21, R25 and R310. Its clause that the reserved bits of the
snapshot S are 0 rests on no rule, for R310 and U6 leave S unspecified after a reset: that S is 0 is the model's choice (log
entry 2), and so are the values of the fields around the block (log entry 1 for memory) and of the model's own (log entries
28, 29 and 37). -/
def Obligations.ResetStateMeetsTheInvariant : Prop := State.reset.Inv

/-- The invariant: sample memory in canonical form and inside its 2^32 bytes (R70), reserved bits 0 in the registers (R21) and
so, while a command is BUSY, in the copy of them that S is (R44); ERR_CODE 0 exactly while ERR = 0 (R25), a BUSY command one whose checks passed on its snapshot and with DONE and ERR clear (R250), and
the cells counted as complete at most those of the running run.plane (R258; the count is the model's own, log entry 28). While
no other agent has broken R97 for its rows and containers, the destination containers of a unit that a BUSY command has not
completed hold their values before the command (R82, R89, R97; kept in the model's own field `start`, log entry 37).
The reserved bits of S are 0 in states that are IDLE too, where the spec leaves S unspecified (U6, R310): that rests on the
model's choice to keep the last command's words between commands (log entry 36) and to clear S at a reset (log entries 2
and 26). Every step of the machine, whichever agent moves, keeps the invariant. -/
def Obligations.EveryStepKeepsTheInvariant : Prop :=
  ∀ s t, s.Inv → step s = .next t → t.Inv

end
end

