-- ==== Sys2Proof/Laws/Arith.lean ====
section
/-! SUPPORT. Laws of the exact arithmetic: sums, the rounding shift, the clamp. -/
namespace Sys2Proof.Machine

theorem sumInt_congr (n : Nat) (f g : Nat → Int) (h : ∀ t < n, f t = g t) : sumInt n f = sumInt n g := by
  induction n with
  | zero => rfl
  | succ n ih =>
    simp only [sumInt]
    rw [ih fun t ht => h t (by omega), h n (by omega)]

theorem sumNat_congr (n : Nat) (f g : Nat → Nat) (h : ∀ t < n, f t = g t) : sumNat n f = sumNat n g := by
  induction n with
  | zero => rfl
  | succ n ih =>
    simp only [sumNat]
    rw [ih fun t ht => h t (by omega), h n (by omega)]

theorem sumInt_mul_const (n : Nat) (f : Nat → Int) (c : Int) : (sumInt n fun t => f t * c) = sumInt n f * c := by
  induction n with
  | zero => simp [sumInt]
  | succ n ih => simp only [sumInt, ih]; ring

theorem sumNat_le (n b : Nat) (f : Nat → Nat) (h : ∀ t < n, f t ≤ b) : sumNat n f ≤ n * b := by
  induction n with
  | zero => simp [sumNat]
  | succ n ih =>
    have h1 := ih fun t ht => h t (by omega)
    have h2 := h n (by omega)
    simp only [sumNat]
    rw [Nat.succ_mul]
    omega

theorem sumNat_const (n c : Nat) : (sumNat n fun _ => c) = n * c := by
  induction n with
  | zero => simp [sumNat]
  | succ n ih => simp only [sumNat, ih]; ring

/-- A window's vertical sum adds entries in the order of its rows. -/
theorem sumNat_shift (n : Nat) (f : Nat → Nat) : sumNat (n + 1) f = f 0 + sumNat n fun t => f (t + 1) := by
  induction n with
  | zero => simp [sumNat]
  | succ n ih =>
    rw [sumNat, ih]
    simp only [sumNat]
    omega

/-! ### The rounding shift (R130) -/

@[simp] theorem rsr_zero (v : Int) : rsr v 0 = v := rfl

theorem rsr_pos (v : Int) (b : Nat) (h : 1 ≤ b) : rsr v b = (v + 2 ^ (b - 1)) / 2 ^ b := by
  simp [rsr, show b ≠ 0 by omega]

theorem two_pow_pred (b : Nat) (h : 1 ≤ b) : (2 : Int) ^ b = 2 * 2 ^ (b - 1) := by
  obtain ⟨k, rfl⟩ := Nat.exists_eq_add_of_le h
  rw [Nat.add_sub_cancel_left, pow_add, pow_one]

theorem rsr_bounds (v : Int) (b : Nat) (h : 1 ≤ b) :
    v - 2 ^ (b - 1) < 2 ^ b * rsr v b ∧ 2 ^ b * rsr v b ≤ v + 2 ^ (b - 1) := by
  rw [rsr_pos v b h]
  have hp : (0 : Int) < 2 ^ b := by positivity
  have h1 := Int.mul_ediv_add_emod (v + 2 ^ (b - 1)) (2 ^ b)
  have h2 := Int.emod_nonneg (v + 2 ^ (b - 1)) (ne_of_gt hp)
  have h3 := Int.emod_lt_of_pos (v + 2 ^ (b - 1)) hp
  have h4 := two_pow_pred b h
  constructor <;> omega

theorem rsr_mul_pow (x : Int) (b : Nat) : rsr (x * 2 ^ b) b = x := by
  by_cases h : 1 ≤ b
  · have h1 := rsr_bounds (x * 2 ^ b) b h
    have h4 := two_pow_pred b h
    have hp : (0 : Int) < 2 ^ (b - 1) := by positivity
    generalize rsr (x * 2 ^ b) b = y at h1
    rw [h4] at h1
    generalize (2 : Int) ^ (b - 1) = c at h1 hp
    have h2 : (y - x) * 2 * c ≤ c := by nlinarith
    have h3 : -c < (y - x) * 2 * c := by nlinarith
    have h5 : (y - x) * 2 < 2 := by nlinarith
    have h6 : -2 < (y - x) * 2 := by nlinarith
    omega
  · have : b = 0 := by omega
    subst this
    simp

theorem rsr_mono (v w : Int) (b : Nat) (h : v ≤ w) : rsr v b ≤ rsr w b := by
  unfold rsr
  split
  · exact h
  · exact Int.ediv_le_ediv (by positivity) (by omega)

theorem rsr_nonneg (v : Int) (b : Nat) (h : 0 ≤ v) : 0 ≤ rsr v b := by
  have := rsr_mono 0 v b h
  have h0 : rsr 0 b = 0 := by have := rsr_mul_pow 0 b; simpa using this
  omega

/-! ### The clamp (R131) -/

theorem clip3_bounds (v low high : Int) (h : low ≤ high) : low ≤ clip3 v low high ∧ clip3 v low high ≤ high := by
  unfold clip3
  split
  · omega
  · split <;> omega

theorem clip3_of_mem (v low high : Int) (h1 : low ≤ v) (h2 : v ≤ high) : clip3 v low high = v := by
  unfold clip3
  rw [if_neg (by omega), if_neg (by omega)]

theorem clip3_mono (v w low high : Int) (hl : low ≤ high) (h : v ≤ w) : clip3 v low high ≤ clip3 w low high := by
  unfold clip3
  split <;> split <;> (try split) <;> (try split) <;> omega

end Sys2Proof.Machine
end

