-- ==== Sys2Proof/Laws/Memory.lean ====
section
/-! SUPPORT. The laws of sample memory: read after write, what a write leaves alone, the canonical form, and that two
memories in canonical form that read alike are equal. -/
namespace Sys2Proof.Machine

/-! ### One byte -/

theorem Memory.read_write_same (m : Memory) (hm : m.wf) (a : Nat) (v : Byte) : (m.write a v).read a = v := by
  induction m with
  | nil =>
    by_cases h : v = unlistedByte <;> simp [Memory.write, Memory.read, h]
  | cons c m ih =>
    obtain ⟨hp, hn⟩ := hm
    have hp' := List.pairwise_cons.mp hp
    have ih' := ih ⟨hp'.2, fun x hx => hn x (List.mem_cons_of_mem _ hx)⟩
    have unlisted : ∀ m' : Memory, (∀ d ∈ m', a < d.1) → m'.read a = unlistedByte := by
      intro m' h
      induction m' with
      | nil => rfl
      | cons d m' ihm =>
        have h1 := h d (List.mem_cons_self ..)
        simp only [Memory.read]
        rw [if_neg (by omega)]
        exact ihm fun e he => h e (List.mem_cons_of_mem _ he)
    simp only [Memory.write]
    split
    · rename_i hlt
      split
      · rename_i hv
        rw [hv]
        refine unlisted _ fun d hd => ?_
        rcases List.mem_cons.mp hd with rfl | hd
        · exact hlt
        · have := hp'.1 d hd; omega
      · simp [Memory.read]
    · split
      · rename_i _ heq
        split
        · rename_i hv
          rw [hv]
          refine unlisted _ fun d hd => ?_
          have := hp'.1 d hd; omega
        · simp [Memory.read]
      · rename_i _ hne
        simp only [Memory.read]
        rw [if_neg hne]
        exact ih'

theorem Memory.read_write_other (m : Memory) (a b : Nat) (v : Byte) (h : b ≠ a) :
    (m.write a v).read b = m.read b := by
  induction m with
  | nil =>
    by_cases hv : v = unlistedByte <;> simp [Memory.write, Memory.read, hv, h]
  | cons c m ih =>
    simp only [Memory.write]
    split
    · split <;> simp [Memory.read, h]
    · split
      · rename_i _ heq
        subst heq
        split <;> simp [Memory.read, h]
      · simp only [Memory.read]
        split <;> simp_all

theorem Memory.read_write (m : Memory) (hm : m.wf) (a b : Nat) (v : Byte) :
    (m.write a v).read b = if b = a then v else m.read b := by
  split
  · rename_i h; subst h; exact m.read_write_same hm b v
  · rename_i h; exact m.read_write_other a b v h

theorem Memory.mem_write (m : Memory) (a : Nat) (v : Byte) (c : Host.Cell) (h : c ∈ m.write a v) :
    c ∈ m ∨ (c = (a, v) ∧ v ≠ unlistedByte) := by
  induction m with
  | nil =>
    simp only [Memory.write] at h
    split at h
    · cases h
    · rename_i hv; right; exact ⟨by simpa using h, hv⟩
  | cons d m ih =>
    simp only [Memory.write] at h
    split at h
    · split at h
      · exact .inl h
      · rename_i hv
        rcases List.mem_cons.mp h with h | h
        · exact .inr ⟨h, hv⟩
        · exact .inl h
    · split at h
      · split at h
        · exact .inl (List.mem_cons_of_mem _ h)
        · rename_i hv
          rcases List.mem_cons.mp h with h | h
          · exact .inr ⟨h, hv⟩
          · exact .inl (List.mem_cons_of_mem _ h)
      · rcases List.mem_cons.mp h with h | h
        · exact .inl (by rw [h]; exact List.mem_cons_self ..)
        · rcases ih h with h | h
          · exact .inl (List.mem_cons_of_mem _ h)
          · exact .inr h

theorem Memory.wf_write (m : Memory) (hm : m.wf) (a : Nat) (v : Byte) : (m.write a v).wf := by
  obtain ⟨hp, hn⟩ := hm
  refine ⟨?_, fun c hc => ?_⟩
  · induction m with
    | nil =>
      simp only [Memory.write]
      split <;> simp
    | cons d m ih =>
      have hp' := List.pairwise_cons.mp hp
      have ih' := ih hp'.2 fun x hx => hn x (List.mem_cons_of_mem _ hx)
      simp only [Memory.write]
      split
      · rename_i hlt
        split
        · exact hp
        · refine List.pairwise_cons.mpr ⟨fun e he => ?_, hp⟩
          rcases List.mem_cons.mp he with rfl | he
          · exact hlt
          · have := hp'.1 e he
            show a < e.1
            omega
      · split
        · rename_i _ heq
          split
          · exact hp'.2
          · exact List.pairwise_cons.mpr ⟨fun e he => by rw [heq]; exact hp'.1 e he, hp'.2⟩
        · rename_i h1 h2
          refine List.pairwise_cons.mpr ⟨fun e he => ?_, ih'⟩
          rcases Memory.mem_write m a v e he with he | ⟨rfl, _⟩
          · exact hp'.1 e he
          · show d.1 < a
            omega
  · rcases Memory.mem_write m a v c hc with hc | ⟨rfl, hv⟩
    · exact hn c hc
    · exact hv

theorem Memory.bounded_write (m : Memory) (hm : m.bounded) (a : Nat) (v : Byte) (ha : a < memorySize) :
    (m.write a v).bounded := by
  intro c hc
  rcases Memory.mem_write m a v c hc with hc | ⟨rfl, _⟩
  · exact hm c hc
  · exact ha

/-! ### Bytes in a row -/

theorem Memory.wf_writeBytes (bs : List Byte) : ∀ (m : Memory) (a : Nat), m.wf → (m.writeBytes a bs).wf := by
  induction bs with
  | nil => intro m a hm; exact hm
  | cons b bs ih => intro m a hm; exact ih _ _ (m.wf_write hm a b)

theorem Memory.bounded_writeBytes (bs : List Byte) : ∀ (m : Memory) (a : Nat), m.bounded →
    a + bs.length ≤ memorySize → (m.writeBytes a bs).bounded := by
  induction bs with
  | nil => intro m a hm _; exact hm
  | cons b bs ih =>
    intro m a hm ha
    simp only [List.length_cons] at ha
    exact ih _ _ (m.bounded_write hm a b (by omega)) (by omega)

theorem Memory.read_writeBytes_outside (bs : List Byte) : ∀ (m : Memory) (a x : Nat),
    (x < a ∨ a + bs.length ≤ x) → (m.writeBytes a bs).read x = m.read x := by
  induction bs with
  | nil => intro m a x _; rfl
  | cons b bs ih =>
    intro m a x h
    simp only [List.length_cons] at h
    simp only [Memory.writeBytes]
    rw [ih _ _ _ (by omega), Memory.read_write_other _ _ _ _ (by omega)]

theorem Memory.read_writeBytes_inside (bs : List Byte) : ∀ (m : Memory) (a k : Nat), m.wf → (h : k < bs.length) →
    (m.writeBytes a bs).read (a + k) = bs[k] := by
  induction bs with
  | nil => intro m a k _ h; cases h
  | cons b bs ih =>
    intro m a k hm h
    simp only [Memory.writeBytes]
    cases k with
    | zero =>
      rw [Memory.read_writeBytes_outside _ _ _ _ (by omega)]
      exact m.read_write_same hm a b
    | succ k =>
      have h' : k < bs.length := by simpa using h
      have := ih (m.write a b) (a + 1) k (m.wf_write hm a b) h'
      rw [show a + (k + 1) = a + 1 + k by omega, this]
      rfl

theorem Memory.readLE_congr (m m' : Memory) (n : Nat) : ∀ a : Nat,
    (∀ x, a ≤ x → x < a + n → m.read x = m'.read x) → m.readLE a n = m'.readLE a n := by
  induction n with
  | zero => intro a _; rfl
  | succ n ih =>
    intro a h
    simp only [Memory.readLE]
    rw [h a (by omega) (by omega), ih (a + 1) fun x h1 h2 => h x (by omega) (by omega)]

@[simp] theorem leBytes_length (n v : Nat) : (leBytes n v).length = n := by
  induction n generalizing v with
  | zero => rfl
  | succ n ih => simp [leBytes, ih]

/-- A little-endian load of the bytes just stored gives the stored value, modulo the container's size (R72). -/
theorem Memory.readLE_writeBytes (n : Nat) : ∀ (m : Memory) (a v : Nat), m.wf →
    (m.writeBytes a (leBytes n v)).readLE a n = v % 256 ^ n := by
  induction n with
  | zero => intro m a v _; simp [Memory.readLE, Nat.mod_one]
  | succ n ih =>
    intro m a v hm
    simp only [leBytes, Memory.writeBytes, Memory.readLE]
    rw [ih _ _ _ (m.wf_write hm a _), Memory.read_writeBytes_outside _ _ _ _ (by omega),
      m.read_write_same hm, BitVec.toNat_ofNat, pow_succ' 256 n, Nat.mod_mul (a := 256) (b := 256 ^ n)]

theorem Memory.readLE_lt (m : Memory) (n : Nat) : ∀ a : Nat, m.readLE a n < 256 ^ n := by
  induction n with
  | zero => intro a; simp [Memory.readLE]
  | succ n ih =>
    intro a
    have h1 := (m.read a).isLt
    have h2 := ih (a + 1)
    simp only [Memory.readLE, pow_succ']
    omega

/-! ### Container writes -/

/-- The byte at `x` lies in none of the containers written. -/
def outsideStores (sts : List Store) (x : Nat) : Prop :=
  ∀ st ∈ sts, x < st.addr ∨ st.addr + st.bytes.length ≤ x

theorem Memory.wf_writeStores (sts : List Store) : ∀ m : Memory, m.wf → (m.writeStores sts).wf := by
  induction sts with
  | nil => intro m hm; exact hm
  | cons st sts ih => intro m hm; exact ih _ (Memory.wf_writeBytes _ _ _ hm)

theorem Memory.bounded_writeStores (sts : List Store) : ∀ m : Memory, m.bounded →
    (∀ st ∈ sts, st.addr + st.bytes.length ≤ memorySize) → (m.writeStores sts).bounded := by
  induction sts with
  | nil => intro m hm _; exact hm
  | cons st sts ih =>
    intro m hm h
    exact ih _ (Memory.bounded_writeBytes _ _ _ hm (h st (List.mem_cons_self ..)))
      fun st' h' => h st' (List.mem_cons_of_mem _ h')

theorem Memory.read_writeStores_outside (sts : List Store) : ∀ (m : Memory) (x : Nat), outsideStores sts x →
    (m.writeStores sts).read x = m.read x := by
  induction sts with
  | nil => intro m x _; rfl
  | cons st sts ih =>
    intro m x h
    simp only [Memory.writeStores]
    rw [ih _ _ fun st' h' => h st' (List.mem_cons_of_mem _ h'),
      Memory.read_writeBytes_outside _ _ _ _ (h st (List.mem_cons_self ..))]

/-- Two container writes share no byte. -/
def Store.disjoint (a b : Store) : Prop :=
  a.addr + a.bytes.length ≤ b.addr ∨ b.addr + b.bytes.length ≤ a.addr

/-- Where the containers are pairwise disjoint, each byte of each of them holds what was written there. -/
theorem Memory.read_writeStores_inside (sts : List Store) : ∀ (m : Memory), m.wf → sts.Pairwise Store.disjoint →
    ∀ st ∈ sts, ∀ (k : Nat) (h : k < st.bytes.length), (m.writeStores sts).read (st.addr + k) = st.bytes[k] := by
  induction sts with
  | nil => intro m _ _ st h; cases h
  | cons d sts ih =>
    intro m hm hp st hst k hk
    have hp' := List.pairwise_cons.mp hp
    simp only [Memory.writeStores]
    rcases List.mem_cons.mp hst with rfl | hst
    · rw [Memory.read_writeStores_outside]
      · exact Memory.read_writeBytes_inside _ _ _ _ hm hk
      · intro e he
        rcases hp'.1 e he with h | h <;> omega
    · exact ih _ (Memory.wf_writeBytes _ _ _ hm) hp'.2 st hst k hk

/-- Where the containers are pairwise disjoint, a little-endian load of one gives its value (R72, R82). -/
theorem Memory.readLE_writeStores (sts : List Store) (m : Memory) (hm : m.wf) (hp : sts.Pairwise Store.disjoint)
    (a n v : Nat) (h : { addr := a, bytes := leBytes n v } ∈ sts) : (m.writeStores sts).readLE a n = v % 256 ^ n := by
  rw [← Memory.readLE_writeBytes n m a v hm]
  refine Memory.readLE_congr _ _ _ _ fun x h1 h2 => ?_
  obtain ⟨k, rfl⟩ := Nat.exists_eq_add_of_le h1
  have hk : k < (leBytes n v).length := by simp; omega
  rw [Memory.read_writeStores_inside sts m hm hp _ h k hk, Memory.read_writeBytes_inside _ _ _ _ hm hk]

/-- Some of a list of disjoint container writes: a container holds its write where it was performed, and its old value
where it was not (R82, U4). -/
theorem Memory.readLE_writeStores_filter (sts : List Store) (g : Store → Bool) (m : Memory) (hm : m.wf)
    (hp : sts.Pairwise Store.disjoint) (a n v : Nat) (h : { addr := a, bytes := leBytes n v } ∈ sts) :
    (m.writeStores (sts.filter g)).readLE a n =
      if g { addr := a, bytes := leBytes n v } then v % 256 ^ n else m.readLE a n := by
  split
  · rename_i hg
    exact Memory.readLE_writeStores _ m hm (hp.filter g) a n v (List.mem_filter.mpr ⟨h, hg⟩)
  · rename_i hg
    refine Memory.readLE_congr _ _ _ _ fun x h1 h2 => Memory.read_writeStores_outside _ _ _ fun st hst => ?_
    obtain ⟨hst, hgst⟩ := List.mem_filter.mp hst
    have hne : st ≠ { addr := a, bytes := leBytes n v } := fun e => hg (e ▸ hgst)
    have : Std.Symm Store.disjoint := ⟨fun x y hxy => by unfold Store.disjoint at *; omega⟩
    have hd := hp.forall hst h hne
    unfold Store.disjoint at hd
    simp only [leBytes_length] at hd
    omega

/-! ### Canonical form -/

theorem Memory.read_of_mem (m : Memory) (hm : m.wf) (c : Host.Cell) (h : c ∈ m) : m.read c.1 = c.2 := by
  induction m with
  | nil => cases h
  | cons d m ih =>
    obtain ⟨hp, hn⟩ := hm
    have hp' := List.pairwise_cons.mp hp
    simp only [Memory.read]
    rcases List.mem_cons.mp h with rfl | h
    · simp
    · have := hp'.1 c h
      rw [if_neg (by omega)]
      exact ih ⟨hp'.2, fun x hx => hn x (List.mem_cons_of_mem _ hx)⟩ h

theorem Memory.read_unlisted (m : Memory) (a : Nat) (h : ∀ c ∈ m, c.1 ≠ a) : m.read a = unlistedByte := by
  induction m with
  | nil => rfl
  | cons d m ih =>
    simp only [Memory.read]
    rw [if_neg (fun e => h d (List.mem_cons_self ..) e.symm)]
    exact ih fun c hc => h c (List.mem_cons_of_mem _ hc)

theorem Memory.mem_iff_read (m : Memory) (hm : m.wf) (a : Nat) (v : Byte) :
    (a, v) ∈ m ↔ m.read a = v ∧ v ≠ unlistedByte := by
  constructor
  · intro h
    exact ⟨m.read_of_mem hm (a, v) h, hm.2 (a, v) h⟩
  · rintro ⟨h, hv⟩
    by_contra hn
    apply hv
    rw [← h]
    apply m.read_unlisted
    rintro ⟨b, w⟩ hc rfl
    have := m.read_of_mem hm _ hc
    simp only at this h
    rw [h] at this
    exact hn (this ▸ hc)

/-- Two memories in canonical form that read alike at every address are equal. -/
theorem Memory.ext_of_wf (m m' : Memory) (hm : m.wf) (hm' : m'.wf) (h : ∀ a, m.read a = m'.read a) : m = m' := by
  have hmem : ∀ c, c ∈ m ↔ c ∈ m' := by
    rintro ⟨a, v⟩
    rw [m.mem_iff_read hm, m'.mem_iff_read hm', h]
  have nodup : ∀ {l : Memory}, l.Pairwise (fun c d => c.1 < d.1) → l.Nodup := fun hl =>
    hl.imp fun {a b} hab heq => by subst heq; exact Nat.lt_irrefl _ hab
  have hperm : m.Perm m' := (List.perm_ext_iff_of_nodup (nodup hm.1) (nodup hm'.1)).mpr hmem
  exact hperm.eq_of_pairwise (fun a b _ _ h1 h2 => absurd h1 (by omega)) hm.1 hm'.1

end Sys2Proof.Machine
end

