-- ==== Sys2Proof/Laws/Window.lean ====
section
/-! SUPPORT. Laws of the acceptance checks, of the source window and of the destination: what an accepted command's
geometry gives, ranges of samples and addresses, and that destination containers are disjoint and inside memory. -/
namespace Sys2Proof.Machine

/-! ### What the checks give -/

theorem sampleBytesOf_eq (w : Word) (bd : BitDepth) (h : bitDepth? w = some bd) :
    sampleBytesOf w = bd.sampleBytes := by
  unfold bitDepth? at h
  unfold sampleBytesOf
  generalize bdCode w = c at h
  revert h
  revert bd
  revert c
  decide

theorem sampleBytes_pos (bd : BitDepth) : 1 ≤ bd.sampleBytes := by cases bd <;> decide

/-- What acceptance means (R281): every check of the command holds. -/
theorem acceptCheck_none (i : Instr) (p : Params) (h : acceptCheck i p = .none) :
    (usesBitDepth i = true → ∃ bd, bitDepth? p.format = some bd) ∧ kindOK i p = true ∧ geometryOK i p = true ∧
      alignOK i p = true ∧ passOK i p = true := by
  unfold acceptCheck at h
  split at h
  · cases h
  · rename_i hb
    split at h
    · cases h
    · split at h
      · cases h
      · split at h
        · cases h
        · split at h
          · cases h
          · refine ⟨fun hu => ?_, by simp_all, by simp_all, by simp_all, by simp_all⟩
            rw [hu] at hb
            simp only [Bool.true_and, Bool.not_eq_true, Option.isNone_eq_false_iff] at hb
            exact Option.isSome_iff_exists.mp hb

theorem unitGroup_facts (p : Params) (h : unitGroupOK p = true) :
    1 ≤ planeW p ∧ 1 ≤ planeH p ∧ 1 ≤ (unitOf p).w ∧ (unitOf p).w ≤ 384 ∧ 1 ≤ (unitOf p).h ∧ (unitOf p).h ≤ 384 ∧
      (unitOf p).x0 + (unitOf p).w ≤ planeW p ∧ (unitOf p).y0 + (unitOf p).h ≤ planeH p := by
  simp only [unitGroupOK, Bool.and_eq_true, decide_eq_true_eq, and_assoc] at h
  exact h

theorem gridGroup_facts (p : Params) (h : gridGroupOK p = true) :
    1 ≤ planeW p ∧ 1 ≤ planeH p ∧ 1 ≤ lo16 p.unitGrid ∧ lo16 p.unitGrid ≤ 384 ∧ 1 ≤ hi16 p.unitGrid ∧
      hi16 p.unitGrid ≤ 384 := by
  simp only [gridGroupOK, Bool.and_eq_true, decide_eq_true_eq, and_assoc] at h
  exact h

/-- A plane whose range check holds (R85). -/
structure PlaneOK (base stride : Word) (bd : BitDepth) (pw ph : Nat) : Prop where
  wide : pw * bd.sampleBytes ≤ stride.toNat
  fits : base.toNat + (ph - 1) * stride.toNat + pw * bd.sampleBytes ≤ 2 ^ 32

theorem planeFits_ok (base stride : Word) (p : Params) (bd : BitDepth) (hb : bitDepth? p.format = some bd)
    (h1 : 1 ≤ planeH p) (h : planeFits base stride p = true) : PlaneOK base stride bd (planeW p) (planeH p) := by
  simp only [planeFits, sampleBytesOf_eq _ _ hb, Bool.and_eq_true, decide_eq_true_eq] at h
  refine ⟨h.1, ?_⟩
  have h2 := h.2
  obtain ⟨n, hn⟩ := Nat.exists_eq_add_of_le h1
  rw [hn] at h2 ⊢
  rw [Nat.add_sub_cancel_left]
  push_cast at h2
  zify
  rw [show (1 : Int) + n - 1 = n by ring] at h2
  exact h2

/-! ### Sample addresses -/

/-- A container of a checked plane ends inside sample memory (R75, R85). -/
theorem sampleAddr_end_le (base stride : Word) (bd : BitDepth) (pw ph y x : Nat) (h : PlaneOK base stride bd pw ph)
    (hy : y < ph) (hx : x < pw) : sampleAddr base stride bd y x + bd.sampleBytes ≤ memorySize := by
  have h1 : y * stride.toNat ≤ (ph - 1) * stride.toNat := Nat.mul_le_mul_right _ (by omega)
  have h2 : (x + 1) * bd.sampleBytes ≤ pw * bd.sampleBytes := Nat.mul_le_mul_right _ (by omega)
  have h3 := h.fits
  rw [Nat.succ_mul] at h2
  unfold sampleAddr memorySize
  omega

/-- Distinct samples of a checked plane lie in disjoint containers (R85). -/
theorem sampleAddr_disjoint (base stride : Word) (bd : BitDepth) (pw ph y x y' x' : Nat)
    (h : PlaneOK base stride bd pw ph) (hx : x < pw) (hx' : x' < pw) (hne : y ≠ y' ∨ x ≠ x') :
    sampleAddr base stride bd y x + bd.sampleBytes ≤ sampleAddr base stride bd y' x' ∨
      sampleAddr base stride bd y' x' + bd.sampleBytes ≤ sampleAddr base stride bd y x := by
  have key : ∀ y x y' x', x < pw → x' < pw → (y < y' ∨ y = y' ∧ x < x') →
      sampleAddr base stride bd y x + bd.sampleBytes ≤ sampleAddr base stride bd y' x' := by
    intro y x y' x' hx hx' hlt
    have h1 : (x + 1) * bd.sampleBytes ≤ pw * bd.sampleBytes := Nat.mul_le_mul_right _ (by omega)
    rw [Nat.succ_mul] at h1
    have h2 := h.wide
    unfold sampleAddr
    rcases hlt with hlt | ⟨rfl, hlt⟩
    · have h3 : (y + 1) * stride.toNat ≤ y' * stride.toNat := Nat.mul_le_mul_right _ (by omega)
      rw [Nat.succ_mul] at h3
      omega
    · have h3 : (x + 1) * bd.sampleBytes ≤ x' * bd.sampleBytes := Nat.mul_le_mul_right _ (by omega)
      rw [Nat.succ_mul] at h3
      omega
  rcases lt_trichotomy y y' with hy | hy | hy
  · exact .inl (key y x y' x' hx hx' (.inl hy))
  · rcases lt_trichotomy x x' with hxx | hxx | hxx
    · exact .inl (key y x y' x' hx hx' (.inr ⟨hy, hxx⟩))
    · omega
    · exact .inr (key y' x' y x hx' hx (.inr ⟨hy.symm, hxx⟩))
  · exact .inr (key y' x' y x hx' hx (.inl hy))

/-! ### The source window -/

theorem sampleRead_lt (m : Memory) (bd : BitDepth) (a : Nat) : sampleRead m bd a < 2 ^ bd.bits :=
  Nat.mod_lt _ (by positivity)

/-- Every `Src` value lies in [0, PIXMAX] (R73, R169). -/
theorem src_le (p : Params) (bd : BitDepth) (u : UnitRect) (m : Memory) (i j : Int) :
    src p bd u m i j ≤ bd.pixMax := by
  have := sampleRead_lt m bd (srcAddr p bd u i j)
  unfold src BitDepth.pixMax
  omega

/-- A unit inside the plane (R282, the unit group without its size limits). -/
structure UnitInPlane (p : Params) (u : UnitRect) : Prop where
  w : 1 ≤ u.w
  h : 1 ≤ u.h
  right : u.x0 + u.w ≤ planeW p
  bottom : u.y0 + u.h ≤ planeH p

theorem srcRow_range (p : Params) (u : UnitRect) (h : UnitInPlane p u) (i : Int) :
    rowLo u ≤ srcRow p u i ∧ srcRow p u i ≤ rowHi p u ∧ 0 ≤ srcRow p u i ∧ srcRow p u i < planeH p := by
  have h1 := h.h
  have h2 := h.bottom
  have h3 : rowLo u ≤ rowHi p u := by
    unfold rowLo rowHi
    omega
  have h4 := clip3_bounds (u.y0 + i) (rowLo u) (rowHi p u) h3
  refine ⟨h4.1, h4.2, ?_, ?_⟩
  · have : 0 ≤ rowLo u := by unfold rowLo; omega
    unfold srcRow
    omega
  · have : rowHi p u < planeH p := by unfold rowHi; omega
    unfold srcRow
    omega

theorem srcCol_range (p : Params) (u : UnitRect) (h : UnitInPlane p u) (j : Int) :
    0 ≤ srcCol p u j ∧ srcCol p u j < planeW p := by
  have h1 := h.w
  have h2 := h.right
  have h4 := clip3_bounds (u.x0 + j) 0 ((planeW p : Int) - 1) (by omega)
  unfold srcCol
  omega

/-- Inside the unit `Src` is the unit's own sample (R80, R256). -/
theorem srcRow_inside (p : Params) (u : UnitRect) (h : UnitInPlane p u) (i : Nat) (hi : i < u.h) :
    srcRow p u i = u.y0 + i := by
  have := h.bottom
  unfold srcRow rowLo rowHi
  exact clip3_of_mem _ _ _ (by omega) (by omega)

theorem srcCol_inside (p : Params) (u : UnitRect) (h : UnitInPlane p u) (j : Nat) (hj : j < u.w) :
    srcCol p u j = u.x0 + j := by
  have := h.right
  unfold srcCol
  exact clip3_of_mem _ _ _ (by omega) (by omega)

/-- Rows beyond two of the unit repeat the row two beyond it (R80, R191). -/
theorem src_row_above (p : Params) (bd : BitDepth) (u : UnitRect) (m : Memory) (h : UnitInPlane p u) (j : Int) :
    src p bd u m (-3) j = src p bd u m (-2) j := by
  have hrow : srcRow p u (-3) = srcRow p u (-2) := by
    have := h.h
    have := h.bottom
    unfold srcRow clip3 rowLo rowHi
    split <;> split <;> (try split) <;> (try split) <;> omega
  unfold src srcAddr
  rw [hrow]

theorem src_row_below (p : Params) (bd : BitDepth) (u : UnitRect) (m : Memory) (h : UnitInPlane p u) (j : Int) :
    src p bd u m ((u.h : Int) + 2) j = src p bd u m ((u.h : Int) + 1) j := by
  have hrow : srcRow p u ((u.h : Int) + 2) = srcRow p u ((u.h : Int) + 1) := by
    have := h.h
    have := h.bottom
    unfold srcRow clip3 rowLo rowHi
    split <;> split <;> (try split) <;> (try split) <;> omega
  unfold src srcAddr
  rw [hrow]

/-! ### The destination -/

theorem mem_unitStores (p : Params) (bd : BitDepth) (u : UnitRect) (v : Nat → Nat → Int) (st : Store) :
    st ∈ unitStores p bd u v ↔ ∃ i j, i < u.h ∧ j < u.w ∧ st = dstStore p bd u i j (v i j) := by
  simp only [unitStores, List.mem_flatMap, List.mem_map, List.mem_range]
  constructor
  · rintro ⟨i, hi, j, hj, rfl⟩
    exact ⟨i, j, hi, hj, rfl⟩
  · rintro ⟨i, j, hi, hj, rfl⟩
    exact ⟨i, hi, j, hj, rfl⟩

@[simp] theorem dstStore_length (p : Params) (bd : BitDepth) (u : UnitRect) (i j : Nat) (v : Int) :
    (dstStore p bd u i j v).bytes.length = bd.sampleBytes := by
  simp [dstStore]

@[simp] theorem dstStore_addr (p : Params) (bd : BitDepth) (u : UnitRect) (i j : Nat) (v : Int) :
    (dstStore p bd u i j v).addr = dstAddr p bd u i j := rfl

/-- A destination container of a unit in a checked plane ends inside sample memory (R82, R85). -/
theorem dstAddr_end_le (p : Params) (bd : BitDepth) (u : UnitRect)
    (hp : PlaneOK p.dstBase p.dstStride bd (planeW p) (planeH p)) (hu : UnitInPlane p u) (i j : Nat) (hi : i < u.h)
    (hj : j < u.w) : dstAddr p bd u i j + bd.sampleBytes ≤ memorySize := by
  have := hu.right
  have := hu.bottom
  exact sampleAddr_end_le _ _ _ _ _ _ _ hp (by omega) (by omega)

/-- The containers a unit writes are pairwise disjoint (R82, R85). -/
theorem unitStores_disjoint (p : Params) (bd : BitDepth) (u : UnitRect) (v : Nat → Nat → Int)
    (hp : PlaneOK p.dstBase p.dstStride bd (planeW p) (planeH p)) (hu : UnitInPlane p u) :
    (unitStores p bd u v).Pairwise Store.disjoint := by
  have hr := hu.right
  unfold unitStores
  rw [List.pairwise_flatMap]
  refine ⟨fun i hi => ?_, ?_⟩
  · rw [List.pairwise_map]
    refine List.pairwise_lt_range.imp_of_mem fun {a b} ha hb hab => ?_
    simp only [List.mem_range] at ha hb
    simp only [Store.disjoint, dstStore_length, dstStore_addr, dstAddr]
    exact sampleAddr_disjoint _ _ _ _ _ _ _ _ _ hp (by omega) (by omega) (.inr (by omega))
  · refine List.pairwise_lt_range.imp_of_mem fun {a b} ha hb hab => ?_
    intro x hx y hy
    simp only [List.mem_map, List.mem_range] at hx hy
    obtain ⟨j, hj, rfl⟩ := hx
    obtain ⟨j', hj', rfl⟩ := hy
    simp only [Store.disjoint, dstStore_length, dstStore_addr, dstAddr]
    exact sampleAddr_disjoint _ _ _ _ _ _ _ _ _ hp (by omega) (by omega) (.inl (by omega))

/-- A unit's writes leave every byte outside its destination containers as it was (R82). -/
theorem outside_unitStores (p : Params) (bd : BitDepth) (u : UnitRect) (v : Nat → Nat → Int) (a : Nat)
    (h : ¬ unitDestByte p bd u a) : outsideStores (unitStores p bd u v) a := by
  intro st hst
  obtain ⟨i, j, hi, hj, rfl⟩ := (mem_unitStores p bd u v st).mp hst
  simp only [dstStore_length, dstStore_addr]
  by_contra hc
  exact h ⟨i, j, hi, hj, by omega, by omega⟩

end Sys2Proof.Machine
end

