-- ==== Sys2Proof/Laws/Filters.lean ====
section
/-! SUPPORT. The buffered datapaths compute what the rules write without buffers: the Wiener buffer (R46, R190 to R192),
the sliding window (R166), the SGR buffers (R47, R221), and one unit as a whole. -/
namespace Sys2Proof.Machine

theorem getD_map_range {α : Type} (n k : Nat) (g : Nat → α) (d : α) (h : k < n) :
    ((List.range n).map g).getD k d = g k := by
  simp [List.getD, h]

/-! ### Wiener -/

/-- A kernel's taps sum to 128 (R185). -/
theorem kernel_sum (w : Word) : (sumInt 7 fun t => kernel w t) = 128 := by
  simp only [sumInt, kernel, centreTap, Config.wienerFilterBits]
  ring

/-- The intermediate lies in the clamp range of R189. -/
theorem wienerInter_range (bd : BitDepth) (wh : Word) (f : Int → Int → Nat) (r c : Int) :
    -wienerOffset bd ≤ wienerInter bd wh f r c ∧ wienerInter bd wh f r c ≤ wienerLimit bd - wienerOffset bd := by
  refine clip3_bounds _ _ _ ?_
  cases bd <;> decide

/-- A 16-bit entry holds every intermediate without loss (R189, R196). -/
theorem wienerInter_toInt (bd : BitDepth) (wh : Word) (f : Int → Int → Nat) (r c : Int) :
    (BitVec.ofInt 16 (wienerInter bd wh f r c)).toInt = wienerInter bd wh f r c := by
  have h := wienerInter_range bd wh f r c
  have h1 : -8192 ≤ -wienerOffset bd ∧ wienerLimit bd - wienerOffset bd ≤ 24575 := by cases bd <;> decide
  rw [BitVec.toInt_ofInt_eq_self (by decide)] <;> omega

theorem wienerInter_row (bd : BitDepth) (wh : Word) (f : Int → Int → Nat) (r r' : Int) (h : ∀ j, f r j = f r' j)
    (c : Int) : wienerInter bd wh f r c = wienerInter bd wh f r' c := by
  unfold wienerInter wienerHSum
  simp only [h]

theorem wiAt_row (bd : BitDepth) (wh : Word) (f : Int → Int → Nat) (w : Nat) (r : Int) (c : Nat) (hc : c < w) :
    ((wiRow bd wh f w r).getD c 0#16).toInt = wienerInter bd wh f r c := by
  unfold wiRow
  rw [getD_map_range _ _ _ _ hc, wienerInter_toInt]

/-- What the buffer WI holds (R46, R190, R191), for a source whose rows -3 and H+2 repeat their neighbours. -/
theorem wiAt_wiBuffer (bd : BitDepth) (wh : Word) (f : Int → Int → Nat) (w h : Nat)
    (htop : ∀ j, f (-3) j = f (-2) j) (hbot : ∀ j, f ((h : Int) + 2) j = f ((h : Int) + 1) j) (k c : Nat)
    (hk : k < h + 6) (hc : c < w) :
    wiAt (wiBuffer bd wh f w h) k c = wienerInter bd wh f ((k : Int) - 3) c := by
  unfold wiAt wiBuffer
  rcases Nat.lt_or_ge k (h + 5) with hlt | hge
  · rw [List.getD_append _ _ _ _ (by simp; omega)]
    cases k with
    | zero =>
      simp only [List.getD_cons_zero]
      rw [wiAt_row _ _ _ _ _ _ hc]
      exact (wienerInter_row bd wh f _ _ htop c).symm
    | succ k =>
      simp only [List.getD_cons_succ]
      rw [getD_map_range _ _ _ _ (by omega), wiAt_row _ _ _ _ _ _ hc]
      congr 1
      push_cast
      ring
  · have hk' : k = h + 5 := by omega
    subst hk'
    rw [List.getD_append_right _ _ _ _ (by simp)]
    simp only [List.length_cons, List.length_map, List.length_range, Nat.sub_self, List.getD_cons_zero]
    rw [wiAt_row _ _ _ _ _ _ hc]
    rw [show ((h + 5 : Nat) : Int) - 3 = (h : Int) + 2 by push_cast; ring]
    exact (wienerInter_row bd wh f _ _ hbot c).symm

/-- The two passes through WI give the sample R190 to R192 write (R193, R194). -/
theorem wienerSample_eq (bd : BitDepth) (wh wv : Word) (f : Int → Int → Nat) (w h : Nat)
    (htop : ∀ j, f (-3) j = f (-2) j) (hbot : ∀ j, f ((h : Int) + 2) j = f ((h : Int) + 1) j) (i c : Nat)
    (hi : i < h) (hc : c < w) :
    wienerSample bd wv (wiBuffer bd wh f w h) i c = wienerDirect bd wh wv f i c := by
  unfold wienerSample wienerDirect wienerVSum
  congr 2
  refine sumInt_congr _ _ _ fun t ht => ?_
  rw [wiAt_wiBuffer bd wh f w h htop hbot _ _ (by omega) hc]
  push_cast
  rfl

/-! ### Box sums -/

theorem vEntry_map (n c : Nat) (g : Nat → List HEntry) :
    vEntry ((List.range n).map g) c =
      (sumNat n fun t => ((g t).getD c (0, 0)).1, sumNat n fun t => ((g t).getD c (0, 0)).2) := by
  induction n generalizing g with
  | zero => rfl
  | succ n ih =>
    rw [List.range_succ_eq_map, sumNat_shift, sumNat_shift, List.map_cons, List.map_map]
    have := ih fun t => g (t + 1)
    unfold vEntry at this ⊢
    rw [List.foldr_cons]
    have hmap : List.map (g ∘ Nat.succ) (List.range n) = List.map (fun t => g (t + 1)) (List.range n) := rfl
    rw [hmap, this]

/-- The rows of a full window centred at row i. -/
def windowAt (f : Int → Int → Nat) (r w : Nat) (i : Int) : List (List HEntry) :=
  (List.range (2 * r + 1)).map fun (t : Nat) => hRow f r w (i + t - r)

/-- One column of a full window gives the box sums of R165 (R166). -/
theorem vEntry_windowAt (f : Int → Int → Nat) (r w : Nat) (i : Int) (c : Nat) (hc : c < w + 2) :
    vEntry (windowAt f r w i) c = (boxSum f r i ((c : Int) - 1), boxSq f r i ((c : Int) - 1)) := by
  unfold windowAt
  rw [vEntry_map]
  unfold boxSum boxSq
  congr 1
  · refine sumNat_congr _ _ _ fun t _ => ?_
    unfold hRow
    rw [getD_map_range _ _ _ _ hc]
    rfl
  · refine sumNat_congr _ _ _ fun t _ => ?_
    unfold hRow
    rw [getD_map_range _ _ _ _ hc]
    rfl

theorem map_range_succ_last {α : Type} (n : Nat) (g : Nat → α) :
    (List.range (n + 1)).map g = (List.range n).map g ++ [g n] := by
  rw [List.range_succ, List.map_append]
  rfl

/-- The window that enters row i: either primed with the 2r rows above, or full around row i - 1. -/
def enters (f : Int → Int → Nat) (r w : Nat) (i : Int) (win : List (List HEntry)) : Prop :=
  (win = (List.range (2 * r)).map fun (t : Nat) => hRow f r w (i + t - r)) ∨ win = windowAt f r w (i - 1)

/-- Moving the window down one row gives the full window around the new row (R166). -/
theorem slideWindow_enters (f : Int → Int → Nat) (r w : Nat) (i : Int) (win : List (List HEntry))
    (h : enters f r w i win) : slideWindow r win (hRow f r w (i + r)) = windowAt f r w i := by
  have hlast : windowAt f r w i = ((List.range (2 * r)).map fun (t : Nat) => hRow f r w (i + t - r)) ++ [hRow f r w (i + r)] := by
    unfold windowAt
    rw [map_range_succ_last]
    congr 3
    push_cast
    ring
  unfold slideWindow
  rcases h with rfl | rfl
  · rw [hlast]
    simp
  · rw [hlast]
    have hcons : windowAt f r w (i - 1) =
        hRow f r w (i - 1 - r) :: (List.range (2 * r)).map fun (t : Nat) => hRow f r w (i + t - r) := by
      unfold windowAt
      rw [List.range_succ_eq_map, List.map_cons, List.map_map]
      congr 1
      · congr 1
        push_cast
        ring
      · refine List.map_congr_left fun t _ => ?_
        simp only [Function.comp]
        congr 1
        push_cast
        ring
    rw [hcons]
    simp

theorem boxRows_getD (f : Int → Int → Nat) (r w : Nat) (n : Nat) : ∀ (i : Int) (win : List (List HEntry)),
    enters f r w i win → ∀ k < n, ∀ c < w + 2,
      (((boxRows f r w n i win).1).getD k []).getD c (0, 0) =
        (boxSum f r (i + k) ((c : Int) - 1), boxSq f r (i + k) ((c : Int) - 1)) := by
  induction n with
  | zero => intro i win _ k hk; omega
  | succ n ih =>
    intro i win h k hk c hc
    simp only [boxRows]
    rw [slideWindow_enters f r w i win h]
    cases k with
    | zero =>
      simp only [List.getD_cons_zero]
      rw [getD_map_range _ _ _ _ hc, vEntry_windowAt _ _ _ _ _ hc]
      simp
    | succ k =>
      simp only [List.getD_cons_succ]
      have hnext : enters f r w (i + 1) (windowAt f r w i) := .inr (by rw [add_sub_cancel_right])
      rw [ih (i + 1) _ hnext k (by omega) c hc]
      congr 2 <;> push_cast <;> ring

/-- The sliding accumulator gives the direct double sums at every position of R221 (R166). -/
theorem boxSweep_getD (f : Int → Int → Nat) (r w h : Nat) (k c : Nat) (hk : k < h + 2) (hc : c < w + 2) :
    (((boxSweep f r w h).1).getD k []).getD c (0, 0) =
      (boxSum f r ((k : Int) - 1) ((c : Int) - 1), boxSq f r ((k : Int) - 1) ((c : Int) - 1)) := by
  unfold boxSweep
  have henter : enters f r w (-1) (primeWindow f r w) := by
    left
    unfold primeWindow
    refine List.map_congr_left fun t _ => ?_
    congr 1
  rw [boxRows_getD f r w (h + 2) (-1) _ henter k hk c hc]
  congr 2

theorem boxRows_length (f : Int → Int → Nat) (r w : Nat) (n : Nat) : ∀ (i : Int) (win : List (List HEntry)),
    ((boxRows f r w n i win).1).length = n ∧ ∀ row ∈ (boxRows f r w n i win).1, row.length = w + 2 := by
  induction n with
  | zero => intro i win; simp [boxRows]
  | succ n ih =>
    intro i win
    have := ih (i + 1) (slideWindow r win (hRow f r w (i + r)))
    simp only [boxRows, List.length_cons, List.mem_cons, forall_eq_or_imp]
    exact ⟨by rw [this.1], by simp, this.2⟩

/-- A box sum is at most n times the largest sample (R169). -/
theorem boxSum_le (f : Int → Int → Nat) (r : Nat) (b : Nat) (hf : ∀ i j, f i j ≤ b) (i j : Int) :
    boxSum f r i j ≤ boxCount r * b := by
  unfold boxSum boxCount
  calc _ ≤ (2 * r + 1) * ((2 * r + 1) * b) := sumNat_le _ _ _ fun y _ => sumNat_le _ _ _ fun x _ => hf _ _
    _ = _ := by ring

theorem boxSq_le (f : Int → Int → Nat) (r : Nat) (b : Nat) (hf : ∀ i j, f i j ≤ b) (i j : Int) :
    boxSq f r i j ≤ boxCount r * b ^ 2 := by
  unfold boxSq boxCount
  calc _ ≤ (2 * r + 1) * ((2 * r + 1) * b ^ 2) :=
        sumNat_le _ _ _ fun y _ => sumNat_le _ _ _ fun x _ => Nat.pow_le_pow_left (hf _ _) 2
    _ = _ := by ring

/-! ### SGR -/

theorem recip_le (z : Nat) : recip z ≤ 255 := by
  rcases Nat.lt_or_ge z 256 with h | h
  · have key : ∀ z < 256, recip z ≤ 255 := by decide +kernel
    exact key z h
  · unfold recip
    have hlen : reciprocalTable.length = 256 := by decide +kernel
    rw [List.getD_eq_default _ _ (by omega)]
    omega

theorem sgrT_le (sum sumsq r scale : Nat) (bd : BitDepth) : sgrT sum sumsq r scale bd ≤ 255 := recip_le _

/-- b2 of a real box fits in the 20 bits of a buffer entry (R47, R222). -/
theorem sgrOffset_range (t sum : Nat) (pass : Pass) (ht : t ≤ 255)
    (hs : sum ≤ boxCount (passRadius pass) * 4095) :
    0 ≤ sgrOffset t sum (passRadius pass) ∧ sgrOffset t sum (passRadius pass) < 2 ^ 20 := by
  have hnn : (0 : Int) ≤ (t : Int) * sum * oneOver (boxCount (passRadius pass)) := by positivity
  refine ⟨rsr_nonneg _ _ hnn, ?_⟩
  have hb := (rsr_bounds ((t : Int) * sum * oneOver (boxCount (passRadius pass))) 12 (by decide)).2
  have hm : (t : Int) * sum ≤ 255 * (boxCount (passRadius pass) * 4095 : Nat) := by
    have : t * sum ≤ 255 * (boxCount (passRadius pass) * 4095) := Nat.mul_le_mul ht hs
    exact_mod_cast this
  unfold sgrOffset
  cases pass <;>
    simp only [passRadius, boxCount, oneOver] at hm hb ⊢ <;>
    norm_num at hm hb ⊢ <;> omega

theorem abAt_abBuffer (r scale : Nat) (bd : BitDepth) (sums : List (List HEntry)) (k c : Nat)
    (hk : k < sums.length) (hc : c < (sums.getD k []).length) :
    abAt (abBuffer r scale bd sums) k c = abEntry r scale bd ((sums.getD k []).getD c (0, 0)) := by
  have hk' : (sums.getD k []) = sums[k] := by simp [List.getD, hk]
  rw [hk'] at hc ⊢
  simp [abAt, abBuffer, List.getD, hk, hc]

/-- The buffers of a pass hold the statistics of R221: A = 256 - T and B = b2 at every position of the domain. -/
theorem abBuffer_sweep (pass : Pass) (scale : Nat) (bd : BitDepth) (f : Int → Int → Nat) (hf : ∀ i j, f i j ≤ bd.pixMax)
    (w h k c : Nat) (hk : k < h + 2) (hc : c < w + 2) :
    aAt (abBuffer (passRadius pass) scale bd (boxSweep f (passRadius pass) w h).1) k c =
        aDirect (passRadius pass) scale bd f k c ∧
      bAt (abBuffer (passRadius pass) scale bd (boxSweep f (passRadius pass) w h).1) k c =
        bDirect (passRadius pass) scale bd f k c := by
  have hl := boxRows_length f (passRadius pass) w (h + 2) (-1) (primeWindow f (passRadius pass) w)
  have hk1 : k < (boxSweep f (passRadius pass) w h).1.length := by unfold boxSweep; omega
  have hc1 : c < (((boxSweep f (passRadius pass) w h).1).getD k []).length := by
    have : ((boxSweep f (passRadius pass) w h).1).getD k [] = (boxSweep f (passRadius pass) w h).1[k] := by
      simp [List.getD, hk1]
    rw [this, hl.2 _ (List.getElem_mem hk1)]
    exact hc
  have h4095 : bd.pixMax ≤ 4095 := by cases bd <;> decide
  have hsum := boxSum_le f (passRadius pass) 4095 (fun i j => le_trans (hf i j) h4095) ((k : Int) - 1) ((c : Int) - 1)
  have ht := sgrT_le (boxSum f (passRadius pass) ((k : Int) - 1) ((c : Int) - 1))
    (boxSq f (passRadius pass) ((k : Int) - 1) ((c : Int) - 1)) (passRadius pass) scale bd
  have hoff := sgrOffset_range _ _ pass ht hsum
  unfold aAt bAt aDirect bDirect sgrAB
  rw [abAt_abBuffer _ _ _ _ _ _ hk1 hc1, boxSweep_getD f (passRadius pass) w h k c hk hc]
  simp only [abEntry]
  constructor
  · rw [BitVec.toNat_ofNat, Nat.mod_eq_of_lt (by omega)]
  · rw [BitVec.toNat_ofInt]
    omega

theorem combine0_congr (g g' : Nat → Nat → Int) (odd : Bool) (i j w h : Nat) (hi : i < h) (hj : j < w)
    (hg : ∀ k < h + 2, ∀ c < w + 2, g k c = g' k c) : combine0 g odd i j = combine0 g' odd i j := by
  unfold combine0
  split
  · exact sumInt_congr _ _ _ fun x hx => by rw [hg _ (by omega) _ (by omega)]
  · congr 1 <;> exact sumInt_congr _ _ _ fun x hx => by rw [hg _ (by omega) _ (by omega)]

theorem combine1_congr (g g' : Nat → Nat → Int) (i j w h : Nat) (hi : i < h) (hj : j < w)
    (hg : ∀ k < h + 2, ∀ c < w + 2, g k c = g' k c) : combine1 g i j = combine1 g' i j := by
  unfold combine1
  exact sumInt_congr _ _ _ fun y hy => sumInt_congr _ _ _ fun x hx => by rw [hg _ (by omega) _ (by omega)]

/-- The pass-0 output over the swept buffers (R221, R223, R225). -/
theorem f0At_sweep (scale : Nat) (bd : BitDepth) (f : Int → Int → Nat) (hf : ∀ i j, f i j ≤ bd.pixMax) (odd : Bool)
    (sample w h i j : Nat) (hi : i < h) (hj : j < w) :
    f0At (abBuffer 2 scale bd (boxSweep f 2 w h).1) odd sample i j =
      passOutput (combine0 (aDirect 2 scale bd f) odd i j) (combine0 (bDirect 2 scale bd f) odd i j) sample
        (shift0 odd) := by
  have hab := fun k hk c hc => abBuffer_sweep .p0 scale bd f hf w h k c hk hc
  simp only [passRadius] at hab
  unfold f0At
  rw [combine0_congr _ (aDirect 2 scale bd f) odd i j w h hi hj fun k hk c hc => (hab k hk c hc).1,
    combine0_congr _ (bDirect 2 scale bd f) odd i j w h hi hj fun k hk c hc => (hab k hk c hc).2]

/-- The pass-1 output over the swept buffers (R221, R224, R225). -/
theorem f1At_sweep (scale : Nat) (bd : BitDepth) (f : Int → Int → Nat) (hf : ∀ i j, f i j ≤ bd.pixMax)
    (sample w h i j : Nat) (hi : i < h) (hj : j < w) :
    f1At (abBuffer 1 scale bd (boxSweep f 1 w h).1) sample i j =
      passOutput (combine1 (aDirect 1 scale bd f) i j) (combine1 (bDirect 1 scale bd f) i j) sample shift1 := by
  have hab := fun k hk c hc => abBuffer_sweep .p1 scale bd f hf w h k c hk hc
  simp only [passRadius] at hab
  unfold f1At
  rw [combine1_congr _ (aDirect 1 scale bd f) i j w h hi hj fun k hk c hc => (hab k hk c hc).1,
    combine1_congr _ (bDirect 1 scale bd f) i j w h hi hj fun k hk c hc => (hab k hk c hc).2]

theorem sgrScratch_sgr0 (q : Preset) (bd : BitDepth) (f : Int → Int → Nat) (w h : Nat) (sc : Scratch)
    (h0 : q.r0 ≠ 0) : (sgrScratch q bd f w h sc).sgr0 = abBuffer 2 q.scale0 bd (boxSweep f 2 w h).1 := by
  unfold sgrScratch
  simp only [h0, if_false]
  split <;> rfl

theorem sgrScratch_sgr1 (q : Preset) (bd : BitDepth) (f : Int → Int → Nat) (w h : Nat) (sc : Scratch)
    (h1 : q.r1 ≠ 0) : (sgrScratch q bd f w h sc).sgr1 = abBuffer 1 q.scale1 bd (boxSweep f 1 w h).1 := by
  unfold sgrScratch
  simp only [h1, if_false]

/-- The SGR pipeline through its buffers gives the sample of R218 to R229 (R232). -/
theorem sgrSample_eq (q : Preset) (bd : BitDepth) (w0 w1 : Int) (f : Int → Int → Nat) (hf : ∀ i j, f i j ≤ bd.pixMax)
    (y0 w h : Nat) (sc : Scratch) (i j : Nat) (hi : i < h) (hj : j < w) :
    sgrSample q bd w0 w1 f y0 (sgrScratch q bd f w h sc) i j = sgrDirect q bd w0 w1 f y0 i j := by
  have e0 : (if q.r0 = 0 then scaledSample (f i j)
      else f0At (sgrScratch q bd f w h sc).sgr0 ((y0 + i) % 2 == 1) (f i j) i j) =
      if q.r0 = 0 then scaledSample (f i j)
      else passOutput (combine0 (aDirect 2 q.scale0 bd f) ((y0 + i) % 2 == 1) i j)
        (combine0 (bDirect 2 q.scale0 bd f) ((y0 + i) % 2 == 1) i j) (f i j) (shift0 ((y0 + i) % 2 == 1)) := by
    split
    · rfl
    · rename_i h0
      rw [sgrScratch_sgr0 _ _ _ _ _ _ h0, f0At_sweep _ _ _ hf _ _ w h i j hi hj]
  have e1 : (if q.r1 = 0 then scaledSample (f i j)
      else f1At (sgrScratch q bd f w h sc).sgr1 (f i j) i j) =
      if q.r1 = 0 then scaledSample (f i j)
      else passOutput (combine1 (aDirect 1 q.scale1 bd f) i j) (combine1 (bDirect 1 q.scale1 bd f) i j) (f i j)
        shift1 := by
    split
    · rfl
    · rename_i h1
      rw [sgrScratch_sgr1 _ _ _ _ _ _ h1, f1At_sweep _ _ _ hf _ w h i j hi hj]
  unfold sgrSample sgrDirect
  simp only [e0, e1]

/-! ### One unit -/

/-- The datapath of a unit gives the sample the filter rules write, whatever the scratch buffers held (R50, R193, R232,
R256). -/
theorem unitResult_eq (rec : UnitRecord) (bd : BitDepth) (p : Params) (u : UnitRect) (m : Memory) (sc : Scratch)
    (hu : UnitInPlane p u) (i j : Nat) (hi : i < u.h) (hj : j < u.w) :
    (unitResult rec bd u (src p bd u m) sc).2 i j = sampleDirect rec bd (src p bd u m) u.y0 i j := by
  unfold unitResult sampleDirect
  cases rec.kind with
  | copy => rfl
  | wiener =>
    exact wienerSample_eq bd _ _ _ u.w u.h (src_row_above p bd u m hu) (src_row_below p bd u m hu) i j hi hj
  | selfGuided => exact sgrSample_eq _ bd _ _ _ (src_le p bd u m) _ u.w u.h sc i j hi hj

/-- Every destination sample lies in [0, PIXMAX] (R197, R231). -/
theorem sampleDirect_range (rec : UnitRecord) (bd : BitDepth) (f : Int → Int → Nat) (hf : ∀ i j, f i j ≤ bd.pixMax)
    (y0 i j : Nat) : 0 ≤ sampleDirect rec bd f y0 i j ∧ sampleDirect rec bd f y0 i j ≤ bd.pixMax := by
  unfold sampleDirect
  cases rec.kind with
  | copy => exact ⟨Int.natCast_nonneg _, Int.ofNat_le.mpr (hf _ _)⟩
  | wiener => exact clip3_bounds _ _ _ (by positivity)
  | selfGuided => exact clip3_bounds _ _ _ (by positivity)

end Sys2Proof.Machine
end

