-- ==== Sys2Proof/Laws/State.lean ====
section
/-! SUPPORT. One lemma per field per update of the state, each true by rfl, so that no proof unfolds an update. -/
namespace Sys2Proof.Machine

/-! ### takeSnapshot -/

@[simp] theorem takeSnapshot_params (w : Word) (s : State) : (takeSnapshot w s).params = s.params := rfl
@[simp] theorem takeSnapshot_irqEn (w : Word) (s : State) : (takeSnapshot w s).irqEn = s.irqEn := rfl
@[simp] theorem takeSnapshot_done (w : Word) (s : State) : (takeSnapshot w s).done = false := rfl
@[simp] theorem takeSnapshot_err (w : Word) (s : State) : (takeSnapshot w s).err = false := rfl
@[simp] theorem takeSnapshot_ovr (w : Word) (s : State) : (takeSnapshot w s).ovr = s.ovr := rfl
@[simp] theorem takeSnapshot_errCode (w : Word) (s : State) : (takeSnapshot w s).errCode = .none := rfl
@[simp] theorem takeSnapshot_result0 (w : Word) (s : State) : (takeSnapshot w s).result0 = s.result0 := rfl
@[simp] theorem takeSnapshot_result1 (w : Word) (s : State) : (takeSnapshot w s).result1 = s.result1 := rfl
@[simp] theorem takeSnapshot_fsm (w : Word) (s : State) : (takeSnapshot w s).fsm = s.fsm := rfl
@[simp] theorem takeSnapshot_progress (w : Word) (s : State) : (takeSnapshot w s).progress = 0 := rfl
@[simp] theorem takeSnapshot_snap (w : Word) (s : State) : (takeSnapshot w s).snap = ⟨w, s.params⟩ := rfl
@[simp] theorem takeSnapshot_scratch (w : Word) (s : State) : (takeSnapshot w s).scratch = s.scratch := rfl
@[simp] theorem takeSnapshot_mem (w : Word) (s : State) : (takeSnapshot w s).mem = s.mem := rfl
@[simp] theorem takeSnapshot_regBase (w : Word) (s : State) : (takeSnapshot w s).regBase = s.regBase := rfl
@[simp] theorem takeSnapshot_regions (w : Word) (s : State) : (takeSnapshot w s).regions = s.regions := rfl
@[simp] theorem takeSnapshot_host (w : Word) (s : State) : (takeSnapshot w s).host = s.host := rfl
@[simp] theorem takeSnapshot_sched (w : Word) (s : State) : (takeSnapshot w s).sched = s.sched := rfl
@[simp] theorem takeSnapshot_taint (w : Word) (s : State) : (takeSnapshot w s).taint = Taint.clear := rfl
@[simp] theorem takeSnapshot_start (w : Word) (s : State) : (takeSnapshot w s).start = s.start := rfl
@[simp] theorem takeSnapshot_inFlight (w : Word) (s : State) : (takeSnapshot w s).inFlight = s.inFlight := rfl
@[simp] theorem takeSnapshot_draws (w : Word) (s : State) : (takeSnapshot w s).draws = s.draws := rfl

/-! ### startCommand -/

@[simp] theorem startCommand_params (i : Instr) (s : State) : (startCommand i s).params = s.params := rfl
@[simp] theorem startCommand_irqEn (i : Instr) (s : State) : (startCommand i s).irqEn = s.irqEn := rfl
@[simp] theorem startCommand_done (i : Instr) (s : State) : (startCommand i s).done = s.done := rfl
@[simp] theorem startCommand_err (i : Instr) (s : State) : (startCommand i s).err = s.err := rfl
@[simp] theorem startCommand_ovr (i : Instr) (s : State) : (startCommand i s).ovr = s.ovr := rfl
@[simp] theorem startCommand_errCode (i : Instr) (s : State) : (startCommand i s).errCode = s.errCode := rfl
@[simp] theorem startCommand_result0 (i : Instr) (s : State) : (startCommand i s).result0 = s.result0 := rfl
@[simp] theorem startCommand_result1 (i : Instr) (s : State) : (startCommand i s).result1 = s.result1 := rfl
@[simp] theorem startCommand_fsm (i : Instr) (s : State) : (startCommand i s).fsm = .busy i := rfl
@[simp] theorem startCommand_progress (i : Instr) (s : State) : (startCommand i s).progress = s.progress := rfl
@[simp] theorem startCommand_snap (i : Instr) (s : State) : (startCommand i s).snap = s.snap := rfl
@[simp] theorem startCommand_scratch (i : Instr) (s : State) : (startCommand i s).scratch = s.scratch := rfl
@[simp] theorem startCommand_mem (i : Instr) (s : State) : (startCommand i s).mem = s.mem := rfl
@[simp] theorem startCommand_regBase (i : Instr) (s : State) : (startCommand i s).regBase = s.regBase := rfl
@[simp] theorem startCommand_regions (i : Instr) (s : State) : (startCommand i s).regions = s.regions := rfl
@[simp] theorem startCommand_host (i : Instr) (s : State) : (startCommand i s).host = s.host := rfl
@[simp] theorem startCommand_sched (i : Instr) (s : State) : (startCommand i s).sched = s.sched := rfl
@[simp] theorem startCommand_taint (i : Instr) (s : State) : (startCommand i s).taint = s.taint := rfl
@[simp] theorem startCommand_start (i : Instr) (s : State) : (startCommand i s).start = ⟨s.mem, s.draws⟩ := rfl
@[simp] theorem startCommand_inFlight (i : Instr) (s : State) : (startCommand i s).inFlight = s.inFlight := rfl
@[simp] theorem startCommand_draws (i : Instr) (s : State) : (startCommand i s).draws = s.draws := rfl

/-! ### raiseError -/

@[simp] theorem raiseError_params (e : ErrCode) (s : State) : (raiseError e s).params = s.params := rfl
@[simp] theorem raiseError_irqEn (e : ErrCode) (s : State) : (raiseError e s).irqEn = s.irqEn := rfl
@[simp] theorem raiseError_done (e : ErrCode) (s : State) : (raiseError e s).done = true := rfl
@[simp] theorem raiseError_err (e : ErrCode) (s : State) : (raiseError e s).err = true := rfl
@[simp] theorem raiseError_ovr (e : ErrCode) (s : State) : (raiseError e s).ovr = s.ovr := rfl
@[simp] theorem raiseError_errCode (e : ErrCode) (s : State) : (raiseError e s).errCode = e := rfl
@[simp] theorem raiseError_result0 (e : ErrCode) (s : State) : (raiseError e s).result0 = s.result0 := rfl
@[simp] theorem raiseError_result1 (e : ErrCode) (s : State) : (raiseError e s).result1 = s.result1 := rfl
@[simp] theorem raiseError_fsm (e : ErrCode) (s : State) : (raiseError e s).fsm = .idle := rfl
@[simp] theorem raiseError_progress (e : ErrCode) (s : State) : (raiseError e s).progress = 0 := rfl
@[simp] theorem raiseError_snap (e : ErrCode) (s : State) : (raiseError e s).snap = s.snap := rfl
@[simp] theorem raiseError_scratch (e : ErrCode) (s : State) : (raiseError e s).scratch = s.scratch := rfl
@[simp] theorem raiseError_mem (e : ErrCode) (s : State) : (raiseError e s).mem = s.mem := rfl
@[simp] theorem raiseError_regBase (e : ErrCode) (s : State) : (raiseError e s).regBase = s.regBase := rfl
@[simp] theorem raiseError_regions (e : ErrCode) (s : State) : (raiseError e s).regions = s.regions := rfl
@[simp] theorem raiseError_host (e : ErrCode) (s : State) : (raiseError e s).host = s.host := rfl
@[simp] theorem raiseError_sched (e : ErrCode) (s : State) : (raiseError e s).sched = s.sched := rfl
@[simp] theorem raiseError_taint (e : ErrCode) (s : State) : (raiseError e s).taint = s.taint := rfl
@[simp] theorem raiseError_start (e : ErrCode) (s : State) : (raiseError e s).start = Start.none := rfl
@[simp] theorem raiseError_inFlight (e : ErrCode) (s : State) : (raiseError e s).inFlight = s.inFlight := rfl
@[simp] theorem raiseError_draws (e : ErrCode) (s : State) : (raiseError e s).draws = s.draws := rfl

/-! ### complete -/

@[simp] theorem complete_params (s : State) : (complete s).params = s.params := rfl
@[simp] theorem complete_irqEn (s : State) : (complete s).irqEn = s.irqEn := rfl
@[simp] theorem complete_done (s : State) : (complete s).done = true := rfl
@[simp] theorem complete_err (s : State) : (complete s).err = s.err := rfl
@[simp] theorem complete_ovr (s : State) : (complete s).ovr = s.ovr := rfl
@[simp] theorem complete_errCode (s : State) : (complete s).errCode = s.errCode := rfl
@[simp] theorem complete_result0 (s : State) : (complete s).result0 = s.result0 := rfl
@[simp] theorem complete_result1 (s : State) : (complete s).result1 = s.result1 := rfl
@[simp] theorem complete_fsm (s : State) : (complete s).fsm = .idle := rfl
@[simp] theorem complete_progress (s : State) : (complete s).progress = 0 := rfl
@[simp] theorem complete_snap (s : State) : (complete s).snap = s.snap := rfl
@[simp] theorem complete_scratch (s : State) : (complete s).scratch = s.scratch := rfl
@[simp] theorem complete_mem (s : State) : (complete s).mem = s.mem := rfl
@[simp] theorem complete_regBase (s : State) : (complete s).regBase = s.regBase := rfl
@[simp] theorem complete_regions (s : State) : (complete s).regions = s.regions := rfl
@[simp] theorem complete_host (s : State) : (complete s).host = s.host := rfl
@[simp] theorem complete_sched (s : State) : (complete s).sched = s.sched := rfl
@[simp] theorem complete_taint (s : State) : (complete s).taint = s.taint := rfl
@[simp] theorem complete_start (s : State) : (complete s).start = Start.none := rfl
@[simp] theorem complete_inFlight (s : State) : (complete s).inFlight = s.inFlight := rfl
@[simp] theorem complete_draws (s : State) : (complete s).draws = s.draws := rfl

/-! ### setResults -/

@[simp] theorem setResults_params (a b : Word) (s : State) : (setResults a b s).params = s.params := rfl
@[simp] theorem setResults_irqEn (a b : Word) (s : State) : (setResults a b s).irqEn = s.irqEn := rfl
@[simp] theorem setResults_done (a b : Word) (s : State) : (setResults a b s).done = s.done := rfl
@[simp] theorem setResults_err (a b : Word) (s : State) : (setResults a b s).err = s.err := rfl
@[simp] theorem setResults_ovr (a b : Word) (s : State) : (setResults a b s).ovr = s.ovr := rfl
@[simp] theorem setResults_errCode (a b : Word) (s : State) : (setResults a b s).errCode = s.errCode := rfl
@[simp] theorem setResults_result0 (a b : Word) (s : State) : (setResults a b s).result0 = a := rfl
@[simp] theorem setResults_result1 (a b : Word) (s : State) : (setResults a b s).result1 = b := rfl
@[simp] theorem setResults_fsm (a b : Word) (s : State) : (setResults a b s).fsm = s.fsm := rfl
@[simp] theorem setResults_progress (a b : Word) (s : State) : (setResults a b s).progress = s.progress := rfl
@[simp] theorem setResults_snap (a b : Word) (s : State) : (setResults a b s).snap = s.snap := rfl
@[simp] theorem setResults_scratch (a b : Word) (s : State) : (setResults a b s).scratch = s.scratch := rfl
@[simp] theorem setResults_mem (a b : Word) (s : State) : (setResults a b s).mem = s.mem := rfl
@[simp] theorem setResults_regBase (a b : Word) (s : State) : (setResults a b s).regBase = s.regBase := rfl
@[simp] theorem setResults_regions (a b : Word) (s : State) : (setResults a b s).regions = s.regions := rfl
@[simp] theorem setResults_host (a b : Word) (s : State) : (setResults a b s).host = s.host := rfl
@[simp] theorem setResults_sched (a b : Word) (s : State) : (setResults a b s).sched = s.sched := rfl
@[simp] theorem setResults_taint (a b : Word) (s : State) : (setResults a b s).taint = s.taint := rfl
@[simp] theorem setResults_start (a b : Word) (s : State) : (setResults a b s).start = s.start := rfl
@[simp] theorem setResults_inFlight (a b : Word) (s : State) : (setResults a b s).inFlight = s.inFlight := rfl
@[simp] theorem setResults_draws (a b : Word) (s : State) : (setResults a b s).draws = s.draws := rfl

/-! ### dropCommand -/

@[simp] theorem dropCommand_params (s : State) : (dropCommand s).params = s.params := rfl
@[simp] theorem dropCommand_irqEn (s : State) : (dropCommand s).irqEn = s.irqEn := rfl
@[simp] theorem dropCommand_done (s : State) : (dropCommand s).done = s.done := rfl
@[simp] theorem dropCommand_err (s : State) : (dropCommand s).err = s.err := rfl
@[simp] theorem dropCommand_ovr (s : State) : (dropCommand s).ovr = true := rfl
@[simp] theorem dropCommand_errCode (s : State) : (dropCommand s).errCode = s.errCode := rfl
@[simp] theorem dropCommand_result0 (s : State) : (dropCommand s).result0 = s.result0 := rfl
@[simp] theorem dropCommand_result1 (s : State) : (dropCommand s).result1 = s.result1 := rfl
@[simp] theorem dropCommand_fsm (s : State) : (dropCommand s).fsm = s.fsm := rfl
@[simp] theorem dropCommand_progress (s : State) : (dropCommand s).progress = s.progress := rfl
@[simp] theorem dropCommand_snap (s : State) : (dropCommand s).snap = s.snap := rfl
@[simp] theorem dropCommand_scratch (s : State) : (dropCommand s).scratch = s.scratch := rfl
@[simp] theorem dropCommand_mem (s : State) : (dropCommand s).mem = s.mem := rfl
@[simp] theorem dropCommand_regBase (s : State) : (dropCommand s).regBase = s.regBase := rfl
@[simp] theorem dropCommand_regions (s : State) : (dropCommand s).regions = s.regions := rfl
@[simp] theorem dropCommand_host (s : State) : (dropCommand s).host = s.host := rfl
@[simp] theorem dropCommand_sched (s : State) : (dropCommand s).sched = s.sched := rfl
@[simp] theorem dropCommand_taint (s : State) : (dropCommand s).taint = s.taint := rfl
@[simp] theorem dropCommand_start (s : State) : (dropCommand s).start = s.start := rfl
@[simp] theorem dropCommand_inFlight (s : State) : (dropCommand s).inFlight = s.inFlight := rfl
@[simp] theorem dropCommand_draws (s : State) : (dropCommand s).draws = s.draws := rfl

/-! ### bumpDraws -/

@[simp] theorem bumpDraws_params (s : State) : (bumpDraws s).params = s.params := rfl
@[simp] theorem bumpDraws_irqEn (s : State) : (bumpDraws s).irqEn = s.irqEn := rfl
@[simp] theorem bumpDraws_done (s : State) : (bumpDraws s).done = s.done := rfl
@[simp] theorem bumpDraws_err (s : State) : (bumpDraws s).err = s.err := rfl
@[simp] theorem bumpDraws_ovr (s : State) : (bumpDraws s).ovr = s.ovr := rfl
@[simp] theorem bumpDraws_errCode (s : State) : (bumpDraws s).errCode = s.errCode := rfl
@[simp] theorem bumpDraws_result0 (s : State) : (bumpDraws s).result0 = s.result0 := rfl
@[simp] theorem bumpDraws_result1 (s : State) : (bumpDraws s).result1 = s.result1 := rfl
@[simp] theorem bumpDraws_fsm (s : State) : (bumpDraws s).fsm = s.fsm := rfl
@[simp] theorem bumpDraws_progress (s : State) : (bumpDraws s).progress = s.progress := rfl
@[simp] theorem bumpDraws_snap (s : State) : (bumpDraws s).snap = s.snap := rfl
@[simp] theorem bumpDraws_scratch (s : State) : (bumpDraws s).scratch = s.scratch := rfl
@[simp] theorem bumpDraws_mem (s : State) : (bumpDraws s).mem = s.mem := rfl
@[simp] theorem bumpDraws_regBase (s : State) : (bumpDraws s).regBase = s.regBase := rfl
@[simp] theorem bumpDraws_regions (s : State) : (bumpDraws s).regions = s.regions := rfl
@[simp] theorem bumpDraws_host (s : State) : (bumpDraws s).host = s.host := rfl
@[simp] theorem bumpDraws_sched (s : State) : (bumpDraws s).sched = s.sched := rfl
@[simp] theorem bumpDraws_taint (s : State) : (bumpDraws s).taint = s.taint := rfl
@[simp] theorem bumpDraws_start (s : State) : (bumpDraws s).start = s.start := rfl
@[simp] theorem bumpDraws_inFlight (s : State) : (bumpDraws s).inFlight = s.inFlight := rfl
@[simp] theorem bumpDraws_draws (s : State) : (bumpDraws s).draws = s.draws + 1 := rfl

/-! ### resetBlock -/

@[simp] theorem resetBlock_params (s : State) : (resetBlock s).params = Params.reset := rfl
@[simp] theorem resetBlock_irqEn (s : State) : (resetBlock s).irqEn = false := rfl
@[simp] theorem resetBlock_done (s : State) : (resetBlock s).done = false := rfl
@[simp] theorem resetBlock_err (s : State) : (resetBlock s).err = false := rfl
@[simp] theorem resetBlock_ovr (s : State) : (resetBlock s).ovr = false := rfl
@[simp] theorem resetBlock_errCode (s : State) : (resetBlock s).errCode = .none := rfl
@[simp] theorem resetBlock_result0 (s : State) : (resetBlock s).result0 = 0#32 := rfl
@[simp] theorem resetBlock_result1 (s : State) : (resetBlock s).result1 = 0#32 := rfl
@[simp] theorem resetBlock_fsm (s : State) : (resetBlock s).fsm = .idle := rfl
@[simp] theorem resetBlock_progress (s : State) : (resetBlock s).progress = 0 := rfl
@[simp] theorem resetBlock_snap (s : State) : (resetBlock s).snap = Snapshot.reset := rfl
@[simp] theorem resetBlock_scratch (s : State) : (resetBlock s).scratch = Scratch.reset := rfl
@[simp] theorem resetBlock_mem (s : State) : (resetBlock s).mem = s.mem := rfl
@[simp] theorem resetBlock_regBase (s : State) : (resetBlock s).regBase = s.regBase := rfl
@[simp] theorem resetBlock_regions (s : State) : (resetBlock s).regions = s.regions := rfl
@[simp] theorem resetBlock_host (s : State) : (resetBlock s).host = s.host := rfl
@[simp] theorem resetBlock_sched (s : State) : (resetBlock s).sched = s.sched := rfl
@[simp] theorem resetBlock_taint (s : State) : (resetBlock s).taint = Taint.clear := rfl
@[simp] theorem resetBlock_start (s : State) : (resetBlock s).start = Start.none := rfl
@[simp] theorem resetBlock_inFlight (s : State) : (resetBlock s).inFlight = s.inFlight := rfl
@[simp] theorem resetBlock_draws (s : State) : (resetBlock s).draws = s.draws := rfl

/-! ### jumpTo -/

@[simp] theorem jumpTo_params (k : Nat) (s : State) : (jumpTo k s).params = s.params := rfl
@[simp] theorem jumpTo_irqEn (k : Nat) (s : State) : (jumpTo k s).irqEn = s.irqEn := rfl
@[simp] theorem jumpTo_done (k : Nat) (s : State) : (jumpTo k s).done = s.done := rfl
@[simp] theorem jumpTo_err (k : Nat) (s : State) : (jumpTo k s).err = s.err := rfl
@[simp] theorem jumpTo_ovr (k : Nat) (s : State) : (jumpTo k s).ovr = s.ovr := rfl
@[simp] theorem jumpTo_errCode (k : Nat) (s : State) : (jumpTo k s).errCode = s.errCode := rfl
@[simp] theorem jumpTo_result0 (k : Nat) (s : State) : (jumpTo k s).result0 = s.result0 := rfl
@[simp] theorem jumpTo_result1 (k : Nat) (s : State) : (jumpTo k s).result1 = s.result1 := rfl
@[simp] theorem jumpTo_fsm (k : Nat) (s : State) : (jumpTo k s).fsm = s.fsm := rfl
@[simp] theorem jumpTo_progress (k : Nat) (s : State) : (jumpTo k s).progress = s.progress := rfl
@[simp] theorem jumpTo_snap (k : Nat) (s : State) : (jumpTo k s).snap = s.snap := rfl
@[simp] theorem jumpTo_scratch (k : Nat) (s : State) : (jumpTo k s).scratch = s.scratch := rfl
@[simp] theorem jumpTo_mem (k : Nat) (s : State) : (jumpTo k s).mem = s.mem := rfl
@[simp] theorem jumpTo_regBase (k : Nat) (s : State) : (jumpTo k s).regBase = s.regBase := rfl
@[simp] theorem jumpTo_regions (k : Nat) (s : State) : (jumpTo k s).regions = s.regions := rfl
@[simp] theorem jumpTo_host (k : Nat) (s : State) : (jumpTo k s).host = ⟨s.host.prog, k, s.host.names⟩ := rfl
@[simp] theorem jumpTo_sched (k : Nat) (s : State) : (jumpTo k s).sched = s.sched := rfl
@[simp] theorem jumpTo_taint (k : Nat) (s : State) : (jumpTo k s).taint = s.taint := rfl
@[simp] theorem jumpTo_start (k : Nat) (s : State) : (jumpTo k s).start = s.start := rfl
@[simp] theorem jumpTo_inFlight (k : Nat) (s : State) : (jumpTo k s).inFlight = s.inFlight := rfl
@[simp] theorem jumpTo_draws (k : Nat) (s : State) : (jumpTo k s).draws = s.draws := rfl

/-! ### advanceHost -/

@[simp] theorem advanceHost_params (s : State) : (advanceHost s).params = s.params := rfl
@[simp] theorem advanceHost_irqEn (s : State) : (advanceHost s).irqEn = s.irqEn := rfl
@[simp] theorem advanceHost_done (s : State) : (advanceHost s).done = s.done := rfl
@[simp] theorem advanceHost_err (s : State) : (advanceHost s).err = s.err := rfl
@[simp] theorem advanceHost_ovr (s : State) : (advanceHost s).ovr = s.ovr := rfl
@[simp] theorem advanceHost_errCode (s : State) : (advanceHost s).errCode = s.errCode := rfl
@[simp] theorem advanceHost_result0 (s : State) : (advanceHost s).result0 = s.result0 := rfl
@[simp] theorem advanceHost_result1 (s : State) : (advanceHost s).result1 = s.result1 := rfl
@[simp] theorem advanceHost_fsm (s : State) : (advanceHost s).fsm = s.fsm := rfl
@[simp] theorem advanceHost_progress (s : State) : (advanceHost s).progress = s.progress := rfl
@[simp] theorem advanceHost_snap (s : State) : (advanceHost s).snap = s.snap := rfl
@[simp] theorem advanceHost_scratch (s : State) : (advanceHost s).scratch = s.scratch := rfl
@[simp] theorem advanceHost_mem (s : State) : (advanceHost s).mem = s.mem := rfl
@[simp] theorem advanceHost_regBase (s : State) : (advanceHost s).regBase = s.regBase := rfl
@[simp] theorem advanceHost_regions (s : State) : (advanceHost s).regions = s.regions := rfl
@[simp] theorem advanceHost_host (s : State) : (advanceHost s).host = ⟨s.host.prog, s.host.pc + 1, s.host.names⟩ := rfl
@[simp] theorem advanceHost_sched (s : State) : (advanceHost s).sched = s.sched := rfl
@[simp] theorem advanceHost_taint (s : State) : (advanceHost s).taint = s.taint := rfl
@[simp] theorem advanceHost_start (s : State) : (advanceHost s).start = s.start := rfl
@[simp] theorem advanceHost_inFlight (s : State) : (advanceHost s).inFlight = s.inFlight := rfl
@[simp] theorem advanceHost_draws (s : State) : (advanceHost s).draws = s.draws := rfl

/-! ### bindName -/

@[simp] theorem bindName_params (n : Nat) (v : Word) (s : State) : (bindName n v s).params = s.params := rfl
@[simp] theorem bindName_irqEn (n : Nat) (v : Word) (s : State) : (bindName n v s).irqEn = s.irqEn := rfl
@[simp] theorem bindName_done (n : Nat) (v : Word) (s : State) : (bindName n v s).done = s.done := rfl
@[simp] theorem bindName_err (n : Nat) (v : Word) (s : State) : (bindName n v s).err = s.err := rfl
@[simp] theorem bindName_ovr (n : Nat) (v : Word) (s : State) : (bindName n v s).ovr = s.ovr := rfl
@[simp] theorem bindName_errCode (n : Nat) (v : Word) (s : State) : (bindName n v s).errCode = s.errCode := rfl
@[simp] theorem bindName_result0 (n : Nat) (v : Word) (s : State) : (bindName n v s).result0 = s.result0 := rfl
@[simp] theorem bindName_result1 (n : Nat) (v : Word) (s : State) : (bindName n v s).result1 = s.result1 := rfl
@[simp] theorem bindName_fsm (n : Nat) (v : Word) (s : State) : (bindName n v s).fsm = s.fsm := rfl
@[simp] theorem bindName_progress (n : Nat) (v : Word) (s : State) : (bindName n v s).progress = s.progress := rfl
@[simp] theorem bindName_snap (n : Nat) (v : Word) (s : State) : (bindName n v s).snap = s.snap := rfl
@[simp] theorem bindName_scratch (n : Nat) (v : Word) (s : State) : (bindName n v s).scratch = s.scratch := rfl
@[simp] theorem bindName_mem (n : Nat) (v : Word) (s : State) : (bindName n v s).mem = s.mem := rfl
@[simp] theorem bindName_regBase (n : Nat) (v : Word) (s : State) : (bindName n v s).regBase = s.regBase := rfl
@[simp] theorem bindName_regions (n : Nat) (v : Word) (s : State) : (bindName n v s).regions = s.regions := rfl
@[simp] theorem bindName_host (n : Nat) (v : Word) (s : State) : (bindName n v s).host = ⟨s.host.prog, s.host.pc, (n, v) :: s.host.names.filter fun b => b.1 != n⟩ := rfl
@[simp] theorem bindName_sched (n : Nat) (v : Word) (s : State) : (bindName n v s).sched = s.sched := rfl
@[simp] theorem bindName_taint (n : Nat) (v : Word) (s : State) : (bindName n v s).taint = s.taint := rfl
@[simp] theorem bindName_start (n : Nat) (v : Word) (s : State) : (bindName n v s).start = s.start := rfl
@[simp] theorem bindName_inFlight (n : Nat) (v : Word) (s : State) : (bindName n v s).inFlight = s.inFlight := rfl
@[simp] theorem bindName_draws (n : Nat) (v : Word) (s : State) : (bindName n v s).draws = s.draws := rfl

/-! ### placeCommand -/

@[simp] theorem placeCommand_params (w : Word) (s : State) : (placeCommand w s).params = s.params := rfl
@[simp] theorem placeCommand_irqEn (w : Word) (s : State) : (placeCommand w s).irqEn = s.irqEn := rfl
@[simp] theorem placeCommand_done (w : Word) (s : State) : (placeCommand w s).done = s.done := rfl
@[simp] theorem placeCommand_err (w : Word) (s : State) : (placeCommand w s).err = s.err := rfl
@[simp] theorem placeCommand_ovr (w : Word) (s : State) : (placeCommand w s).ovr = s.ovr := rfl
@[simp] theorem placeCommand_errCode (w : Word) (s : State) : (placeCommand w s).errCode = s.errCode := rfl
@[simp] theorem placeCommand_result0 (w : Word) (s : State) : (placeCommand w s).result0 = s.result0 := rfl
@[simp] theorem placeCommand_result1 (w : Word) (s : State) : (placeCommand w s).result1 = s.result1 := rfl
@[simp] theorem placeCommand_fsm (w : Word) (s : State) : (placeCommand w s).fsm = s.fsm := rfl
@[simp] theorem placeCommand_progress (w : Word) (s : State) : (placeCommand w s).progress = s.progress := rfl
@[simp] theorem placeCommand_snap (w : Word) (s : State) : (placeCommand w s).snap = s.snap := rfl
@[simp] theorem placeCommand_scratch (w : Word) (s : State) : (placeCommand w s).scratch = s.scratch := rfl
@[simp] theorem placeCommand_mem (w : Word) (s : State) : (placeCommand w s).mem = s.mem := rfl
@[simp] theorem placeCommand_regBase (w : Word) (s : State) : (placeCommand w s).regBase = s.regBase := rfl
@[simp] theorem placeCommand_regions (w : Word) (s : State) : (placeCommand w s).regions = s.regions := rfl
@[simp] theorem placeCommand_host (w : Word) (s : State) : (placeCommand w s).host = ⟨cmdProgram w, 0, s.host.names⟩ := rfl
@[simp] theorem placeCommand_sched (w : Word) (s : State) : (placeCommand w s).sched = [.host] := rfl
@[simp] theorem placeCommand_taint (w : Word) (s : State) : (placeCommand w s).taint = s.taint := rfl
@[simp] theorem placeCommand_start (w : Word) (s : State) : (placeCommand w s).start = s.start := rfl
@[simp] theorem placeCommand_inFlight (w : Word) (s : State) : (placeCommand w s).inFlight = s.inFlight := rfl
@[simp] theorem placeCommand_draws (w : Word) (s : State) : (placeCommand w s).draws = s.draws := rfl

/-! ### writeStatus -/

@[simp] theorem writeStatus_params (v : Word) (s : State) : (writeStatus v s).params = s.params := rfl
@[simp] theorem writeStatus_irqEn (v : Word) (s : State) : (writeStatus v s).irqEn = s.irqEn := rfl
@[simp] theorem writeStatus_done (v : Word) (s : State) : (writeStatus v s).done = (s.done && !v.getLsbD 1) := rfl
@[simp] theorem writeStatus_err (v : Word) (s : State) : (writeStatus v s).err = (s.err && !v.getLsbD 2) := rfl
@[simp] theorem writeStatus_ovr (v : Word) (s : State) : (writeStatus v s).ovr = (s.ovr && !v.getLsbD 3) := rfl
@[simp] theorem writeStatus_errCode (v : Word) (s : State) : (writeStatus v s).errCode = if v.getLsbD 2 then .none else s.errCode := rfl
@[simp] theorem writeStatus_result0 (v : Word) (s : State) : (writeStatus v s).result0 = s.result0 := rfl
@[simp] theorem writeStatus_result1 (v : Word) (s : State) : (writeStatus v s).result1 = s.result1 := rfl
@[simp] theorem writeStatus_fsm (v : Word) (s : State) : (writeStatus v s).fsm = s.fsm := rfl
@[simp] theorem writeStatus_progress (v : Word) (s : State) : (writeStatus v s).progress = s.progress := rfl
@[simp] theorem writeStatus_snap (v : Word) (s : State) : (writeStatus v s).snap = s.snap := rfl
@[simp] theorem writeStatus_scratch (v : Word) (s : State) : (writeStatus v s).scratch = s.scratch := rfl
@[simp] theorem writeStatus_mem (v : Word) (s : State) : (writeStatus v s).mem = s.mem := rfl
@[simp] theorem writeStatus_regBase (v : Word) (s : State) : (writeStatus v s).regBase = s.regBase := rfl
@[simp] theorem writeStatus_regions (v : Word) (s : State) : (writeStatus v s).regions = s.regions := rfl
@[simp] theorem writeStatus_host (v : Word) (s : State) : (writeStatus v s).host = s.host := rfl
@[simp] theorem writeStatus_sched (v : Word) (s : State) : (writeStatus v s).sched = s.sched := rfl
@[simp] theorem writeStatus_taint (v : Word) (s : State) : (writeStatus v s).taint = s.taint := rfl
@[simp] theorem writeStatus_start (v : Word) (s : State) : (writeStatus v s).start = s.start := rfl
@[simp] theorem writeStatus_inFlight (v : Word) (s : State) : (writeStatus v s).inFlight = s.inFlight := rfl
@[simp] theorem writeStatus_draws (v : Word) (s : State) : (writeStatus v s).draws = s.draws := rfl

end Sys2Proof.Machine
end

