-- ==== Sys2Proof/Laws/Lifecycle.lean ====
section
/-! SUPPORT. What presenting a command and running one can do: one lemma per shared operation, each saying everything it
can answer. -/
namespace Sys2Proof.Machine

/-! ### Presenting a command (R250, R251) -/

theorem exec_eq_present (i : Instr) (s : State) : exec i s = present i (perform i) s := by cases i <;> rfl

/-- Presenting a command: dropped, rejected, run to its end, or left BUSY. -/
theorem exec_cases (i : Instr) (s : State) :
    (∃ c, s.fsm = .busy c ∧ exec i s = .next (dropCommand s)) ∨
    (s.fsm = .idle ∧ acceptCheck i s.params ≠ .none ∧
      exec i s = .next (raiseError (acceptCheck i s.params) (takeSnapshot (encode i) s))) ∨
    (s.fsm = .idle ∧ acceptCheck i s.params = .none ∧ s.sched = [] ∧ exec i s = perform i (accepted i s)) ∨
    (s.fsm = .idle ∧ acceptCheck i s.params = .none ∧ s.sched ≠ [] ∧ exec i s = .next (accepted i s)) := by
  rw [exec_eq_present]
  unfold present
  cases hf : s.fsm with
  | busy c => exact .inl ⟨c, rfl, rfl⟩
  | idle =>
    right
    cases ha : acceptCheck i s.params with
    | none =>
      right
      by_cases hs : s.sched = []
      · exact .inl ⟨rfl, rfl, hs, by simp [hs, accepted]⟩
      · exact .inr ⟨rfl, rfl, hs, by simp [hs, accepted]⟩
    | illegalCmd => exact .inl ⟨rfl, by simp, rfl⟩
    | badFormat => exact .inl ⟨rfl, by simp, rfl⟩
    | badKind => exact .inl ⟨rfl, by simp, rfl⟩
    | badGeometry => exact .inl ⟨rfl, by simp, rfl⟩
    | misaligned => exact .inl ⟨rfl, by simp, rfl⟩
    | passDisabled => exact .inl ⟨rfl, by simp, rfl⟩
    | busError => exact .inl ⟨rfl, by simp, rfl⟩

theorem exec_busy (i c : Instr) (s : State) (h : s.fsm = .busy c) : exec i s = .next (dropCommand s) := by
  rw [exec_eq_present, present, h]

/-- An accepted command with nothing scheduled runs to its end (R250, log entry 4). -/
theorem exec_ready (i : Instr) (s : State) (h : readyFor s) (ha : acceptCheck i s.params = .none) :
    exec i s = perform i (accepted i s) := by
  rw [exec_eq_present, present, h.1]
  simp [ha, h.2, accepted]

/-- An accepted command with a schedule left is BUSY (R250, log entry 4). -/
theorem exec_held (i : Instr) (s : State) (h : s.fsm = .idle) (hs : s.sched ≠ [])
    (ha : acceptCheck i s.params = .none) : exec i s = .next (accepted i s) := by
  rw [exec_eq_present, present, h]
  simp [ha, hs, accepted]

/-! ### The state in which an accepted command runs -/

@[simp] theorem accepted_params (i : Instr) (s : State) : (accepted i s).params = s.params := rfl
@[simp] theorem accepted_irqEn (i : Instr) (s : State) : (accepted i s).irqEn = s.irqEn := rfl
@[simp] theorem accepted_done (i : Instr) (s : State) : (accepted i s).done = false := rfl
@[simp] theorem accepted_err (i : Instr) (s : State) : (accepted i s).err = false := rfl
@[simp] theorem accepted_ovr (i : Instr) (s : State) : (accepted i s).ovr = s.ovr := rfl
@[simp] theorem accepted_errCode (i : Instr) (s : State) : (accepted i s).errCode = .none := rfl
@[simp] theorem accepted_result0 (i : Instr) (s : State) : (accepted i s).result0 = s.result0 := rfl
@[simp] theorem accepted_result1 (i : Instr) (s : State) : (accepted i s).result1 = s.result1 := rfl
@[simp] theorem accepted_fsm (i : Instr) (s : State) : (accepted i s).fsm = .busy i := rfl
@[simp] theorem accepted_progress (i : Instr) (s : State) : (accepted i s).progress = 0 := rfl
@[simp] theorem accepted_snap (i : Instr) (s : State) : (accepted i s).snap = ⟨encode i, s.params⟩ := rfl
@[simp] theorem accepted_scratch (i : Instr) (s : State) : (accepted i s).scratch = s.scratch := rfl
@[simp] theorem accepted_mem (i : Instr) (s : State) : (accepted i s).mem = s.mem := rfl
@[simp] theorem accepted_regBase (i : Instr) (s : State) : (accepted i s).regBase = s.regBase := rfl
@[simp] theorem accepted_regions (i : Instr) (s : State) : (accepted i s).regions = s.regions := rfl
@[simp] theorem accepted_host (i : Instr) (s : State) : (accepted i s).host = s.host := rfl
@[simp] theorem accepted_sched (i : Instr) (s : State) : (accepted i s).sched = s.sched := rfl
@[simp] theorem accepted_taint (i : Instr) (s : State) : (accepted i s).taint = Taint.clear := rfl
@[simp] theorem accepted_start (i : Instr) (s : State) : (accepted i s).start = ⟨s.mem, s.draws⟩ := rfl
@[simp] theorem accepted_inFlight (i : Instr) (s : State) : (accepted i s).inFlight = s.inFlight := rfl
@[simp] theorem accepted_draws (i : Instr) (s : State) : (accepted i s).draws = s.draws := rfl

/-! ### One unit (R82, R253) -/

/-- Every container written lies in the unit rectangle and has its size. -/
def storesIn (p : Params) (bd : BitDepth) (u : UnitRect) (sts : List Store) : Prop :=
  ∀ st ∈ sts, ∃ i j, i < u.h ∧ j < u.w ∧ st.addr = dstAddr p bd u i j ∧ st.bytes.length = bd.sampleBytes

theorem storesIn_unitStores (p : Params) (bd : BitDepth) (u : UnitRect) (v : Nat → Nat → Int) :
    storesIn p bd u (unitStores p bd u v) := by
  intro st hst
  obtain ⟨i, j, hi, hj, rfl⟩ := (mem_unitStores p bd u v st).mp hst
  exact ⟨i, j, hi, hj, rfl, by simp⟩

theorem looseBytes_length (d a k : Nat) : (looseBytes d a k).length = k := by simp [looseBytes]

theorem storesIn_unitWrites (rec : UnitRecord) (p : Params) (bd : BitDepth) (u : UnitRect) (loose : Bool) (s : State) :
    storesIn p bd u (unitWrites rec p bd u loose s) := by
  unfold unitWrites
  split
  · intro st hst
    obtain ⟨st', hst', rfl⟩ := List.mem_map.mp hst
    obtain ⟨i, j, hi, hj, ha, hl⟩ := storesIn_unitStores p bd u _ st' hst'
    exact ⟨i, j, hi, hj, ha, by simp [looseBytes_length, hl]⟩
  · exact storesIn_unitStores p bd u _

theorem storesIn_filter (p : Params) (bd : BitDepth) (u : UnitRect) (sts : List Store) (g : Store → Bool)
    (h : storesIn p bd u sts) : storesIn p bd u (sts.filter g) :=
  fun st hst => h st (List.mem_of_mem_filter hst)

theorem storesIn.outside {p : Params} {bd : BitDepth} {u : UnitRect} {sts : List Store} (h : storesIn p bd u sts)
    (a : Nat) (ha : ¬ unitDestByte p bd u a) : outsideStores sts a := by
  intro st hst
  obtain ⟨i, j, hi, hj, h1, h2⟩ := h st hst
  by_contra hc
  exact ha ⟨i, j, hi, hj, by omega, by omega⟩

theorem storesIn.bounded {p : Params} {bd : BitDepth} {u : UnitRect} {sts : List Store} (h : storesIn p bd u sts)
    (hp : PlaneOK p.dstBase p.dstStride bd (planeW p) (planeH p)) (hu : UnitInPlane p u) :
    ∀ st ∈ sts, st.addr + st.bytes.length ≤ memorySize := by
  intro st hst
  obtain ⟨i, j, hi, hj, h1, h2⟩ := h st hst
  rw [h1, h2]
  exact dstAddr_end_le p bd u hp hu i j hi hj

/-- What a change confined to scratch, memory and the draw counter may do, given the bytes it may write. -/
structure MemoryOnly (P : Nat → Prop) (s t : State) : Prop where
  fields : t = { s with scratch := t.scratch, mem := t.mem, draws := t.draws }
  outside : ∀ a, ¬ P a → t.mem.read a = s.mem.read a
  wf : s.mem.wf → t.mem.wf

theorem MemoryOnly.refl (P : Nat → Prop) (s : State) : MemoryOnly P s s := ⟨rfl, fun _ _ => rfl, id⟩

theorem MemoryOnly.trans {P : Nat → Prop} {s t u : State} (h1 : MemoryOnly P s t) (h2 : MemoryOnly P t u) :
    MemoryOnly P s u := by
  refine ⟨?_, fun a ha => (h2.outside a ha).trans (h1.outside a ha), fun h => h2.wf (h1.wf h)⟩
  have e2 := h2.fields
  rw [h1.fields] at e2
  exact e2

theorem MemoryOnly.weaken {P Q : Nat → Prop} {s t : State} (h : MemoryOnly P s t) (hPQ : ∀ a, P a → Q a) :
    MemoryOnly Q s t :=
  ⟨h.fields, fun a ha => h.outside a fun hp => ha (hPQ a hp), h.wf⟩

/-- Everything one unit can do: it changes scratch, the draw counter, and memory inside its destination rectangle; its
only error is BUS_ERROR (R82, R286). -/
theorem filterUnit_spec (rec : UnitRecord) (p : Params) (bd : BitDepth) (u : UnitRect) (loose failed : Bool)
    (s : State) :
    MemoryOnly (unitDestByte p bd u) s (filterUnit rec p bd u loose failed s).2 ∧
      ((filterUnit rec p bd u loose failed s).1 = none ∨ (filterUnit rec p bd u loose failed s).1 = some .busError) ∧
      (PlaneOK p.dstBase p.dstStride bd (planeW p) (planeH p) → UnitInPlane p u → s.mem.bounded →
        (filterUnit rec p bd u loose failed s).2.mem.bounded) := by
  have hin : storesIn p bd u (if failed || unitFails rec p bd u s then
      (unitWrites rec p bd u loose s).filter fun st => Config.landed s.draws st.addr
      else unitWrites rec p bd u loose s) := by
    split
    · exact storesIn_filter _ _ _ _ _ (storesIn_unitWrites rec p bd u loose s)
    · exact storesIn_unitWrites rec p bd u loose s
  refine ⟨⟨rfl, fun a ha => ?_, fun h => Memory.wf_writeStores _ _ h⟩, ?_, fun hp hu hb => ?_⟩
  · exact Memory.read_writeStores_outside _ _ _ (hin.outside a ha)
  · unfold filterUnit
    dsimp only
    split <;> simp
  · exact Memory.bounded_writeStores _ _ hb (hin.bounded hp hu)

/-! ### The end of a command whose concurrency rule is broken (R97, U3) -/

theorem looseDest_in (draw : Nat) (i : Instr) (p : Params) (bd : BitDepth) (st : Store)
    (h : st ∈ looseDest draw i p bd) : ∃ u ∈ destCells i p, storesIn p bd u [st] := by
  obtain ⟨u, hu, hst⟩ := List.mem_flatMap.mp h
  obtain ⟨st', hst', rfl⟩ := List.mem_map.mp hst
  obtain ⟨r, c, hr, hc, ha, hl⟩ := storesIn_unitStores p bd u _ st' hst'
  refine ⟨u, hu, fun st hst => ?_⟩
  cases List.mem_singleton.mp hst
  exact ⟨r, c, hr, hc, ha, by simp [looseBytes_length, hl]⟩

/-- Everything `spoil` can do: free values in the destination containers of the command, and nothing else (R97). -/
theorem spoil_spec (i : Instr) (p : Params) (bd : BitDepth) (s : State) :
    MemoryOnly (fun a => ∃ u ∈ destCells i p, unitDestByte p bd u a) s (spoil i p bd s) ∧
      (PlaneOK p.dstBase p.dstStride bd (planeW p) (planeH p) → (∀ u ∈ destCells i p, UnitInPlane p u) →
        s.mem.bounded → (spoil i p bd s).mem.bounded) := by
  unfold spoil
  split
  · refine ⟨⟨rfl, fun a ha => ?_, fun h => Memory.wf_writeStores _ _ h⟩, fun hp hu hb => ?_⟩
    · refine Memory.read_writeStores_outside _ _ _ fun st hst => ?_
      obtain ⟨u, hu, hin⟩ := looseDest_in _ _ _ _ _ hst
      exact hin.outside a (fun hd => ha ⟨u, hu, hd⟩) st (List.mem_singleton.mpr rfl)
    · refine Memory.bounded_writeStores _ _ hb fun st hst => ?_
      obtain ⟨u, hu', hin⟩ := looseDest_in _ _ _ _ _ hst
      exact hin.bounded hp (hu u hu') st (List.mem_singleton.mpr rfl)
  · exact ⟨MemoryOnly.refl _ s, fun _ _ h => h⟩

@[simp] theorem spoil_clear (i : Instr) (p : Params) (bd : BitDepth) (s : State) (h : s.taint = Taint.clear) :
    spoil i p bd s = s := by simp [spoil, h, Taint.clear, Taint.any]

theorem spoil_kept (i : Instr) (p : Params) (bd : BitDepth) (s : State) (h : s.taint.any = false) :
    spoil i p bd s = s := by simp [spoil, h]

theorem spoil_mem (i : Instr) (p : Params) (bd : BitDepth) (s : State) (h : s.taint.any = true) :
    (spoil i p bd s).mem = s.mem.writeStores (looseDest s.start.draw i p bd) := by simp [spoil, h]

/-! ### The cells of run.plane (R258) -/

theorem readDescriptor_error (p : Params) (k : Nat) (s : State) (e : ErrCode)
    (h : readDescriptor p k s = .error e) : e = .busError ∨ e = .badKind := by
  unfold readDescriptor at h
  simp only at h
  split at h
  · cases h; exact .inl rfl
  · split at h
    · split at h <;> cases h <;> simp
    · cases h

theorem memoryOnly_afterDescriptor (P : Nat → Prop) (p : Params) (k : Nat) (s : State) :
    MemoryOnly P s (afterDescriptor p k s) := by
  unfold afterDescriptor
  split
  · exact ⟨rfl, fun _ _ => rfl, id⟩
  · exact MemoryOnly.refl P s

/-- Everything the cells of run.plane can do (R258). -/
theorem runCells_spec (p : Params) (bd : BitDepth) (loose : Bool) (us : List UnitRect) : ∀ (k : Nat) (s : State),
    MemoryOnly (fun a => ∃ u ∈ us, unitDestByte p bd u a) s (runCells p bd loose k us s).2.2 ∧
      ((runCells p bd loose k us s).1 = none ∧ (runCells p bd loose k us s).2.1 = k + us.length ∨
        ((runCells p bd loose k us s).1 = some .busError ∨ (runCells p bd loose k us s).1 = some .badKind) ∧
          k ≤ (runCells p bd loose k us s).2.1 ∧ (runCells p bd loose k us s).2.1 < k + us.length) ∧
      (PlaneOK p.dstBase p.dstStride bd (planeW p) (planeH p) → (∀ u ∈ us, UnitInPlane p u) → s.mem.bounded →
        (runCells p bd loose k us s).2.2.mem.bounded) := by
  induction us with
  | nil =>
    intro k s
    exact ⟨MemoryOnly.refl _ s, .inl ⟨rfl, rfl⟩, fun _ _ h => h⟩
  | cons u us ih =>
    intro k s
    have hafter := memoryOnly_afterDescriptor (fun a => ∃ v ∈ u :: us, unitDestByte p bd v a) p k s
    have hbafter : s.mem.bounded → (afterDescriptor p k s).mem.bounded := by
      unfold afterDescriptor
      split <;> exact id
    simp only [runCells]
    cases hr : readDescriptor p k s with
    | error e =>
      refine ⟨hafter, .inr ⟨?_, le_refl _, by simp⟩, fun _ _ h => hbafter h⟩
      rcases readDescriptor_error p k s e hr with rfl | rfl <;> simp
    | ok d =>
      obtain ⟨rec, failed⟩ := d
      simp only
      have hf := filterUnit_spec rec p bd u loose failed (afterDescriptor p k s)
      have hone : MemoryOnly (fun a => ∃ v ∈ u :: us, unitDestByte p bd v a) s
          (filterUnit rec p bd u loose failed (afterDescriptor p k s)).2 :=
        hafter.trans (hf.1.weaken fun a ha => ⟨u, List.mem_cons_self .., ha⟩)
      cases hfe : (filterUnit rec p bd u loose failed (afterDescriptor p k s)).1 with
      | some e =>
        refine ⟨hone, .inr ⟨?_, le_refl _, by simp⟩, fun hp hu h => ?_⟩
        · rcases hf.2.1 with h | h
          · rw [hfe] at h; cases h
          · rw [hfe] at h; cases h; simp
        · exact hf.2.2 hp (hu u (List.mem_cons_self ..)) (hbafter h)
      | none =>
        have hi := ih (k + 1) (filterUnit rec p bd u loose failed (afterDescriptor p k s)).2
        simp only
        refine ⟨hone.trans (hi.1.weaken fun a ⟨v, hv, ha⟩ => ⟨v, List.mem_cons_of_mem _ hv, ha⟩), ?_, fun hp hu h => ?_⟩
        · rcases hi.2.1 with ⟨h1, h2⟩ | ⟨h1, h2, h3⟩
          · exact .inl ⟨h1, by rw [h2, List.length_cons]; omega⟩
          · exact .inr ⟨h1, by omega, by rw [List.length_cons]; omega⟩
        · exact hi.2.2 hp (fun v hv => hu v (List.mem_cons_of_mem _ hv))
            (hf.2.2 hp (hu u (List.mem_cons_self ..)) (hbafter h))

end Sys2Proof.Machine
end

