-- ==== Sys2Proof/Laws/Commands.lean ====
section
/-! SUPPORT. What a running command can do: one lemma for all of them, the cells of the grid, and the invariant over one
command. -/
namespace Sys2Proof.Machine

/-! ### The grid (R257) -/

theorem mul_lt_of_lt_ceilDiv (n d k : Nat) (h : k < ceilDiv n d) : k * d < n := by
  unfold ceilDiv at h
  rcases Nat.eq_zero_or_pos d with rfl | hd
  · simp at h
  · have h1 := (Nat.lt_div_iff_mul_lt hd).mp h
    have : k * d < n := by
      by_contra hc
      omega
    exact this

theorem mem_gridCells (p : Params) (u : UnitRect) :
    u ∈ gridCells p ↔ ∃ r c, r < gridRows p ∧ c < gridCols p ∧ u = cellAt p r c := by
  simp only [gridCells, List.mem_flatMap, List.mem_map, List.mem_range]
  constructor
  · rintro ⟨r, hr, c, hc, rfl⟩
    exact ⟨r, c, hr, hc, rfl⟩
  · rintro ⟨r, c, hr, hc, rfl⟩
    exact ⟨r, hr, c, hc, rfl⟩

theorem gridCells_length (p : Params) : (gridCells p).length = cellCount p := by
  unfold gridCells cellCount
  rw [List.length_flatMap]
  simp

/-- Every cell of an accepted grid lies in the plane (R257, R282). -/
theorem gridCells_inPlane (p : Params) (h : gridGroupOK p = true) (u : UnitRect) (hu : u ∈ gridCells p) :
    UnitInPlane p u := by
  obtain ⟨r, c, hr, hc, rfl⟩ := (mem_gridCells p u).mp hu
  have hg := gridGroup_facts p h
  have h1 := mul_lt_of_lt_ceilDiv _ _ _ hr
  have h2 := mul_lt_of_lt_ceilDiv _ _ _ hc
  constructor <;> simp only [cellAt] <;> omega

/-! ### What acceptance gives a command that writes (R281, R282) -/

theorem accepted_runUnit (p : Params) (h : acceptCheck .runUnit p = .none) :
    ∃ bd kind, bitDepth? p.format = some bd ∧ filterKind? p.unitKind = some kind ∧
      UnitInPlane p (unitOf p) ∧ PlaneOK p.srcBase p.srcStride bd (planeW p) (planeH p) ∧
      PlaneOK p.dstBase p.dstStride bd (planeW p) (planeH p) := by
  obtain ⟨hbd, hk, hg, -, -⟩ := acceptCheck_none _ _ h
  obtain ⟨bd, hbd⟩ := hbd rfl
  obtain ⟨kind, hk⟩ := Option.isSome_iff_exists.mp hk
  simp only [geometryOK, Bool.and_eq_true] at hg
  have hu := unitGroup_facts p hg.1.1
  exact ⟨bd, kind, hbd, hk, ⟨hu.2.2.1, hu.2.2.2.2.1, hu.2.2.2.2.2.2.1, hu.2.2.2.2.2.2.2⟩,
    planeFits_ok _ _ p bd hbd hu.2.1 hg.1.2, planeFits_ok _ _ p bd hbd hu.2.1 hg.2⟩

theorem accepted_runPlane (p : Params) (h : acceptCheck .runPlane p = .none) :
    ∃ bd, bitDepth? p.format = some bd ∧ gridGroupOK p = true ∧
      PlaneOK p.srcBase p.srcStride bd (planeW p) (planeH p) ∧
      PlaneOK p.dstBase p.dstStride bd (planeW p) (planeH p) ∧ p.descBase.toNat + 16 * cellCount p ≤ 2 ^ 32 := by
  obtain ⟨hbd, -, hg, -, -⟩ := acceptCheck_none _ _ h
  obtain ⟨bd, hbd⟩ := hbd rfl
  simp only [geometryOK, Bool.and_eq_true, descGroupOK, decide_eq_true_eq] at hg
  have hu := gridGroup_facts p hg.1.1.1
  exact ⟨bd, hbd, hg.1.1.1, planeFits_ok _ _ p bd hbd hu.2.1 hg.1.1.2, planeFits_ok _ _ p bd hbd hu.2.1 hg.1.2, hg.2⟩

theorem accepted_box (i : Instr) (hi : i = .primBox3 ∨ i = .primBox5) (p : Params) (h : acceptCheck i p = .none) :
    ∃ bd, bitDepth? p.format = some bd ∧ UnitInPlane p (unitOf p) ∧
      PlaneOK p.srcBase p.srcStride bd (planeW p) (planeH p) := by
  obtain ⟨hbd, -, hg, -, -⟩ := acceptCheck_none _ _ h
  obtain ⟨bd, hbd⟩ : ∃ bd, bitDepth? p.format = some bd := hbd (by rcases hi with rfl | rfl <;> rfl)
  have hg' : unitGroupOK p = true ∧ sourceGroupOK p = true := by
    rcases hi with rfl | rfl <;> simpa [geometryOK] using hg
  have hu := unitGroup_facts p hg'.1
  exact ⟨bd, hbd, ⟨hu.2.2.1, hu.2.2.2.2.1, hu.2.2.2.2.2.2.1, hu.2.2.2.2.2.2.2⟩, planeFits_ok _ _ p bd hbd hu.2.1 hg'.2⟩

/-! ### Running a command (R252, R253) -/

/-- Everything running a command can do when it ends (R252, R253): it ends IDLE with DONE set; it writes memory only
inside its destination; RESULT0 and RESULT1 change only where its rule writes them; ERR and ERR_CODE stay, or are set
together. -/
structure Ended (i : Instr) (s t : State) : Prop where
  fields : t = { s with
    scratch := t.scratch
    mem := t.mem
    draws := t.draws
    result0 := t.result0
    result1 := t.result1
    err := t.err
    errCode := t.errCode
    done := true
    fsm := .idle
    progress := 0
    start := Start.none }
  outside : ∀ a, ¬ destByte i s.snap.regs a → t.mem.read a = s.mem.read a
  wf : s.mem.wf → t.mem.wf
  bounded : acceptCheck i s.snap.regs = .none → s.mem.bounded → t.mem.bounded
  results : writesResults i = false → t.result0 = s.result0 ∧ t.result1 = s.result1
  error : (t.err = s.err ∧ t.errCode = s.errCode) ∨ (t.err = true ∧ t.errCode ≠ .none)

theorem ended_raise (i : Instr) (e : ErrCode) (s : State) (he : e ≠ .none) : Ended i s (raiseError e s) :=
  ⟨rfl, fun _ _ => rfl, id, fun _ => id, fun _ => ⟨rfl, rfl⟩, .inr ⟨rfl, he⟩⟩

theorem ended_complete (i : Instr) (s : State) : Ended i s (complete s) :=
  ⟨rfl, fun _ _ => rfl, id, fun _ => id, fun _ => ⟨rfl, rfl⟩, .inl ⟨rfl, rfl⟩⟩

theorem ended_completeWith (i : Instr) (r0 r1 : Word) (s : State) (h : writesResults i = true) :
    Ended i s (completeWith r0 r1 s) :=
  ⟨rfl, fun _ _ => rfl, id, fun _ => id, fun hn => absurd (h.symm.trans hn) (by decide), .inl ⟨rfl, rfl⟩⟩

theorem Ended.bump {i : Instr} {s t : State} (h : Ended i (bumpDraws s) t) : Ended i s t :=
  ⟨h.fields, h.outside, h.wf, h.bounded, h.results, h.error⟩

theorem onOrdinaryMemory_next (i : Instr) (s t : State) (o : Outcome) (h : onOrdinaryMemory i s o = .next t) :
    o = .next t := by
  unfold onOrdinaryMemory at h
  split at h
  · cases h
  · exact h

theorem ended_performBox (i : Instr) (r : Nat) (s t : State) (hi : writesResults i = true)
    (h : performBox i r s = .next t) : Ended i s t := by
  unfold performBox at h
  simp only at h
  split at h
  · cases h
    exact ended_raise i _ s (by simp)
  · replace h := onOrdinaryMemory_next _ _ _ _ h
    split at h
    · cases h
      exact ended_raise i _ s (by simp)
    · split at h
      · cases h
        exact (ended_completeWith i _ _ (bumpDraws s) hi).bump
      · cases h
        exact ended_completeWith i _ _ s hi

/-- The end of a memory command after changes that respect its frame is an end of the command. -/
theorem ended_finish (i : Instr) (s m : State) (e : Option ErrCode)
    (fields : m = { s with
      scratch := m.scratch, mem := m.mem, draws := m.draws, result0 := m.result0, result1 := m.result1 })
    (outside : ∀ a, ¬ destByte i s.snap.regs a → m.mem.read a = s.mem.read a) (wf : s.mem.wf → m.mem.wf)
    (bounded : acceptCheck i s.snap.regs = .none → s.mem.bounded → m.mem.bounded)
    (results : writesResults i = false → m.result0 = s.result0 ∧ m.result1 = s.result1)
    (he : e = none ∨ e = some .busError ∨ e = some .badKind) : Ended i s (finish (e, m)) := by
  have herr : m.err = s.err ∧ m.errCode = s.errCode := by rw [fields]; exact ⟨rfl, rfl⟩
  rcases he with rfl | rfl | rfl
  · exact ⟨by rw [finish, fields]; rfl, outside, wf, bounded, results, .inl herr⟩
  · exact ⟨by rw [finish, fields]; rfl, outside, wf, bounded, results, .inr ⟨rfl, by simp [finish]⟩⟩
  · exact ⟨by rw [finish, fields]; rfl, outside, wf, bounded, results, .inr ⟨rfl, by simp [finish]⟩⟩

/-- The bytes of a command's units are its destination bytes (R82). -/
theorem destByte_of_cells (i : Instr) (p : Params) (bd : BitDepth) (hbd : bitDepth? p.format = some bd) (a : Nat)
    (h : ∃ u ∈ destCells i p, unitDestByte p bd u a) : destByte i p a := by
  obtain ⟨u, hu, ha⟩ := h
  cases i with
  | runUnit =>
    cases List.mem_singleton.mp hu
    exact ⟨bd, hbd, ha⟩
  | runPlane => exact ⟨bd, hbd, u, hu, ha⟩
  | _ => exact absurd hu (by simp [destCells])

/-- The units an accepted command writes lie in a plane that fits into memory (R282). -/
theorem destCells_inPlane (i : Instr) (p : Params) (bd : BitDepth) (hbd : bitDepth? p.format = some bd)
    (ha : acceptCheck i p = .none) (u : UnitRect) (hu : u ∈ destCells i p) :
    UnitInPlane p u ∧ PlaneOK p.dstBase p.dstStride bd (planeW p) (planeH p) := by
  cases i with
  | runUnit =>
    cases List.mem_singleton.mp hu
    obtain ⟨bd', kind', hbd', -, hu, -, hd⟩ := accepted_runUnit _ ha
    rw [hbd] at hbd'
    cases hbd'
    exact ⟨hu, hd⟩
  | runPlane =>
    obtain ⟨bd', hbd', hg, -, hd, -⟩ := accepted_runPlane _ ha
    rw [hbd] at hbd'
    cases hbd'
    exact ⟨gridCells_inPlane _ hg u hu, hd⟩
  | _ => exact absurd hu (by simp [destCells])

theorem ended_performRunUnit (s t : State) (h : performRunUnit s = .next t) : Ended .runUnit s t := by
  unfold performRunUnit at h
  simp only at h
  split at h
  · cases h
    exact ended_raise _ _ s (by simp)
  · rename_i bd hbd
    split at h
    · cases h
      exact ended_raise _ _ s (by simp)
    · rename_i kind hk
      replace h := onOrdinaryMemory_next _ _ _ _ h
      injection h with h
      subst h
      have hf := filterUnit_spec (snapshotRecord s.snap.regs kind) s.snap.regs bd (unitOf s.snap.regs)
        (aliased .runUnit s.snap.regs) false s
      have hs := spoil_spec .runUnit s.snap.regs bd (filterUnit (snapshotRecord s.snap.regs kind) s.snap.regs bd
        (unitOf s.snap.regs) (aliased .runUnit s.snap.regs) false s).2
      have hm := (hf.1.weaken fun a ha => destByte_of_cells .runUnit s.snap.regs bd hbd a
        ⟨_, List.mem_singleton.mpr rfl, ha⟩).trans (hs.1.weaken (destByte_of_cells .runUnit s.snap.regs bd hbd))
      refine ended_finish _ s _ _ ?_ hm.outside hm.wf (fun ha hb => ?_) (fun _ => ?_) ?_
      · have := hm.fields
        rw [this]
      · have hin := destCells_inPlane .runUnit s.snap.regs bd hbd ha
        have h1 := hin (unitOf s.snap.regs) (List.mem_singleton.mpr rfl)
        exact hs.2 h1.2 (fun u hu => (hin u hu).1) (hf.2.2 h1.2 h1.1 hb)
      · rw [hm.fields]
        exact ⟨rfl, rfl⟩
      · rcases hf.2.1 with h | h
        · exact .inl h
        · exact .inr (.inl h)

/-- Everything the cells of run.plane from a list of them and then the end of the command can do (R258). -/
theorem ended_finishPlane (s : State) (bd : BitDepth) (k : Nat) (us : List UnitRect)
    (hbd : bitDepth? s.snap.regs.format = some bd) (hus : ∀ u ∈ us, u ∈ gridCells s.snap.regs) :
    Ended .runPlane s (finishPlane s.snap.regs bd (runCells s.snap.regs bd (aliased .runPlane s.snap.regs) k us s)) := by
  have hf := runCells_spec s.snap.regs bd (aliased .runPlane s.snap.regs) us k s
  revert hf
  generalize runCells s.snap.regs bd (aliased .runPlane s.snap.regs) k us s = r
  obtain ⟨e, n, m⟩ := r
  intro hf
  simp only at hf
  obtain ⟨hm, he, hb⟩ := hf
  have hs := spoil_spec .runPlane s.snap.regs bd (setResults (trunc32 n) (trunc32 (cellCount s.snap.regs)) m)
  have hdest := destByte_of_cells .runPlane s.snap.regs bd hbd
  have hfields := hs.1.fields
  refine ended_finish _ s _ _ ?_ (fun a ha => ?_) (fun hw => hs.1.wf (hm.wf hw)) (fun ha hw => ?_)
    (by simp [writesResults]) ?_
  · simp only
    rw [hfields, hm.fields]
    rfl
  · exact (hs.1.outside a fun h => ha (hdest a h)).trans
      (hm.outside a fun ⟨u, hu, h⟩ => ha (hdest a ⟨u, hus u hu, h⟩))
  · obtain ⟨bd', hbd', hg, -, hd, -⟩ := accepted_runPlane _ ha
    rw [hbd] at hbd'
    cases hbd'
    exact hs.2 hd (gridCells_inPlane _ hg) (hb hd (fun u hu => gridCells_inPlane _ hg u (hus u hu)) hw)
  · rcases he with ⟨h, -⟩ | ⟨h | h, -⟩
    · exact .inl h
    · exact .inr (.inl h)
    · exact .inr (.inr h)

theorem ended_performRunPlane (s t : State) (h : performRunPlane s = .next t) : Ended .runPlane s t := by
  unfold performRunPlane at h
  simp only at h
  split at h
  · cases h
    exact ended_raise _ _ s (by simp)
  · rename_i bd hbd
    replace h := onOrdinaryMemory_next _ _ _ _ h
    injection h with h
    subst h
    exact ended_finishPlane s bd _ _ hbd fun u hu => List.mem_of_mem_drop hu

/-- Everything running any command can do (R252, R253). -/
theorem perform_ended (i : Instr) (s t : State) (h : perform i s = .next t) : Ended i s t := by
  cases i with
  | nop => cases h; exact ended_complete _ s
  | runUnit => exact ended_performRunUnit s t h
  | runPlane => exact ended_performRunPlane s t h
  | primRsr => cases h; exact ended_completeWith _ _ _ s rfl
  | primClip3 => cases h; exact ended_completeWith _ _ _ s rfl
  | primLut => cases h; exact ended_completeWith _ _ _ s rfl
  | primBox3 => exact ended_performBox _ _ s t rfl h
  | primBox5 => exact ended_performBox _ _ s t rfl h
  | primSgrab pass =>
    simp only [perform, performPrimSgrab] at h
    split at h
    · cases h
      exact ended_raise _ _ s (by simp)
    · cases h
      exact ended_completeWith _ _ _ s rfl

/-- A running command never faults: it ends, or the model refuses its device memory (R87, R262). -/
theorem perform_answers (i : Instr) (s : State) :
    (∃ t, perform i s = .next t) ∨ perform i s = .refused .deviceMemory := by
  have hom : ∀ (j : Instr) (t : State), (∃ u, onOrdinaryMemory j s (.next t) = .next u) ∨
      onOrdinaryMemory j s (.next t) = .refused .deviceMemory := by
    intro j t
    unfold onOrdinaryMemory
    split
    · exact .inr rfl
    · exact .inl ⟨t, rfl⟩
  have hbox : ∀ (j : Instr) (r : Nat), (∃ t, performBox j r s = .next t) ∨
      performBox j r s = .refused .deviceMemory := by
    intro j r
    unfold performBox
    simp only
    split
    · exact .inl ⟨_, rfl⟩
    · split
      · exact hom j _
      · split <;> exact hom j _
  cases i with
  | nop => exact .inl ⟨_, rfl⟩
  | runUnit =>
    simp only [perform, performRunUnit]
    split
    · exact .inl ⟨_, rfl⟩
    · split
      · exact .inl ⟨_, rfl⟩
      · exact hom _ _
  | runPlane =>
    simp only [perform, performRunPlane]
    split
    · exact .inl ⟨_, rfl⟩
    · exact hom _ _
  | primRsr => exact .inl ⟨_, rfl⟩
  | primClip3 => exact .inl ⟨_, rfl⟩
  | primLut => exact .inl ⟨_, rfl⟩
  | primBox3 => exact hbox _ _
  | primBox5 => exact hbox _ _
  | primSgrab pass =>
    simp only [perform, performPrimSgrab]
    split <;> exact .inl ⟨_, rfl⟩

end Sys2Proof.Machine
end

