-- ==== Sys2Proof/Laws/Ranges.lean ====
section
/-! SUPPORT. Laws of address ranges: when ranges meet, which ranges hold a unit's containers, and what a command that
respects the aliasing rule leaves its sources (R81, R82, R96). -/
namespace Sys2Proof.Machine

/-- The range holds the byte at `a`. -/
def Span.has (sp : Span) (a : Nat) : Prop := sp.start ≤ a ∧ a < sp.start + sp.len

/-- The first range lies inside the second. -/
def Span.within (sp sp' : Span) : Prop := sp'.start ≤ sp.start ∧ sp.start + sp.len ≤ sp'.start + sp'.len

theorem Span.meets_iff (a b : Span) : a.meets b = true ↔ ∃ x, a.has x ∧ b.has x := by
  simp only [Span.meets, decide_eq_true_eq, Span.has]
  constructor
  · intro h
    exact ⟨max a.start b.start, by omega, by omega⟩
  · rintro ⟨x, h1, h2⟩
    omega

theorem Span.meets_within (g a b : Span) (h : a.within b) (hm : g.meets a = true) : g.meets b = true := by
  obtain ⟨x, h1, h2⟩ := (Span.meets_iff g a).mp hm
  exact (Span.meets_iff g b).mpr ⟨x, h1, by unfold Span.within Span.has at *; omega⟩

/-- No range of the first list touches a region when the ranges that hold them do not. -/
theorem touches_within (k : RegionKind) (as bs : List Span) (rs : List Region)
    (h : ∀ a ∈ as, ∃ b ∈ bs, a.within b) (hb : touches k bs rs = false) : touches k as rs = false := by
  unfold touches at *
  rw [List.any_eq_false] at *
  intro g hg hc
  apply hb g hg
  simp only [Bool.and_eq_true, List.any_eq_true] at *
  obtain ⟨h1, a, ha, hm⟩ := hc
  obtain ⟨b, hb', hw⟩ := h a ha
  exact ⟨h1, b, hb', Span.meets_within _ _ _ hw hm⟩

theorem touches_append (k : RegionKind) (as bs : List Span) (rs : List Region) :
    touches k (as ++ bs) rs = (touches k as rs || touches k bs rs) := by
  unfold touches
  rw [Bool.eq_iff_iff]
  simp only [List.any_eq_true, Bool.and_eq_true, List.any_append, Bool.or_eq_true]
  constructor
  · rintro ⟨g, hg, h1, h2 | h2⟩
    · exact .inl ⟨g, hg, h1, h2⟩
    · exact .inr ⟨g, hg, h1, h2⟩
  · rintro (⟨g, hg, h1, h2⟩ | ⟨g, hg, h1, h2⟩)
    · exact ⟨g, hg, h1, .inl h2⟩
    · exact ⟨g, hg, h1, .inr h2⟩

theorem spansMeet_false_iff (as bs : List Span) :
    spansMeet as bs = false ↔ ∀ a ∈ as, ∀ b ∈ bs, ∀ x, a.has x → ¬ b.has x := by
  unfold spansMeet
  rw [List.any_eq_false]
  constructor
  · intro h a ha b hb x h1 h2
    apply h a ha
    exact List.any_eq_true.mpr ⟨b, hb, (Span.meets_iff a b).mpr ⟨x, h1, h2⟩⟩
  · intro h a ha hc
    obtain ⟨b, hb, hm⟩ := List.any_eq_true.mp hc
    obtain ⟨x, h1, h2⟩ := (Span.meets_iff a b).mp hm
    exact h a ha b hb x h1 h2

/-! ### Where a unit's containers lie -/

theorem rowSpan_within (base stride : Word) (bd : BitDepth) (y x n w : Nat) (h : x + n ≤ w) :
    Span.within ⟨sampleAddr base stride bd y x, n * bd.sampleBytes⟩
      ⟨sampleAddr base stride bd y 0, w * bd.sampleBytes⟩ := by
  have h1 : (x + n) * bd.sampleBytes ≤ w * bd.sampleBytes := Nat.mul_le_mul_right _ h
  rw [Nat.add_mul] at h1
  unfold Span.within sampleAddr
  simp only [Nat.zero_mul]
  omega

theorem mem_sourceRows (p : Params) (bd : BitDepth) (y0 n y : Nat) (h1 : y0 ≤ y) (h2 : y < y0 + n) :
    (⟨sampleAddr p.srcBase p.srcStride bd y 0, planeW p * bd.sampleBytes⟩ : Span) ∈ sourceRows p bd y0 n := by
  unfold sourceRows
  refine List.mem_map.mpr ⟨y - y0, by simp; omega, ?_⟩
  rw [show y0 + (y - y0) = y by omega]

/-- A source row a unit may read is one of its source ranges (R81). -/
theorem mem_unitSource (p : Params) (bd : BitDepth) (u : UnitRect) (y : Nat) (h1 : rowLo u ≤ y) (h2 : y ≤ rowHi p u) :
    (⟨sampleAddr p.srcBase p.srcStride bd y 0, planeW p * bd.sampleBytes⟩ : Span) ∈ unitSource p bd u := by
  have h0 : 0 ≤ rowLo u := by unfold rowLo; omega
  exact mem_sourceRows p bd _ _ y (by omega) (by omega)

/-- The container of `Src(i, j)` lies in a source range of the unit (R80, R81). -/
theorem srcAddr_within (p : Params) (bd : BitDepth) (u : UnitRect) (hu : UnitInPlane p u) (i j : Int) :
    ∃ sp ∈ unitSource p bd u, Span.within ⟨srcAddr p bd u i j, bd.sampleBytes⟩ sp := by
  have hr := srcRow_range p u hu i
  have hc := srcCol_range p u hu j
  refine ⟨_, mem_unitSource p bd u (srcRow p u i).toNat (by omega) (by omega), ?_⟩
  have := rowSpan_within p.srcBase p.srcStride bd (srcRow p u i).toNat (srcCol p u j).toNat 1 (planeW p) (by omega)
  rw [Nat.one_mul] at this
  exact this

/-- The source ranges of a unit lie in those of the whole plane (R81). -/
theorem unitSource_plane (p : Params) (bd : BitDepth) (u : UnitRect) (hu : UnitInPlane p u) (sp : Span)
    (h : sp ∈ unitSource p bd u) : sp ∈ unitSource p bd (planeRect p) := by
  unfold unitSource sourceRows at h
  obtain ⟨k, hk, rfl⟩ := List.mem_map.mp h
  simp only [List.mem_range] at hk
  have h0 : 0 ≤ rowLo u := by unfold rowLo; omega
  have h1 : rowHi p u ≤ (planeH p : Int) - 1 := by unfold rowHi; omega
  have h2 := hu.h
  have h3 := hu.bottom
  refine mem_unitSource p bd (planeRect p) _ ?_ ?_
  · simp only [rowLo, planeRect]; omega
  · simp only [rowHi, planeRect]; omega

/-- A destination container of a unit lies in a destination range of the unit (R82). -/
theorem unitDest_within (p : Params) (bd : BitDepth) (u : UnitRect) (i j : Nat) (hi : i < u.h) (hj : j < u.w) :
    ∃ sp ∈ unitDest p bd u, Span.within ⟨dstAddr p bd u i j, bd.sampleBytes⟩ sp := by
  refine ⟨_, List.mem_map.mpr ⟨i, List.mem_range.mpr hi, rfl⟩, ?_⟩
  have h1 : (j + 1) * bd.sampleBytes ≤ u.w * bd.sampleBytes := Nat.mul_le_mul_right _ hj
  rw [Nat.succ_mul] at h1
  unfold Span.within dstAddr sampleAddr
  simp only [Nat.add_mul, Nat.add_zero]
  omega

/-- The destination ranges of a unit lie in those of the whole plane (R82). -/
theorem unitDest_plane (p : Params) (bd : BitDepth) (u : UnitRect) (hu : UnitInPlane p u) (sp : Span)
    (h : sp ∈ unitDest p bd u) : ∃ sp' ∈ unitDest p bd (planeRect p), sp.within sp' := by
  obtain ⟨i, hi, rfl⟩ := List.mem_map.mp h
  simp only [List.mem_range] at hi
  have h1 := hu.right
  have h2 := hu.bottom
  refine ⟨_, List.mem_map.mpr ⟨u.y0 + i, List.mem_range.mpr (by simp only [planeRect]; omega), rfl⟩, ?_⟩
  have := rowSpan_within p.dstBase p.dstStride bd (u.y0 + i) u.x0 u.w (planeW p) (by omega)
  simpa [dstAddr, planeRect] using this

theorem unitDestByte_has (p : Params) (bd : BitDepth) (u : UnitRect) (a : Nat) (h : unitDestByte p bd u a) :
    ∃ sp ∈ unitDest p bd u, sp.has a := by
  obtain ⟨i, j, hi, hj, h1, h2⟩ := h
  obtain ⟨sp, hsp, hw⟩ := unitDest_within p bd u i j hi hj
  exact ⟨sp, hsp, by unfold Span.within at hw; unfold Span.has; simp only at hw; omega⟩

/-- The container of a unit's own sample lies in the unit's own source ranges (R256). -/
theorem srcAddr_own (p : Params) (bd : BitDepth) (u : UnitRect) (hu : UnitInPlane p u) (i j : Nat) (hi : i < u.h)
    (hj : j < u.w) : ∃ sp ∈ unitOwn p bd u, Span.within ⟨srcAddr p bd u i j, bd.sampleBytes⟩ sp := by
  refine ⟨_, List.mem_map.mpr ⟨i, List.mem_range.mpr hi, rfl⟩, ?_⟩
  have h1 : (j + 1) * bd.sampleBytes ≤ u.w * bd.sampleBytes := Nat.mul_le_mul_right _ hj
  rw [Nat.succ_mul] at h1
  have hr : (srcRow p u i).toNat = u.y0 + i := by rw [srcRow_inside p u hu i hi]; omega
  have hc : (srcCol p u j).toNat = u.x0 + j := by rw [srcCol_inside p u hu j hj]; omega
  unfold Span.within srcAddr sampleAddr
  rw [hr, hc]
  simp only [Nat.add_mul]
  omega

/-- The window of any filter kind lies in the unit's source rows (R81). -/
theorem unitWindow_within (kind : FilterKind) (p : Params) (bd : BitDepth) (u : UnitRect) (hu : UnitInPlane p u)
    (a : Span) (ha : a ∈ unitWindow kind p bd u) : ∃ b ∈ unitSource p bd u, a.within b := by
  have self : ∀ sp : Span, sp.within sp := fun sp => ⟨le_refl _, le_refl _⟩
  cases kind with
  | copy =>
    obtain ⟨i, hi, rfl⟩ := List.mem_map.mp ha
    simp only [List.mem_range] at hi
    have hb := hu.bottom
    refine ⟨_, mem_unitSource p bd u (u.y0 + i) ?_ ?_, rowSpan_within _ _ bd _ _ u.w (planeW p) hu.right⟩
    · unfold rowLo; omega
    · unfold rowHi; omega
  | wiener => exact ⟨a, ha, self a⟩
  | selfGuided => exact ⟨a, ha, self a⟩

/-- The source window of a unit lies in its source rows (R79, R80, R81). -/
theorem windowSpans_within (p : Params) (bd : BitDepth) (u : UnitRect) (hu : UnitInPlane p u) (a : Span)
    (ha : a ∈ windowSpans p bd u) : ∃ b ∈ unitSource p bd u, a.within b := by
  obtain ⟨k, hk, rfl⟩ := List.mem_map.mp ha
  have h := hu.right
  exact ⟨_, List.mem_map.mpr ⟨k, hk, rfl⟩, rowSpan_within _ _ bd _ _ _ (planeW p) (by omega)⟩

/-- The containers of `Src` over the extended rectangle lie in the source window (R79, R80). -/
theorem srcAddr_window (p : Params) (bd : BitDepth) (u : UnitRect) (hu : UnitInPlane p u) (i j : Int) (h1 : -3 ≤ j)
    (h2 : j ≤ u.w + 2) : ∃ sp ∈ windowSpans p bd u, Span.within ⟨srcAddr p bd u i j, bd.sampleBytes⟩ sp := by
  have hr := srcRow_range p u hu i
  have h0 : 0 ≤ rowLo u := by unfold rowLo; omega
  have hright := hu.right
  have hw := hu.w
  have hc : u.x0 - 3 ≤ (srcCol p u j).toNat ∧ (srcCol p u j).toNat + 1 ≤ min (planeW p) (u.x0 + u.w + 3) := by
    unfold srcCol clip3
    split
    · omega
    · split <;> omega
  refine ⟨_, List.mem_map.mpr ⟨(srcRow p u i).toNat - (rowLo u).toNat, by simp only [List.mem_range]; omega, rfl⟩, ?_⟩
  rw [show (rowLo u).toNat + ((srcRow p u i).toNat - (rowLo u).toNat) = (srcRow p u i).toNat by omega]
  have e : (srcCol p u j).toNat = (u.x0 - 3) + ((srcCol p u j).toNat - (u.x0 - 3)) := by omega
  have h3 : ((srcCol p u j).toNat - (u.x0 - 3) + 1) * bd.sampleBytes ≤
      (min (planeW p) (u.x0 + u.w + 3) - (u.x0 - 3)) * bd.sampleBytes := Nat.mul_le_mul_right _ (by omega)
  unfold Span.within srcAddr sampleAddr
  rw [e]
  simp only [Nat.add_mul, Nat.one_mul] at h3 ⊢
  omega

/-- What a unit needs of its source lies in the window of its filter kind (R81, R256). -/
theorem unitReads_within (rec : UnitRecord) (p : Params) (bd : BitDepth) (u : UnitRect) (hu : UnitInPlane p u)
    (ij : Int × Int) (h : ij ∈ unitReads rec u) :
    ∃ b ∈ unitWindow rec.kind p bd u, Span.within ⟨srcAddr p bd u ij.1 ij.2, bd.sampleBytes⟩ b := by
  unfold unitReads at h
  cases hk : rec.kind with
  | copy =>
    rw [hk] at h
    simp only [List.mem_flatMap, List.mem_map, List.mem_range] at h
    obtain ⟨i, hi, j, hj, rfl⟩ := h
    exact srcAddr_own p bd u hu i j hi hj
  | wiener => exact srcAddr_within p bd u hu _ _
  | selfGuided => exact srcAddr_within p bd u hu _ _

/-! ### Sources a command leaves alone (R96) -/

/-- `Src` depends on memory only through the unit's source ranges (R81). -/
theorem src_congr (p : Params) (bd : BitDepth) (u : UnitRect) (hu : UnitInPlane p u) (m m' : Memory)
    (h : ∀ sp ∈ unitSource p bd u, ∀ a, sp.has a → m.read a = m'.read a) : src p bd u m = src p bd u m' := by
  funext i j
  unfold src sampleRead
  obtain ⟨sp, hsp, hw⟩ := srcAddr_within p bd u hu i j
  rw [Memory.readLE_congr m m' _ _ fun x h1 h2 => h sp hsp x (by unfold Span.within at hw; unfold Span.has; simp only at hw; omega)]

/-- A unit's samples depend on memory only through the window of its filter kind (R81, R256). -/
theorem sampleDirect_congr (rec : UnitRecord) (p : Params) (bd : BitDepth) (u : UnitRect) (hu : UnitInPlane p u)
    (m m' : Memory) (h : ∀ sp ∈ unitWindow rec.kind p bd u, ∀ a, sp.has a → m.read a = m'.read a) (i j : Nat)
    (hi : i < u.h) (hj : j < u.w) :
    sampleDirect rec bd (src p bd u m) u.y0 i j = sampleDirect rec bd (src p bd u m') u.y0 i j := by
  cases hk : rec.kind with
  | copy =>
    rw [hk] at h
    obtain ⟨sp, hsp, hw⟩ := srcAddr_own p bd u hu i j hi hj
    have : src p bd u m i j = src p bd u m' i j := by
      unfold src sampleRead
      rw [Memory.readLE_congr m m' _ _ fun x h1 h2 =>
        h sp hsp x (by unfold Span.within at hw; unfold Span.has; simp only at hw; omega)]
    simp [sampleDirect, hk, this]
  | wiener => rw [hk] at h; rw [src_congr p bd u hu m m' h]
  | selfGuided => rw [hk] at h; rw [src_congr p bd u hu m m' h]

/-- Where destination and source ranges do not meet, a change of memory inside the destination leaves `Src` as it was. -/
theorem src_frame (p : Params) (bd : BitDepth) (u : UnitRect) (hu : UnitInPlane p u) (ds ss : List Span)
    (P : Nat → Prop) (m m' : Memory) (hP : ∀ a, P a → ∃ sp ∈ ds, sp.has a)
    (hs : ∀ sp ∈ unitSource p bd u, sp ∈ ss) (hm : spansMeet ds ss = false)
    (h : ∀ a, ¬ P a → m'.read a = m.read a) : src p bd u m' = src p bd u m := by
  refine src_congr p bd u hu m' m fun sp hsp a ha => h a fun hp => ?_
  obtain ⟨d, hd, hda⟩ := hP a hp
  exact (spansMeet_false_iff ds ss).mp hm d hd sp (hs sp hsp) a hda ha

/-! ### Bus errors (R286) -/

/-- A unit whose window and destination touch no error region meets no bus error. -/
theorem unitFails_false (rec : UnitRecord) (p : Params) (bd : BitDepth) (u : UnitRect) (s : State)
    (hu : UnitInPlane p u) (hs : touches .errorResponse (unitWindow rec.kind p bd u) s.regions = false)
    (hd : touches .errorResponse (unitDest p bd u) s.regions = false) : unitFails rec p bd u s = false := by
  unfold unitFails requiredSpans
  rw [hs, touches_append, hd, touches_within .errorResponse _ (unitWindow rec.kind p bd u) s.regions ?_ hs]
  · rfl
  · intro a ha
    obtain ⟨ij, hij, rfl⟩ := List.mem_map.mp ha
    exact unitReads_within rec p bd u hu ij hij

/-! ### One unit's contents -/

theorem pixMax_lt (bd : BitDepth) : bd.pixMax < 256 ^ bd.sampleBytes := by cases bd <;> decide

theorem sampleDirect_mod (rec : UnitRecord) (p : Params) (bd : BitDepth) (u : UnitRect) (m : Memory) (i j : Nat) :
    ((sampleDirect rec bd (src p bd u m) u.y0 i j).toNat % 256 ^ bd.sampleBytes : Nat) =
      sampleDirect rec bd (src p bd u m) u.y0 i j := by
  have hr := sampleDirect_range rec bd (src p bd u m) (src_le p bd u m) u.y0 i j
  have hx := pixMax_lt bd
  rw [Nat.mod_eq_of_lt] <;> omega

/-- The container writes of a unit that breaks no aliasing rule, as the filter rules write them (R82). -/
theorem mem_unitWrites (rec : UnitRecord) (p : Params) (bd : BitDepth) (u : UnitRect) (s : State)
    (hu : UnitInPlane p u) (st : Store) : st ∈ unitWrites rec p bd u false s ↔ ∃ i j, i < u.h ∧ j < u.w ∧
      st = dstStore p bd u i j (sampleDirect rec bd (src p bd u s.mem) u.y0 i j) := by
  show st ∈ unitStores p bd u _ ↔ _
  rw [mem_unitStores]
  constructor
  · rintro ⟨i, j, hi, hj, rfl⟩
    exact ⟨i, j, hi, hj, by rw [unitResult_eq rec bd p u s.mem s.scratch hu i j hi hj]⟩
  · rintro ⟨i, j, hi, hj, rfl⟩
    exact ⟨i, j, hi, hj, by rw [unitResult_eq rec bd p u s.mem s.scratch hu i j hi hj]⟩

/-- Every destination container of a unit that breaks no aliasing rule holds the value its filter rule gives, or where the
unit met a bus error its old value (R82, R192, R229, R253, R256, U4). -/
theorem filterUnit_contents (rec : UnitRecord) (p : Params) (bd : BitDepth) (u : UnitRect) (failed : Bool) (s : State)
    (hw : s.mem.wf) (hp : PlaneOK p.dstBase p.dstStride bd (planeW p) (planeH p)) (hu : UnitInPlane p u) (i j : Nat)
    (hi : i < u.h) (hj : j < u.w) :
    let r := filterUnit rec p bd u false failed s
    (r.2.mem.readLE (dstAddr p bd u i j) bd.sampleBytes : Int) =
        sampleDirect rec bd (src p bd u s.mem) u.y0 i j ∨
      r.1 = some .busError ∧
        r.2.mem.readLE (dstAddr p bd u i j) bd.sampleBytes = s.mem.readLE (dstAddr p bd u i j) bd.sampleBytes := by
  have hst := (mem_unitWrites rec p bd u s hu _).mpr ⟨i, j, hi, hj, rfl⟩
  have hdis : (unitWrites rec p bd u false s).Pairwise Store.disjoint := unitStores_disjoint p bd u _ hp hu
  have hmod := sampleDirect_mod rec p bd u s.mem i j
  simp only [filterUnit]
  cases failed || unitFails rec p bd u s with
  | false =>
    left
    simp only [Bool.false_eq_true, if_false]
    rw [Memory.readLE_writeStores _ s.mem hw hdis _ _ _ hst]
    exact hmod
  | true =>
    simp only [if_true]
    rw [Memory.readLE_writeStores_filter _ _ s.mem hw hdis _ _ _ hst]
    split
    · exact .inl hmod
    · exact .inr ⟨trivial, rfl⟩

/-! ### The memory commands, case by case -/

theorem onOrdinaryMemory_plain (i : Instr) (s : State) (o : Outcome)
    (h : touches .device (ordinarySpans i s.snap.regs) s.regions = false) : onOrdinaryMemory i s o = o := by
  simp [onOrdinaryMemory, h]

theorem onOrdinaryMemory_device (i : Instr) (s : State) (o : Outcome)
    (h : touches .device (ordinarySpans i s.snap.regs) s.regions = true) :
    onOrdinaryMemory i s o = .refused .deviceMemory := by
  simp [onOrdinaryMemory, h]

/-- A box command on plain memory with no broken rule completes with its sums (R170, R171). -/
theorem performBox_plain (i : Instr) (r : Nat) (s : State) (bd : BitDepth) (hbd : bitDepth? s.snap.regs.format = some bd)
    (hdev : touches .device (ordinarySpans i s.snap.regs) s.regions = false)
    (hreads : touches .errorResponse (boxReads s.snap.regs bd (unitOf s.snap.regs) r (hi16s s.snap.regs.opa)
      (lo16s s.snap.regs.opa)) s.regions = false)
    (ht : s.taint.data = false) :
    performBox i r s = .next (completeWith
      (trunc32 (boxSum (src s.snap.regs bd (unitOf s.snap.regs) s.mem) r (hi16s s.snap.regs.opa)
        (lo16s s.snap.regs.opa)))
      (trunc32 (boxSq (src s.snap.regs bd (unitOf s.snap.regs) s.mem) r (hi16s s.snap.regs.opa)
        (lo16s s.snap.regs.opa))) s) := by
  simp [performBox, hbd, onOrdinaryMemory_plain _ _ _ hdev, hreads, ht]

/-- A box command that needs a container in an error region ends with BUS_ERROR (R170, R286). -/
theorem performBox_fails (i : Instr) (r : Nat) (s : State) (bd : BitDepth) (hbd : bitDepth? s.snap.regs.format = some bd)
    (hdev : touches .device (ordinarySpans i s.snap.regs) s.regions = false)
    (hreads : touches .errorResponse (boxReads s.snap.regs bd (unitOf s.snap.regs) r (hi16s s.snap.regs.opa)
      (lo16s s.snap.regs.opa)) s.regions = true) :
    performBox i r s = .next (raiseError .busError s) := by
  simp [performBox, hbd, onOrdinaryMemory_plain _ _ _ hdev, hreads]

/-- run.unit off devices is one unit through its filter, then its end (R255). -/
theorem performRunUnit_eq (s : State) (bd : BitDepth) (kind : FilterKind)
    (hbd : bitDepth? s.snap.regs.format = some bd) (hk : filterKind? s.snap.regs.unitKind = some kind)
    (hdev : touches .device (ordinarySpans .runUnit s.snap.regs) s.regions = false) :
    let r := filterUnit (snapshotRecord s.snap.regs kind) s.snap.regs bd (unitOf s.snap.regs)
      (aliased .runUnit s.snap.regs) false s
    performRunUnit s = .next (finish (r.1, spoil .runUnit s.snap.regs bd r.2)) := by
  simp [performRunUnit, hbd, hk, onOrdinaryMemory_plain _ _ _ hdev]

/-- run.plane off devices is its cells, from the first not yet complete, then its end (R258). -/
theorem performRunPlane_eq (s : State) (bd : BitDepth) (hbd : bitDepth? s.snap.regs.format = some bd)
    (hdev : touches .device (ordinarySpans .runPlane s.snap.regs) s.regions = false) :
    performRunPlane s = .next (finishPlane s.snap.regs bd (runCells s.snap.regs bd
      (aliased .runPlane s.snap.regs) s.progress ((gridCells s.snap.regs).drop s.progress) s)) := by
  simp [performRunPlane, hbd, onOrdinaryMemory_plain _ _ _ hdev]

/-- What a command keeps off devices takes in every range it may access (R87). -/
theorem touches_ordinarySpans (k : RegionKind) (i : Instr) (p : Params) (rs : List Region)
    (h : touches k (ordinarySpans i p) rs = false) : touches k (sourceWindow i p) rs = false ∧
      touches k (commandSpans i p) rs = false := by
  unfold ordinarySpans at h
  rw [touches_append, Bool.or_eq_false_iff] at h
  exact h

/-- What a command's ranges touching no region of a kind says of its parts. -/
theorem touches_commandSpans (k : RegionKind) (i : Instr) (p : Params) (rs : List Region)
    (h : touches k (commandSpans i p) rs = false) : touches k (sourceSpans i p) rs = false ∧
      touches k (destSpans i p) rs = false ∧ touches k (descSpans i p) rs = false := by
  unfold commandSpans at h
  rw [touches_append, touches_append] at h
  simp only [Bool.or_eq_false_iff] at h
  exact ⟨h.1.1, h.1.2, h.2⟩

/-- The containers a box reads lie in the unit's source ranges (R81, R170). -/
theorem boxReads_within (p : Params) (bd : BitDepth) (u : UnitRect) (hu : UnitInPlane p u) (r : Nat) (i j : Int)
    (a : Span) (ha : a ∈ boxReads p bd u r i j) : ∃ b ∈ unitSource p bd u, a.within b := by
  unfold boxReads at ha
  simp only [List.mem_flatMap, List.mem_map, List.mem_range] at ha
  obtain ⟨y, _, x, _, rfl⟩ := ha
  exact srcAddr_within p bd u hu _ _

end Sys2Proof.Machine
end

