-- ==== Sys2Proof/Laws/Units.lean ====
section
/-! SUPPORT. What run.unit and run.plane leave on plain memory, filter by filter and cell by cell. -/
namespace Sys2Proof.Machine

/-! ### run.unit -/

/-- A run.unit command's ranges, as those of its unit (R81, R82, R256). -/
theorem unit_spans (k : RegionKind) (p : Params) (bd : BitDepth) (kind : FilterKind) (rs : List Region)
    (hbd : bitDepth? p.format = some bd) (hk : filterKind? p.unitKind = some kind)
    (h : touches k (commandSpans .runUnit p) rs = false) :
    touches k (unitWindow kind p bd (unitOf p)) rs = false ∧ touches k (unitDest p bd (unitOf p)) rs = false := by
  have h1 := touches_commandSpans _ _ _ _ h
  simp only [sourceSpans, destSpans, hbd, runUnitSource, hk] at h1
  exact ⟨h1.1, h1.2.1⟩

/-- An accepted run.unit on plain memory with no aliasing, whatever its filter: it completes, its destination holds the
samples of the filter rule, its scratch buffers those of the datapath (R255, R193, R232, R256). -/
theorem runUnit_plain (s : State) (bd : BitDepth) (kind : FilterKind) (hw : s.mem.wf) (hr : readyFor s)
    (ha : acceptCheck .runUnit s.params = .none) (hp : onPlainMemory .runUnit s)
    (hal : aliased .runUnit s.params = false) (hbd : bitDepth? s.params.format = some bd)
    (hk : filterKind? s.params.unitKind = some kind) :
    ∃ t, exec .runUnit s = .next t ∧
      t = { endedWith .runUnit s.result0 s.result1 s with mem := t.mem, scratch := t.scratch } ∧
      t.scratch = (unitResult (snapshotRecord s.params kind) bd (unitOf s.params)
        (src s.params bd (unitOf s.params) s.mem) s.scratch).1 ∧
      (∀ i j, i < (unitOf s.params).h → j < (unitOf s.params).w →
        (t.mem.readLE (dstAddr s.params bd (unitOf s.params) i j) bd.sampleBytes : Int) =
          sampleDirect (snapshotRecord s.params kind) bd (src s.params bd (unitOf s.params) s.mem) (unitOf s.params).y0
            i j) ∧
      ∀ a, ¬ destByte .runUnit s.params a → t.mem.read a = s.mem.read a := by
  obtain ⟨bd', kind', hbd', -, hu, -, hd⟩ := accepted_runUnit _ ha
  rw [hbd] at hbd'; cases hbd'
  have hsp := unit_spans _ _ _ _ _ hbd hk hp.2
  have hf : unitFails (snapshotRecord s.params kind) s.params bd (unitOf s.params) (accepted .runUnit s) = false :=
    unitFails_false _ _ _ _ _ hu hsp.1 hsp.2
  have hnone : (filterUnit (snapshotRecord s.params kind) s.params bd (unitOf s.params) false false
      (accepted .runUnit s)).1 = none := by simp [filterUnit, hf]
  have hc := filterUnit_contents (snapshotRecord s.params kind) s.params bd (unitOf s.params) false
    (accepted .runUnit s) hw hd hu
  have hs := filterUnit_spec (snapshotRecord s.params kind) s.params bd (unitOf s.params) false false
    (accepted .runUnit s)
  refine ⟨finish (filterUnit (snapshotRecord s.params kind) s.params bd (unitOf s.params) false false
    (accepted .runUnit s)), ?_, ?_, ?_, ?_, ?_⟩
  · rw [exec_ready _ _ hr ha]
    show performRunUnit _ = _
    rw [performRunUnit_eq (accepted .runUnit s) bd kind hbd hk hp.1]
    simp only [accepted_snap, hal]
    rw [spoil_clear _ _ _ _ (by rfl)]
  · simp only [finish, hnone]
    simp only [filterUnit, unitDraws, hf]
    simp [complete, endedWith, accepted, startCommand, takeSnapshot, snapshotRecord, hsp.1]
  · simp only [finish, hnone]
    rfl
  · intro i j hi hj
    simp only [finish, hnone, complete_mem]
    rcases hc i j hi hj with h | ⟨h, -⟩
    · exact h
    · rw [hnone] at h
      cases h
  · intro a hna
    simp only [finish, hnone, complete_mem]
    rw [hs.1.outside a fun h => hna ⟨bd, hbd, h⟩]
    rfl

/-! ### run.plane -/

/-- The two rectangles share no sample. -/
def UnitRect.apart (u v : UnitRect) : Prop :=
  u.x0 + u.w ≤ v.x0 ∨ v.x0 + v.w ≤ u.x0 ∨ u.y0 + u.h ≤ v.y0 ∨ v.y0 + v.h ≤ u.y0

/-- The cells of the grid are pairwise apart (R257). -/
theorem gridCells_apart (p : Params) : (gridCells p).Pairwise UnitRect.apart := by
  have hstep : ∀ a b n : Nat, a < b → a * n + n ≤ b * n := fun a b n h => by
    have := Nat.mul_le_mul_right n h
    rwa [Nat.succ_mul] at this
  unfold gridCells
  rw [List.pairwise_flatMap]
  refine ⟨fun r _ => ?_, ?_⟩
  · rw [List.pairwise_map]
    refine List.pairwise_lt_range.imp fun {a b} hab => .inl ?_
    have := hstep a b (lo16 p.unitGrid) hab
    simp only [cellAt]
    omega
  · refine List.pairwise_lt_range.imp fun {a b} hab => ?_
    intro x hx y hy
    obtain ⟨c, -, rfl⟩ := List.mem_map.mp hx
    obtain ⟨c', -, rfl⟩ := List.mem_map.mp hy
    have := hstep a b (hi16 p.unitGrid) hab
    exact .inr (.inr (.inl (by simp only [cellAt]; omega)))

/-- A container of one unit holds no destination byte of a unit apart from it (R82, R85). -/
theorem apart_container (p : Params) (bd : BitDepth) (u v : UnitRect)
    (hp : PlaneOK p.dstBase p.dstStride bd (planeW p) (planeH p)) (hu : UnitInPlane p u) (hv : UnitInPlane p v)
    (huv : u.apart v) (i j x : Nat) (hi : i < u.h) (hj : j < u.w) (h1 : dstAddr p bd u i j ≤ x)
    (h2 : x < dstAddr p bd u i j + bd.sampleBytes) : ¬ unitDestByte p bd v x := by
  rintro ⟨i', j', hi', hj', h3, h4⟩
  have hur := hu.right
  have hvr := hv.right
  have := sampleAddr_disjoint p.dstBase p.dstStride bd (planeW p) (planeH p) (u.y0 + i) (u.x0 + j) (v.y0 + i')
    (v.x0 + j') hp (by omega) (by omega) (by unfold UnitRect.apart at huv; omega)
  unfold dstAddr at *
  omega

/-- What run.plane needs of its state so that no cell changes what another reads: no broken rule of R96 and R97. -/
structure PlaneApart (p : Params) (bd : BitDepth) (s : State) : Prop where
  wf : s.mem.wf
  dst : PlaneOK p.dstBase p.dstStride bd (planeW p) (planeH p)
  apart : spansMeet (unitDest p bd (planeRect p))
    (unitSource p bd (planeRect p) ++ [⟨p.descBase.toNat, 16 * cellCount p⟩]) = false
  taint : s.taint = Taint.clear

/-- The plain case of run.plane: no broken rule of R96 and R97, and no error response. -/
structure PlanePlain (p : Params) (bd : BitDepth) (s : State) : Prop extends PlaneApart p bd s where
  source : touches .errorResponse (unitSource p bd (planeRect p)) s.regions = false
  dest : touches .errorResponse (unitDest p bd (planeRect p)) s.regions = false
  desc : touches .errorResponse [⟨p.descBase.toNat, 16 * cellCount p⟩] s.regions = false

theorem descWord_apart (p : Params) (bd : BitDepth) (s : State) (h : PlaneApart p bd s) (k m : Nat) :
    descWord p k m s = cellWord s.mem p k m := by
  simp [descWord, h.taint, Taint.clear, cellWord, descAddr]

/-- A descriptor whose words are those of memory gives the record memory holds (R102). -/
theorem readDescriptor_record (p : Params) (k : Nat) (s : State) (hw : ∀ m, descWord p k m s = cellWord s.mem p k m)
    (d : UnitRecord × Bool) (hd : readDescriptor p k s = .ok d) : cellRecord s.mem p k = some d.1 := by
  unfold readDescriptor at hd
  simp only at hd
  split at hd
  · cases hd
  · split at hd
    · split at hd <;> cases hd
    · rename_i kind hk
      cases hd
      rw [hw] at hk
      simp [cellRecord, hk, descRecord, descPresetIndex, hw]

theorem afterDescriptor_apart (p : Params) (bd : BitDepth) (s : State) (h : PlaneApart p bd s) (k : Nat) :
    PlaneApart p bd (afterDescriptor p k s) ∧ (afterDescriptor p k s).mem = s.mem := by
  unfold afterDescriptor
  split
  · exact ⟨⟨h.wf, h.dst, h.apart, h.taint⟩, rfl⟩
  · exact ⟨h, rfl⟩

theorem readDescriptor_plain (p : Params) (bd : BitDepth) (s : State) (h : PlanePlain p bd s) (k : Nat)
    (hk : k < cellCount p) :
    readDescriptor p k s = (match cellRecord s.mem p k with | none => .error .badKind | some rec => .ok (rec, false)) ∧
      afterDescriptor p k s = s := by
  have hin : ∀ m n, 4 * m + n ≤ 16 → touches .errorResponse [⟨descAddr p k m, n⟩] s.regions = false := by
    intro m n hmn
    refine touches_within _ _ _ _ ?_ h.desc
    intro a ha
    rw [List.mem_singleton] at ha
    subst ha
    exact ⟨_, List.mem_singleton.mpr rfl, by simp only [Span.within, descAddr]; omega⟩
  have hw := descWord_apart p bd s h.toPlaneApart k
  constructor
  · unfold readDescriptor cellRecord
    simp only [hin 1 12 (by omega), hin 0 4 (by omega), hw, descRecord, descPresetIndex]
    cases filterKind? (cellWord s.mem p k 0) <;> rfl
  · simp [afterDescriptor, h.taint, Taint.clear, hin 1 12 (by omega)]

/-- One cell of run.plane leaves what the other cells read (R96). -/
theorem filterUnit_apart (p : Params) (bd : BitDepth) (s : State) (h : PlaneApart p bd s) (rec : UnitRecord)
    (failed : Bool) (u : UnitRect) (hu : UnitInPlane p u) :
    let t := (filterUnit rec p bd u false failed s).2
    PlaneApart p bd t ∧ (∀ v, UnitInPlane p v → src p bd v t.mem = src p bd v s.mem) ∧
      (∀ k < cellCount p, cellRecord t.mem p k = cellRecord s.mem p k) := by
  have hspec := (filterUnit_spec rec p bd u false failed s).1
  have hP : ∀ a, unitDestByte p bd u a → ∃ sp ∈ unitDest p bd (planeRect p), sp.has a := by
    intro a ha
    obtain ⟨sp, hsp, hsa⟩ := unitDestByte_has p bd u a ha
    obtain ⟨sp', hsp', hw⟩ := unitDest_plane p bd u hu sp hsp
    exact ⟨sp', hsp', by unfold Span.within at hw; unfold Span.has at *; omega⟩
  refine ⟨⟨hspec.wf h.wf, h.dst, h.apart, h.taint⟩, ?_, ?_⟩
  · intro v hv
    exact src_frame p bd v hv _ _ _ _ _ hP
      (fun sp hsp => List.mem_append_left _ (unitSource_plane p bd v hv sp hsp)) h.apart hspec.outside
  · intro k hk
    have hw : ∀ n < 4, cellWord (filterUnit rec p bd u false failed s).2.mem p k n = cellWord s.mem p k n := by
      intro n hn
      unfold cellWord
      rw [Memory.readLE_congr _ s.mem _ _ fun x h1 h2 => hspec.outside x fun hx => ?_]
      obtain ⟨sp, hsp, hsx⟩ := hP x hx
      exact (spansMeet_false_iff _ _).mp h.apart sp hsp _ (List.mem_append_right _ (List.mem_singleton.mpr rfl)) x hsx
        ⟨by simp only; omega, by simp only; omega⟩
    unfold cellRecord
    rw [hw 0 (by omega), hw 1 (by omega), hw 2 (by omega), hw 3 (by omega)]

/-- One cell of run.plane in the plain case meets no error, takes no free value, and leaves the plain case. -/
theorem filterUnit_plain (p : Params) (bd : BitDepth) (s : State) (h : PlanePlain p bd s) (rec : UnitRecord)
    (u : UnitRect) (hu : UnitInPlane p u) :
    let t := (filterUnit rec p bd u false false s).2
    (filterUnit rec p bd u false false s).1 = none ∧ PlanePlain p bd t ∧ t.draws = s.draws := by
  have hs : touches .errorResponse (unitWindow rec.kind p bd u) s.regions = false :=
    touches_within _ _ _ _ (fun a ha => by
      obtain ⟨b, hb, hab⟩ := unitWindow_within rec.kind p bd u hu a ha
      exact ⟨b, unitSource_plane p bd u hu b hb, hab⟩) h.source
  have hd : touches .errorResponse (unitDest p bd u) s.regions = false :=
    touches_within _ _ _ _ (unitDest_plane p bd u hu) h.dest
  have hf := unitFails_false rec p bd u s hu hs hd
  have ha := (filterUnit_apart p bd s h.toPlaneApart rec false u hu).1
  exact ⟨by simp [filterUnit, hf], ⟨ha, h.source, h.dest, h.desc⟩, by simp [filterUnit, unitDraws, hf, hs]⟩

/-- The cells of run.plane where no rule of R96 and R97 is broken, error responses or not: they run in order up to the
first error, every cell before it holds its filter's samples, each container of the cell it stopped at its old or its new
value, and no other byte changes (R253, R258, R286, U4). -/
theorem runCells_apart (p : Params) (bd : BitDepth) (us : List UnitRect) : ∀ (k : Nat) (s : State),
    PlaneApart p bd s → us.Pairwise UnitRect.apart → (∀ u ∈ us, UnitInPlane p u) → k + us.length ≤ cellCount p →
    let r := runCells p bd false k us s
    ∃ g, r.2.1 = k + g ∧ g ≤ us.length ∧ (r.1 = none ↔ g = us.length) ∧
      (∀ (n : Nat) (u : UnitRect), n < g → us[n]? = some u → ∃ rec, cellRecord s.mem p (k + n) = some rec ∧
        ∀ i j, i < u.h → j < u.w → (r.2.2.mem.readLE (dstAddr p bd u i j) bd.sampleBytes : Int) =
          sampleDirect rec bd (src p bd u s.mem) u.y0 i j) ∧
      (∀ u, us[g]? = some u → ∀ i j, i < u.h → j < u.w →
        r.2.2.mem.readLE (dstAddr p bd u i j) bd.sampleBytes = s.mem.readLE (dstAddr p bd u i j) bd.sampleBytes ∨
          r.1 = some .busError ∧ ∃ rec, cellRecord s.mem p (k + g) = some rec ∧
            (r.2.2.mem.readLE (dstAddr p bd u i j) bd.sampleBytes : Int) =
              sampleDirect rec bd (src p bd u s.mem) u.y0 i j) ∧
      ∀ a, (∀ (n : Nat) (u : UnitRect), n ≤ g → us[n]? = some u → ¬ unitDestByte p bd u a) →
        r.2.2.mem.read a = s.mem.read a := by
  induction us with
  | nil =>
    intro k s _ _ _ _
    exact ⟨0, rfl, le_refl _, by simp [runCells], fun n _ hn => absurd hn (by omega), by simp, fun _ _ => rfl⟩
  | cons u us ih =>
    intro k s hap hpw hin hlen
    rw [List.length_cons] at hlen
    have hu := hin u (List.mem_cons_self ..)
    obtain ⟨haft, haftm⟩ := afterDescriptor_apart p bd s hap k
    cases hrd : readDescriptor p k s with
    | error e =>
      simp only [runCells, hrd]
      exact ⟨0, rfl, by simp, by simp, fun n _ hn => absurd hn (by omega), fun _ _ _ _ _ _ => .inl (by rw [haftm]),
        fun _ _ => by rw [haftm]⟩
    | ok d =>
      obtain ⟨rec, failed⟩ := d
      have hrec := readDescriptor_record p k s (descWord_apart p bd s hap k) _ hrd
      have hcont := filterUnit_contents rec p bd u failed (afterDescriptor p k s) haft.wf hap.dst hu
      obtain ⟨hap', hsrc, hcell⟩ := filterUnit_apart p bd _ haft rec failed u hu
      have hspec := filterUnit_spec rec p bd u false failed (afterDescriptor p k s)
      rw [haftm] at hcont hsrc hcell
      have hout := hspec.1.outside
      rw [haftm] at hout
      simp only [runCells, hrd]
      cases hfe : (filterUnit rec p bd u false failed (afterDescriptor p k s)).1 with
      | some e =>
        have he : e = .busError := by
          rcases hspec.2.1 with h | h <;> rw [hfe] at h <;> cases h
          rfl
        subst he
        refine ⟨0, rfl, by simp, by simp, fun n _ hn => absurd hn (by omega), fun v hv i j hi hj => ?_, fun a ha => ?_⟩
        · simp only [List.getElem?_cons_zero, Option.some.injEq] at hv
          subst hv
          rcases hcont i j hi hj with h | ⟨-, h⟩
          · exact .inr ⟨rfl, rec, hrec, h⟩
          · exact .inl h
        · exact hout a (ha 0 u (le_refl _) rfl)
      | none =>
        have hnew : ∀ i j, i < u.h → j < u.w →
            ((filterUnit rec p bd u false failed (afterDescriptor p k s)).2.mem.readLE (dstAddr p bd u i j)
              bd.sampleBytes : Int) = sampleDirect rec bd (src p bd u s.mem) u.y0 i j := by
          intro i j hi hj
          rcases hcont i j hi hj with h | ⟨h, -⟩
          · exact h
          · rw [hfe] at h
            cases h
        rw [List.pairwise_cons] at hpw
        have hin' : ∀ v ∈ us, UnitInPlane p v := fun v hv => hin v (List.mem_cons_of_mem _ hv)
        obtain ⟨g, h1, h2, h3, h4, h5, h6⟩ := ih (k + 1) _ hap' hpw.2 hin' (by omega)
        simp only
        refine ⟨g + 1, by rw [h1]; omega, by rw [List.length_cons]; omega, by rw [h3, List.length_cons]; omega,
          fun n v hn hv => ?_, fun v hv i j hi hj => ?_, fun a ha => ?_⟩
        · cases n with
          | zero =>
            simp only [List.getElem?_cons_zero, Option.some.injEq] at hv
            subst hv
            refine ⟨rec, hrec, fun i j hi hj => ?_⟩
            rw [Memory.readLE_congr _ _ _ _ fun x hx1 hx2 => h6 x fun m w hm hw => ?_]
            · exact hnew i j hi hj
            · have hwm := List.mem_of_getElem? hw
              exact apart_container p bd u w hap.dst hu (hin' w hwm) (hpw.1 w hwm) i j x hi hj hx1 hx2
          | succ n =>
            rw [List.getElem?_cons_succ] at hv
            have hvm := List.mem_of_getElem? hv
            have hlt := (List.getElem?_eq_some_iff.mp hv).1
            obtain ⟨rec', hrec', hc⟩ := h4 n v (by omega) hv
            rw [hcell _ (by omega), show k + 1 + n = k + (n + 1) by omega] at hrec'
            rw [hsrc v (hin' v hvm)] at hc
            exact ⟨rec', hrec', hc⟩
        · rw [List.getElem?_cons_succ] at hv
          have hvm := List.mem_of_getElem? hv
          have hlt := (List.getElem?_eq_some_iff.mp hv).1
          have hold : (filterUnit rec p bd u false failed (afterDescriptor p k s)).2.mem.readLE (dstAddr p bd v i j)
              bd.sampleBytes = s.mem.readLE (dstAddr p bd v i j) bd.sampleBytes := by
            refine Memory.readLE_congr _ _ _ _ fun x hx1 hx2 => hout x ?_
            have happ : v.apart u := by
              have := hpw.1 v hvm
              unfold UnitRect.apart at *
              omega
            exact apart_container p bd v u hap.dst (hin' v hvm) hu happ i j x hi hj hx1 hx2
          rcases h5 v hv i j hi hj with h | ⟨he, rec', hrec', h⟩
          · exact .inl (h.trans hold)
          · rw [hcell _ (by omega), show k + 1 + g = k + (g + 1) by omega] at hrec'
            rw [hsrc v (hin' v hvm)] at h
            exact .inr ⟨he, rec', hrec', h⟩
        · rw [h6 a fun m w hm hw => ha (m + 1) w (by omega) (by rw [List.getElem?_cons_succ]; exact hw)]
          exact hout a (ha 0 u (by omega) rfl)

/-- The cells of run.plane in the plain case: they run in order up to the first descriptor of KIND 3, every cell before
it holds its filter's samples, and no other byte changes (R102, R258). -/
theorem runCells_plain (p : Params) (bd : BitDepth) (us : List UnitRect) : ∀ (k g : Nat) (s : State),
    PlanePlain p bd s → us.Pairwise UnitRect.apart → (∀ u ∈ us, UnitInPlane p u) → k + us.length ≤ cellCount p →
    g ≤ us.length → (∀ n < g, (cellRecord s.mem p (k + n)).isSome = true) →
    (g < us.length → cellRecord s.mem p (k + g) = none) →
    let r := runCells p bd false k us s
    r.1 = (if g < us.length then some .badKind else none) ∧ r.2.1 = k + g ∧ r.2.2.draws = s.draws ∧
      (∀ (n : Nat) (u : UnitRect) (rec : UnitRecord) (i j : Nat), n < g → us[n]? = some u →
        cellRecord s.mem p (k + n) = some rec → i < u.h → j < u.w →
        (r.2.2.mem.readLE (dstAddr p bd u i j) bd.sampleBytes : Int) =
          sampleDirect rec bd (src p bd u s.mem) u.y0 i j) ∧
      ∀ a, (∀ (n : Nat) (u : UnitRect), n < g → us[n]? = some u → ¬ unitDestByte p bd u a) →
        r.2.2.mem.read a = s.mem.read a := by
  induction us with
  | nil =>
    intro k g s _ _ _ _ hg _ _
    have : g = 0 := by simpa using hg
    subst this
    exact ⟨rfl, rfl, rfl, fun n _ _ _ _ hn => absurd hn (by omega), fun _ _ => rfl⟩
  | cons u us ih =>
    intro k g s hpl hap hin hlen hg hsome hnone
    rw [List.length_cons] at hlen hg hnone
    obtain ⟨hrd, haft⟩ := readDescriptor_plain p bd s hpl k (by omega)
    have hu := hin u (List.mem_cons_self ..)
    cases g with
    | zero =>
      have h0 := hnone (by omega)
      rw [Nat.add_zero] at h0
      rw [h0] at hrd
      simp only [runCells, hrd, haft, List.length_cons]
      exact ⟨by simp, by simp, by simp, fun n _ _ _ _ hn => absurd hn (by omega), fun _ _ => by simp⟩
    | succ g =>
      obtain ⟨rec, hrec⟩ := Option.isSome_iff_exists.mp (hsome 0 (by omega))
      rw [Nat.add_zero] at hrec
      rw [hrec] at hrd
      obtain ⟨hnone1, hpl', hdr⟩ := filterUnit_plain p bd s hpl rec u hu
      obtain ⟨-, hsrc, hcell⟩ := filterUnit_apart p bd s hpl.toPlaneApart rec false u hu
      have hcont := filterUnit_contents rec p bd u false s hpl.wf hpl.dst hu
      have hspec := (filterUnit_spec rec p bd u false false s).1
      rw [List.pairwise_cons] at hap
      have hin' : ∀ v ∈ us, UnitInPlane p v := fun v hv => hin v (List.mem_cons_of_mem _ hv)
      have hi := ih (k + 1) g (filterUnit rec p bd u false false s).2 hpl' hap.2 hin' (by omega) (by omega)
        (fun n hn => by
          rw [hcell _ (by omega), show k + 1 + n = k + (n + 1) by omega]
          exact hsome (n + 1) (by omega))
        (fun hgl => by
          rw [hcell _ (by omega), show k + 1 + g = k + (g + 1) by omega]
          exact hnone (by omega))
      simp only at hi
      obtain ⟨h1, h2, h3, h4, h5⟩ := hi
      simp only [runCells, hrd, haft, hnone1, List.length_cons]
      refine ⟨?_, by rw [h2]; omega, h3.trans hdr, ?_, ?_⟩
      · rw [h1]
        simp
      · intro n v rec' i j hn hv hrec' hi hj
        cases n with
        | zero =>
          simp only [List.getElem?_cons_zero, Option.some.injEq] at hv
          subst hv
          rw [Nat.add_zero, hrec] at hrec'
          cases hrec'
          rw [Memory.readLE_congr _ (filterUnit rec p bd u false false s).2.mem _ _ fun x hx1 hx2 => ?_]
          · rcases hcont i j hi hj with h | ⟨h, -⟩
            · exact h
            · rw [hnone1] at h
              cases h
          · refine h5 x fun m w hm hw => ?_
            have hwm := List.mem_of_getElem? hw
            exact apart_container p bd u w hpl.dst hu (hin' w hwm) (hap.1 w hwm) i j x hi hj hx1 hx2
        | succ n =>
          rw [List.getElem?_cons_succ] at hv
          have hvm := List.mem_of_getElem? hv
          rw [← hsrc v (hin' v hvm)]
          refine h4 n v rec' i j (by omega) hv ?_ hi hj
          have hlt := (List.getElem?_eq_some_iff.mp hv).1
          rw [hcell _ (by omega), show k + 1 + n = k + (n + 1) by omega]
          exact hrec'
      · intro a ha
        rw [h5 a fun m w hm hw => ha (m + 1) w (by omega) (by rw [List.getElem?_cons_succ]; exact hw)]
        exact hspec.outside a (ha 0 u (by omega) (by simp))

/-! ### Off devices a command is not refused (R87, R262) -/

/-- An accepted command off devices answers a next state. -/
theorem exec_offDevices (i : Instr) (s : State) (hr : readyFor s) (ha : acceptCheck i s.params = .none)
    (hd : offDevices i s) : ∃ t, exec i s = .next t := by
  rw [exec_ready i s hr ha]
  rcases perform_answers i (accepted i s) with h1 | h1
  · exact h1
  · exfalso
    have hom : ∀ o, onOrdinaryMemory i (accepted i s) o = o := fun o => onOrdinaryMemory_plain i (accepted i s) o hd
    have hbox : ∀ r, performBox i r (accepted i s) ≠ .refused .deviceMemory := by
      intro r h
      simp only [performBox] at h
      split at h
      · cases h
      · rw [hom] at h
        split at h
        · cases h
        · split at h <;> cases h
    cases i with
    | nop => cases h1
    | runUnit =>
      simp only [perform, performRunUnit] at h1
      split at h1
      · cases h1
      · split at h1
        · cases h1
        · rw [hom] at h1
          cases h1
    | runPlane =>
      simp only [perform, performRunPlane] at h1
      split at h1
      · cases h1
      · rw [hom] at h1
        cases h1
    | primRsr => cases h1
    | primClip3 => cases h1
    | primLut => cases h1
    | primBox3 => exact hbox 1 h1
    | primBox5 => exact hbox 2 h1
    | primSgrab pass =>
      simp only [perform, performPrimSgrab] at h1
      split at h1 <;> cases h1

end Sys2Proof.Machine
end

