-- ==== Sys2Proof/Laws/Bus.lean ====
section
/-! SUPPORT. The writes of a running command that may be under way, as reset and the host see them (R82, R89, R97, R311),
and what a cell of run.plane does in a turn of its own. -/
namespace Sys2Proof.Machine

/-! ### The register window on the host bus (R76) -/

/-- A register's bus address selects that register, wherever the window sits (R76). -/
@[simp] theorem windowOffset_regAddress (off : BitVec 8) (s : State) : windowOffset? (regAddress off s) s = some off := by
  have h := off.isLt
  unfold windowOffset? regAddress
  rw [if_pos (by omega), Nat.add_sub_cancel_left]
  simp

@[simp] theorem regAddress_advanceHost (off : BitVec 8) (s : State) :
    regAddress off (advanceHost s) = regAddress off s := rfl

/-- A host write of a register is a write at its offset (R77, R114). -/
theorem hostStmt_wr (width : Width) (off : BitVec 8) (o : HostOperand) (s : State) :
    hostStmt (.wr width off o) s = withOperand o s fun v => busWrite width off v (advanceHost s) := by
  have h : ∀ v, busWriteAt width (regAddress off s) v (advanceHost s) = busWrite width off v (advanceHost s) := by
    intro v
    rw [← regAddress_advanceHost, busWriteAt, windowOffset_regAddress]
  simp only [hostStmt, h]

/-- A host read of a register answers for aligned words only (R77). -/
theorem busReadAt_regAddress (width : Width) (off : BitVec 8) (s : State) (next : Word → Outcome) :
    busReadAt width (regAddress off s) s next =
      if registerAccessOk width off then next (busReadValue off s) else .fault .hostBusError := by
  simp only [busReadAt, windowOffset_regAddress]

/-! ### Writes under way -/

theorem storesIn_single {p : Params} {bd : BitDepth} {u : UnitRect} {sts : List Store} (h : storesIn p bd u sts)
    (st : Store) (hst : st ∈ sts) : storesIn p bd u [st] := by
  intro st' hst'
  cases List.mem_singleton.mp hst'
  exact h st hst

/-- Every write under way lies in a destination container of the command (R82). -/
theorem pendingStores_in (i : Instr) (s : State) (st : Store) (h : st ∈ pendingStores i s) :
    ∃ bd, bitDepth? s.snap.regs.format = some bd ∧ ∃ u ∈ destCells i s.snap.regs, storesIn s.snap.regs bd u [st] := by
  unfold pendingStores at h
  simp only at h
  split at h
  · cases h
  · rename_i bd hbd
    refine ⟨bd, hbd, ?_⟩
    split at h
    · exact looseDest_in _ _ _ _ _ h
    · cases i with
      | runUnit =>
        simp only at h
        split at h
        · cases h
        · exact ⟨_, List.mem_singleton.mpr rfl, storesIn_single (storesIn_unitWrites _ _ _ _ _ _) st h⟩
      | runPlane =>
        simp only at h
        split at h
        · cases h
        · rename_i u hu
          split at h
          · cases h
          · exact ⟨u, List.mem_of_getElem? hu, storesIn_single (storesIn_unitWrites _ _ _ _ _ _) st h⟩
      | _ => cases h

/-- The writes under way of an accepted command lie inside sample memory (R85). -/
theorem pendingStores_bounded (i : Instr) (s : State) (ha : acceptCheck i s.snap.regs = .none) :
    ∀ st ∈ pendingStores i s, st.addr + st.bytes.length ≤ memorySize := by
  intro st hst
  obtain ⟨bd, hbd, u, hu, hin⟩ := pendingStores_in i s st hst
  have h := destCells_inPlane i s.snap.regs bd hbd ha u hu
  exact hin.bounded h.2 h.1 st (List.mem_singleton.mpr rfl)

/-- A byte outside the destination of the command is in no write under way (R82). -/
theorem pendingStores_outside (i : Instr) (s : State) (a : Nat) (ha : ¬ destByte i s.snap.regs a) :
    outsideStores (pendingStores i s) a := by
  intro st hst
  obtain ⟨bd, hbd, u, hu, hin⟩ := pendingStores_in i s st hst
  exact hin.outside a (fun h => ha (destByte_of_cells i _ bd hbd a ⟨u, hu, h⟩)) st (List.mem_singleton.mpr rfl)

theorem loosen_disjoint (d : Nat) (sts : List Store) (h : sts.Pairwise Store.disjoint) :
    (loosen d sts).Pairwise Store.disjoint := by
  unfold loosen
  rw [List.pairwise_map]
  refine h.imp fun {a b} hab => ?_
  unfold Store.disjoint at *
  simp only [looseBytes_length]
  exact hab

theorem unitWrites_disjoint (rec : UnitRecord) (p : Params) (bd : BitDepth) (u : UnitRect) (loose : Bool) (s : State)
    (hp : PlaneOK p.dstBase p.dstStride bd (planeW p) (planeH p)) (hu : UnitInPlane p u) :
    (unitWrites rec p bd u loose s).Pairwise Store.disjoint := by
  unfold unitWrites
  cases loose with
  | false => exact unitStores_disjoint p bd u _ hp hu
  | true => exact loosen_disjoint _ _ (unitStores_disjoint p bd u _ hp hu)

theorem destCells_apart (i : Instr) (p : Params) : (destCells i p).Pairwise UnitRect.apart := by
  cases i with
  | runUnit => exact List.pairwise_singleton _ _
  | runPlane => exact gridCells_apart p
  | _ => exact List.Pairwise.nil

/-- The writes under way of an accepted command are disjoint containers (R82, R85). -/
theorem pendingStores_disjoint (i : Instr) (s : State) (ha : acceptCheck i s.snap.regs = .none) :
    (pendingStores i s).Pairwise Store.disjoint := by
  unfold pendingStores
  simp only
  split
  · exact List.Pairwise.nil
  · rename_i bd hbd
    have hin := destCells_inPlane i s.snap.regs bd hbd ha
    split
    · unfold looseDest
      rw [List.pairwise_flatMap]
      refine ⟨fun u hu => loosen_disjoint _ _ (unitStores_disjoint _ _ _ _ (hin u hu).2 (hin u hu).1), ?_⟩
      refine (destCells_apart i s.snap.regs).imp_of_mem fun {u v} hu hv huv x hx y hy => ?_
      obtain ⟨x', hx', rfl⟩ := List.mem_map.mp hx
      obtain ⟨y', hy', rfl⟩ := List.mem_map.mp hy
      obtain ⟨r, c, hr, hc, rfl⟩ := (mem_unitStores ..).mp hx'
      obtain ⟨r', c', hr', hc', rfl⟩ := (mem_unitStores ..).mp hy'
      have hu1 := (hin u hu).1.right
      have hv1 := (hin v hv).1.right
      have := sampleAddr_disjoint s.snap.regs.dstBase s.snap.regs.dstStride bd (planeW s.snap.regs)
        (planeH s.snap.regs) (u.y0 + r) (u.x0 + c) (v.y0 + r') (v.x0 + c') (hin u hu).2 (by omega) (by omega)
        (by unfold UnitRect.apart at huv; omega)
      simp only [Store.disjoint, looseBytes_length, dstStore_length, dstStore_addr]
      exact this
    · cases i with
      | runUnit =>
        simp only
        split
        · exact List.Pairwise.nil
        · have h := hin _ (List.mem_singleton.mpr rfl)
          exact unitWrites_disjoint _ _ _ _ _ _ h.2 h.1
      | runPlane =>
        simp only
        split
        · exact List.Pairwise.nil
        · rename_i u hu
          have h := hin u (List.mem_of_getElem? hu)
          split
          · exact List.Pairwise.nil
          · exact unitWrites_disjoint _ _ _ _ _ _ h.2 h.1
      | _ => exact List.Pairwise.nil

/-- Where no rule of R96 and R97 is broken, the writes under way of an accepted command carry the values of its filter
rule (R82). -/
theorem pendingStores_rule (i : Instr) (s : State) (ha : acceptCheck i s.snap.regs = .none)
    (ht : s.taint = Taint.clear) (hal : aliased i s.snap.regs = false) (st : Store) (hst : st ∈ pendingStores i s) :
    ∃ v, ruleValue i s st.addr v ∧ st.bytes = leBytes (sampleBytesOf s.snap.regs.format) v.toNat := by
  unfold pendingStores at hst
  simp only at hst
  split at hst
  · cases hst
  · rename_i bd hbd
    have hin := destCells_inPlane i s.snap.regs bd hbd ha
    rw [sampleBytesOf_eq _ _ hbd]
    rw [if_neg (by rw [ht]; decide)] at hst
    cases i with
    | runUnit =>
      simp only at hst
      split at hst
      · cases hst
      · rename_i kind hk
        rw [hal] at hst
        obtain ⟨r, c, hr, hc, rfl⟩ := (mem_unitWrites _ _ _ _ _ (hin _ (List.mem_singleton.mpr rfl)).1 _).mp hst
        exact ⟨_, ⟨bd, kind, r, c, hbd, hk, hr, hc, rfl, rfl⟩, rfl⟩
    | runPlane =>
      simp only at hst
      split at hst
      · cases hst
      · rename_i u hu
        split at hst
        · cases hst
        · rename_i rec failed hrd
          have hu' := hin u (List.mem_of_getElem? hu)
          have hrec : cellRecord s.mem s.snap.regs s.progress = some rec := by
            have hw : ∀ m, descWord s.snap.regs s.progress m s = cellWord s.mem s.snap.regs s.progress m := by
              intro m
              simp [descWord, ht, Taint.clear, cellWord, descAddr]
            exact readDescriptor_record _ _ _ hw _ hrd
          rw [hal] at hst
          obtain ⟨r, c, hr, hc, rfl⟩ := (mem_unitWrites _ _ _ _ _ hu'.1 _).mp hst
          exact ⟨_, ⟨bd, u, rec, r, c, hbd, hu, hrec, hr, hc, rfl, rfl⟩, rfl⟩
    | _ => cases hst

/-! ### What the running command found at its acceptance (R97) -/

/-- The destination bytes of an accepted command lie in its destination ranges (R82). -/
theorem destCells_spans (i : Instr) (p : Params) (bd : BitDepth) (hbd : bitDepth? p.format = some bd)
    (ha : acceptCheck i p = .none) (u : UnitRect) (hu : u ∈ destCells i p) (a : Nat) (h : unitDestByte p bd u a) :
    ∃ sp ∈ destSpans i p, sp.has a := by
  obtain ⟨sp, hsp, hh⟩ := unitDestByte_has p bd u a h
  have hin := (destCells_inPlane i p bd hbd ha u hu).1
  cases i with
  | runUnit =>
    cases List.mem_singleton.mp hu
    exact ⟨sp, by simpa only [destSpans, hbd] using hsp, hh⟩
  | runPlane =>
    obtain ⟨sp', hsp', hw⟩ := unitDest_plane p bd u hin sp hsp
    refine ⟨sp', by simpa only [destSpans, hbd] using hsp', ?_⟩
    unfold Span.within at hw
    unfold Span.has at *
    omega
  | _ => exact absurd hu (by simp [destCells])

/-- Restored ranges read as in the other memory, and every other byte as before. -/
theorem read_restoreSpans (old : Memory) (spans : List Span) : ∀ m : Memory, m.wf → ∀ a,
    ((∃ sp ∈ spans, sp.has a) → (restoreSpans old spans m).read a = old.read a) ∧
      ((¬ ∃ sp ∈ spans, sp.has a) → (restoreSpans old spans m).read a = m.read a) := by
  induction spans with
  | nil => intro m _ a; exact ⟨fun ⟨_, h, _⟩ => absurd h (by simp), fun _ => rfl⟩
  | cons sp spans ih =>
    intro m hm a
    have hw := Memory.wf_writeBytes ((List.range sp.len).map fun k => old.read (sp.start + k)) m sp.start hm
    have hi := ih _ hw a
    have hcons : restoreSpans old (sp :: spans) m = restoreSpans old spans
        (m.writeBytes sp.start ((List.range sp.len).map fun k => old.read (sp.start + k))) := rfl
    rw [hcons]
    by_cases hlater : ∃ sp ∈ spans, sp.has a
    · obtain ⟨sp', h', hh⟩ := hlater
      exact ⟨fun _ => hi.1 ⟨sp', h', hh⟩, fun hn => absurd ⟨sp', List.mem_cons_of_mem _ h', hh⟩ hn⟩
    · rw [hi.2 hlater]
      refine ⟨fun ⟨sp', h', hh⟩ => ?_, fun hn => ?_⟩
      · rcases List.mem_cons.mp h' with rfl | h'
        · unfold Span.has at hh
          have := Memory.read_writeBytes_inside ((List.range sp'.len).map fun k => old.read (sp'.start + k)) m sp'.start
            (a - sp'.start) hm (by simp; omega)
          rw [show sp'.start + (a - sp'.start) = a by omega] at this
          rw [this]
          simp [show sp'.start + (a - sp'.start) = a by omega]
        · exact absurd ⟨sp', h', hh⟩ hlater
      · refine Memory.read_writeBytes_outside _ _ _ _ ?_
        have : ¬ sp.has a := fun h => hn ⟨sp, List.mem_cons_self .., h⟩
        unfold Span.has at this
        simp only [List.length_map, List.length_range]
        omega

theorem beforeMem_wf (i : Instr) (s : State) (h : s.mem.wf) : (beforeMem i s).wf := by
  unfold beforeMem restoreSpans
  split
  · exact Memory.wf_writeStores _ _ h
  · exact h

/-- Where R97 is not broken, a container not yet written is found in memory itself. -/
theorem beforeMem_clear (i : Instr) (s : State) (h : s.taint.any = false) : beforeMem i s = s.mem := by
  simp [beforeMem, h]

/-- After a breach of R97 every destination byte is found as it was before the command, every other byte as it is. -/
theorem read_beforeMem (i : Instr) (s : State) (hw : s.mem.wf) (h : s.taint.any = true) (a : Nat) :
    ((∃ sp ∈ destSpans i s.snap.regs, sp.has a) → (beforeMem i s).read a = s.start.mem.read a) ∧
      ((¬ ∃ sp ∈ destSpans i s.snap.regs, sp.has a) → (beforeMem i s).read a = s.mem.read a) := by
  simp only [beforeMem, h, if_true]
  exact read_restoreSpans _ _ _ hw a

/-- A store by another agent that leaves R97 unbroken for a BUSY command's rows and containers changes no byte of its
destination (R97). -/
theorem agentStore_outside (i : Instr) (a : Nat) (bytes : List Byte) (s : State) (hb : s.fsm = .busy i)
    (ht : (agentStore a bytes s).taint.data = false) (x : Nat) (hx : ∃ sp ∈ destSpans i s.snap.regs, sp.has x) :
    s.taint.data = false ∧ (agentStore a bytes s).mem.read x = s.mem.read x := by
  simp only [agentStore, hb, taintBy, Bool.or_eq_false_iff] at ht
  refine ⟨ht.1, Memory.read_writeBytes_outside _ _ _ _ ?_⟩
  obtain ⟨sp, hsp, hh⟩ := hx
  have := ht.2
  unfold spansHit at this
  rw [List.any_eq_false] at this
  have hn := this sp (List.mem_append.mpr (.inr hsp))
  by_contra hc
  apply hn
  exact (Span.meets_iff _ _).mpr ⟨x, by unfold Span.has; simp only; omega, hh⟩

/-! ### A cell in a turn of its own (R89, R258) -/

theorem runCells_cons (p : Params) (bd : BitDepth) (loose : Bool) (k : Nat) (u : UnitRect) (us : List UnitRect)
    (s : State) : runCells p bd loose k (u :: us) s =
      match runCells p bd loose k [u] s with
      | (none, n, t) => runCells p bd loose n us t
      | r => r := by
  simp only [runCells]
  cases readDescriptor p k s with
  | error e => rfl
  | ok d =>
    simp only
    cases (filterUnit d.1 p bd u loose d.2 (afterDescriptor p k s)).1 <;> rfl

theorem afterDescriptor_progress (p : Params) (k n : Nat) (s : State) :
    afterDescriptor p k { s with progress := n } = { afterDescriptor p k s with progress := n } := by
  unfold afterDescriptor
  split <;> rfl

/-- The cells of run.plane do not look at how many came before them. -/
theorem runCells_progress (p : Params) (bd : BitDepth) (loose : Bool) (n : Nat) (us : List UnitRect) :
    ∀ (k : Nat) (s : State), runCells p bd loose k us { s with progress := n } =
      ((runCells p bd loose k us s).1, (runCells p bd loose k us s).2.1,
        { (runCells p bd loose k us s).2.2 with progress := n }) := by
  induction us with
  | nil => intro k s; rfl
  | cons u us ih =>
    intro k s
    have hrd : readDescriptor p k { s with progress := n } = readDescriptor p k s := rfl
    simp only [runCells, hrd, afterDescriptor_progress]
    cases readDescriptor p k s with
    | error e => rfl
    | ok d =>
      have hf : ∀ x, filterUnit d.1 p bd u loose d.2 { x with progress := n } =
          ((filterUnit d.1 p bd u loose d.2 x).1, { (filterUnit d.1 p bd u loose d.2 x).2 with progress := n }) :=
        fun x => rfl
      simp only [hf]
      cases (filterUnit d.1 p bd u loose d.2 (afterDescriptor p k s)).1 with
      | some e => rfl
      | none => exact ih (k + 1) _

/-- The end of run.plane does not depend on the progress recorded. -/
theorem finishPlane_progress (p : Params) (bd : BitDepth) (e : Option ErrCode) (k n : Nat) (s : State) :
    finishPlane p bd (e, k, { s with progress := n }) = finishPlane p bd (e, k, s) := by
  by_cases h : s.taint.any = true <;> cases e <;>
    simp [finishPlane, spoil, setResults, finish, h, complete, raiseError]

/-- Everything a cell turn can do: nothing, one more cell complete, its containers alone written and the command still BUSY, or
the end of the command (R89, R253, R258). -/
theorem performCell_cases (s t : State) (h : performCell s = .next t) :
    t = s ∨ Ended .runPlane s t ∨
      (t.progress = s.progress + 1 ∧ s.progress < cellCount s.snap.regs ∧
        (∃ bd u, bitDepth? s.snap.regs.format = some bd ∧ (gridCells s.snap.regs)[s.progress]? = some u ∧
          MemoryOnly (unitDestByte s.snap.regs bd u) s { t with progress := s.progress }) ∧
        (acceptCheck .runPlane s.snap.regs = .none → s.mem.bounded → t.mem.bounded)) := by
  unfold performCell at h
  simp only at h
  split at h
  · cases h; exact .inl rfl
  · rename_i bd hbd
    split at h
    · cases h; exact .inl rfl
    · rename_i u hu
      replace h := onOrdinaryMemory_next _ _ _ _ h
      injection h with h
      have hmem := List.mem_of_getElem? hu
      have hend := ended_finishPlane s bd s.progress [u] hbd (by simpa using hmem)
      have hspec := runCells_spec s.snap.regs bd (aliased .runPlane s.snap.regs) [u] s.progress s
      unfold afterCell at h
      split at h
      · rename_i hnone
        right; right
        subst h
        have hn : (runCells s.snap.regs bd (aliased .runPlane s.snap.regs) s.progress [u] s).2.1 = s.progress + 1 := by
          rcases hspec.2.1 with ⟨-, h⟩ | ⟨h | h, -⟩
          · simpa using h
          · rw [hnone] at h; cases h
          · rw [hnone] at h; cases h
        refine ⟨hn, ?_, ?_, fun ha hb => ?_⟩
        · rw [← gridCells_length]
          exact (List.getElem?_eq_some_iff.mp hu).1
        · have hm := hspec.1.weaken (Q := unitDestByte s.snap.regs bd u) fun a ⟨v, hv, hva⟩ => by
            cases List.mem_singleton.mp hv
            exact hva
          refine ⟨bd, u, hbd, hu, ?_, hm.outside, hm.wf⟩
          have := hm.fields
          simp only
          rw [this]
        · have hin := destCells_inPlane .runPlane s.snap.regs bd hbd ha u hmem
          exact hspec.2.2 hin.2 (by simpa using hin.1) hb
      · subst h
        exact .inr (.inl hend)

/-- Doing the next cell in a turn of its own changes nothing about how the command ends (R89, R258, R262). -/
theorem performRunPlane_after_cell (s t u : State) (hc : performCell s = .next t) (hb : t.fsm ≠ .idle)
    (hp : performRunPlane s = .next u) : performRunPlane t = .next u := by
  unfold performCell at hc
  simp only at hc
  split at hc
  · cases hc; exact hp
  · rename_i bd hbd
    split at hc
    · cases hc; exact hp
    · rename_i c hcell
      have hdev := onOrdinaryMemory_next _ _ _ _ hc
      injection hdev with hdev
      have hpl : touches .device (ordinarySpans .runPlane s.snap.regs) s.regions = false := by
        by_contra hn
        rw [onOrdinaryMemory_device _ _ _ (by simpa using hn)] at hc
        cases hc
      rw [performRunPlane_eq s bd hbd hpl] at hp
      have hdrop : (gridCells s.snap.regs).drop s.progress = c :: (gridCells s.snap.regs).drop (s.progress + 1) := by
        obtain ⟨hlt, rfl⟩ := List.getElem?_eq_some_iff.mp hcell
        exact List.drop_eq_getElem_cons hlt
      have hspec := runCells_spec s.snap.regs bd (aliased .runPlane s.snap.regs) [c] s.progress s
      rw [hdrop, runCells_cons] at hp
      generalize runCells s.snap.regs bd (aliased .runPlane s.snap.regs) s.progress [c] s = r at hp hdev hspec
      obtain ⟨e, n, m⟩ := r
      cases e with
      | some e =>
        exfalso
        apply hb
        subst hdev
        simp [afterCell, finishPlane, finish]
      | none =>
        simp only [afterCell] at hdev hp
        have hn : n = s.progress + 1 := by
          rcases hspec.2.1 with ⟨-, h⟩ | ⟨h | h, -⟩
          · simpa using h
          · cases h
          · cases h
        subst hn hdev
        have hf := hspec.1.fields
        simp only at hf hp
        have e1 : m.snap = s.snap := by rw [hf]
        have e2 : m.regions = s.regions := by rw [hf]
        have hq := performRunPlane_eq { m with progress := s.progress + 1 } bd (by simp only [e1]; exact hbd)
          (by simp only [e1, e2]; exact hpl)
        rw [hq, runCells_progress, finishPlane_progress, ← hp]
        simp only [e1]

end Sys2Proof.Machine
end

