-- ==== Sys2Proof/Laws/PerInstr.lean ====
section
/-! SUPPORT. The encoding of each command, one lemma per constructor (R100, R101, R110). -/
namespace Sys2Proof.Laws.Encoding

/-- The word of a command is legal by R110's own words, its OP and PASS fields are the command's, the decoder gives the
command back, and the command is well formed. -/
def Statement (i : Instr) : Prop :=
  i.wellFormed = true ∧ illegalWord (encode i) = false ∧ (cmdOp (encode i)).toNat = i.opNumber ∧
    (cmdPass (encode i)).toNat = i.passNumber ∧ decode (encode i) = .ok i

theorem nop : Statement .nop := by unfold Statement; decide
theorem runUnit : Statement .runUnit := by unfold Statement; decide
theorem runPlane : Statement .runPlane := by unfold Statement; decide
theorem primRsr : Statement .primRsr := by unfold Statement; decide
theorem primClip3 : Statement .primClip3 := by unfold Statement; decide
theorem primLut : Statement .primLut := by unfold Statement; decide
theorem primBox3 : Statement .primBox3 := by unfold Statement; decide
theorem primBox5 : Statement .primBox5 := by unfold Statement; decide
theorem primSgrab (pass : Pass) : Statement (.primSgrab pass) := by cases pass <;> (unfold Statement; decide)

end Sys2Proof.Laws.Encoding
end

