-- ==== Sys2Proof/Laws/Race.lean ====
section
/-! SUPPORT. What a host read of a BUSY command's destination can return: the value before the command, or the one memory
holds when the command ends (R82, R97). -/
namespace Sys2Proof.Machine

/-! ### What the writes under way come to when the command ends (R82, R97) -/

theorem unitWrites_afterDescriptor (rec : UnitRecord) (p : Params) (bd : BitDepth) (u : UnitRect) (loose : Bool) (k : Nat)
    (s : State) : unitWrites rec p bd u loose (afterDescriptor p k s) = unitWrites rec p bd u loose s := by
  unfold afterDescriptor
  split <;> rfl

/-- Where another agent has not changed the descriptors, the record of a cell depends on memory and the platform alone. -/
theorem readDescriptor_ok_iff (p : Params) (k : Nat) (s t : State) (hm : t.mem = s.mem) (hr : t.regions = s.regions)
    (ht : t.taint = s.taint) (hd : s.taint.desc = false) :
    ∀ d, readDescriptor p k t = .ok d ↔ readDescriptor p k s = .ok d := by
  have hw : ∀ m, descWord p k m t = descWord p k m s := fun m => by simp [descWord, ht, hd, hm]
  intro d
  unfold readDescriptor descRecord
  simp only [hw, hr]
  split
  · simp
  · split
    · constructor <;> intro h <;> split at h <;> cases h
    · rfl

/-- The writes under way do not depend on the host or on how many free values have been taken since (R97). -/
theorem pendingStores_congr (i : Instr) (s t : State) (h : t = { s with host := t.host, draws := t.draws }) :
    pendingStores i t = pendingStores i s := by
  have e1 : t.snap = s.snap := by rw [h]
  have e2 : t.taint = s.taint := by rw [h]
  have e3 : t.start = s.start := by rw [h]
  have e4 : t.mem = s.mem := by rw [h]
  have e5 : t.regions = s.regions := by rw [h]
  have e6 : t.progress = s.progress := by rw [h]
  have e7 : ∀ rec p bd u l, unitWrites rec p bd u l t = unitWrites rec p bd u l s := by
    intros; rw [h]; rfl
  unfold pendingStores
  simp only [e1, e2, e3, e6, e7]
  cases bitDepth? s.snap.regs.format with
  | none => rfl
  | some bd =>
    simp only
    split
    · rfl
    · rename_i hn
      have hd : s.taint.desc = false := by
        simp only [Taint.any, Bool.or_eq_true, not_or, Bool.not_eq_true] at hn
        exact hn.2
      cases i with
      | runPlane =>
        simp only
        split
        · rfl
        · have hiff := readDescriptor_ok_iff s.snap.regs s.progress s t e4 e5 e2 hd
          cases h1 : readDescriptor s.snap.regs s.progress s with
          | ok d => rw [(hiff d).mpr h1]
          | error e =>
            cases h2 : readDescriptor s.snap.regs s.progress t with
            | ok d => rw [(hiff d).mp h2] at h1; cases h1
            | error e' => rfl
      | _ => rfl

@[simp] theorem finish_mem (r : Option ErrCode × State) : (finish r).mem = r.2.mem := by
  obtain ⟨e, m⟩ := r
  cases e <;> rfl

/-- After a breach of R97 a command ends with a free value in each of its destination containers (U3). -/
theorem perform_spoiled (i : Instr) (s u : State) (bd : BitDepth) (hbd : bitDepth? s.snap.regs.format = some bd)
    (ha : acceptCheck i s.snap.regs = .none) (hw : s.mem.wf) (hp : perform i s = .next u) (ht : s.taint.any = true) :
    ∃ m : Memory, m.wf ∧
      (destCells i s.snap.regs ≠ [] → u.mem = m.writeStores (looseDest s.start.draw i s.snap.regs bd)) := by
  cases i with
  | runUnit =>
    obtain ⟨bd', kind, hbd', hk, -⟩ := accepted_runUnit _ ha
    simp only [perform, performRunUnit, hbd, hk] at hp
    replace hp := onOrdinaryMemory_next _ _ _ _ hp
    injection hp with hp
    have hf := filterUnit_spec (snapshotRecord s.snap.regs kind) s.snap.regs bd (unitOf s.snap.regs)
      (aliased .runUnit s.snap.regs) false s
    refine ⟨_, hf.1.wf hw, fun _ => ?_⟩
    rw [← hp, finish_mem, spoil_mem _ _ _ _ (by rw [hf.1.fields]; exact ht), hf.1.fields]
  | runPlane =>
    simp only [perform, performRunPlane, hbd] at hp
    replace hp := onOrdinaryMemory_next _ _ _ _ hp
    injection hp with hp
    have hf := runCells_spec s.snap.regs bd (aliased .runPlane s.snap.regs) ((gridCells s.snap.regs).drop s.progress)
      s.progress s
    refine ⟨_, hf.1.wf hw, fun _ => ?_⟩
    rw [← hp, finishPlane, finish_mem, spoil_mem _ _ _ _ (by rw [setResults_taint, hf.1.fields]; exact ht),
      setResults_mem, setResults_start, hf.1.fields]
  | _ => exact ⟨s.mem, hw, fun h => absurd rfl h⟩

/-- A cell's writes are no destination bytes of the cells after it (R257, R82). -/
theorem unitWrites_later (s : State) (bd : BitDepth) (ha : acceptCheck .runPlane s.snap.regs = .none)
    (hbd : bitDepth? s.snap.regs.format = some bd) (c : UnitRect) (hc : (gridCells s.snap.regs)[s.progress]? = some c)
    (rec : UnitRecord) (loose : Bool) (st : Store) (hst : st ∈ unitWrites rec s.snap.regs bd c loose s) (k : Nat)
    (hk : k < st.bytes.length) :
    ¬ ∃ v ∈ (gridCells s.snap.regs).drop (s.progress + 1), unitDestByte s.snap.regs bd v (st.addr + k) := by
  rintro ⟨v, hv, hvb⟩
  have hsub := (gridCells_apart s.snap.regs).sublist (List.drop_sublist s.progress _)
  obtain ⟨hlt, rfl⟩ := List.getElem?_eq_some_iff.mp hc
  rw [List.drop_eq_getElem_cons hlt] at hsub
  have hin := destCells_inPlane .runPlane s.snap.regs bd hbd ha
  have hU := hin _ (List.mem_of_getElem? hc)
  have hV := hin v (List.mem_of_mem_drop hv)
  obtain ⟨r, q, h1, h2, h3, h4⟩ := storesIn_unitWrites _ _ _ _ _ _ st hst
  exact apart_container _ bd _ v hU.2 hU.1 hV.1 ((List.pairwise_cons.mp hsub).1 v hv) r q _ h1 h2 (by omega) (by omega)
    hvb

/-- A command that no error stops, or for which R97 is broken, ends with every write that was under way performed: what a
host read may have returned as the new value is what memory then holds (R82, R97). -/
theorem perform_writes (i : Instr) (s u : State) (hw : s.mem.wf) (ha : acceptCheck i s.snap.regs = .none)
    (hp : perform i s = .next u) (h : s.taint.any = true ∨ u.err = false) :
    ∀ st ∈ pendingStores i s, ∀ (k : Nat) (hk : k < st.bytes.length), u.mem.read (st.addr + k) = st.bytes[k] := by
  intro st hst k hk
  have hdis := pendingStores_disjoint i s ha
  obtain ⟨bd, hbd, v, hv, -⟩ := pendingStores_in i s st hst
  by_cases ht : s.taint.any = true
  · obtain ⟨m, hm, hmem⟩ := perform_spoiled i s u bd hbd ha hw hp ht
    rw [hmem (List.ne_nil_of_mem hv)]
    have e1 : pendingStores i s = looseDest s.start.draw i s.snap.regs bd := by simp only [pendingStores, hbd, ht, if_true]
    rw [e1] at hst hdis
    exact Memory.read_writeStores_inside _ _ hm hdis st hst k hk
  · have he := h.resolve_left ht
    rw [Bool.not_eq_true] at ht
    cases i with
    | runUnit =>
      obtain ⟨bd', kind, hbd', hk', -⟩ := accepted_runUnit _ ha
      have e1 : pendingStores .runUnit s = unitWrites (snapshotRecord s.snap.regs kind) s.snap.regs bd
          (unitOf s.snap.regs) (aliased .runUnit s.snap.regs) s := by
        simp only [pendingStores, hbd, ht, hk']
        rfl
      rw [e1] at hst hdis
      simp only [perform, performRunUnit, hbd, hk'] at hp
      replace hp := onOrdinaryMemory_next _ _ _ _ hp
      injection hp with hp
      have hf := filterUnit_spec (snapshotRecord s.snap.regs kind) s.snap.regs bd (unitOf s.snap.regs)
        (aliased .runUnit s.snap.regs) false s
      rw [spoil_kept _ _ _ _ (by rw [hf.1.fields]; exact ht)] at hp
      rw [← hp] at he
      rw [← hp, finish_mem]
      cases hfail : unitFails (snapshotRecord s.snap.regs kind) s.snap.regs bd (unitOf s.snap.regs) s with
      | true => simp [filterUnit, hfail, finish, raiseError] at he
      | false =>
        simp only [filterUnit, hfail, Bool.or_false, Bool.false_eq_true, if_false]
        exact Memory.read_writeStores_inside _ _ hw hdis st hst k hk
    | runPlane =>
      simp only [perform, performRunPlane, hbd] at hp
      replace hp := onOrdinaryMemory_next _ _ _ _ hp
      injection hp with hp
      have hf := runCells_spec s.snap.regs bd (aliased .runPlane s.snap.regs)
        ((gridCells s.snap.regs).drop s.progress) s.progress s
      rw [finishPlane, spoil_kept _ _ _ _ (by rw [setResults_taint, hf.1.fields]; exact ht)] at hp
      rw [← hp] at he
      rw [← hp, finish_mem, setResults_mem]
      simp only [pendingStores, hbd, ht, Bool.false_eq_true, if_false] at hst
      split at hst
      · cases hst
      · rename_i c hc
        split at hst
        · cases hst
        · rename_i rec failed hrd
          have hdrop : (gridCells s.snap.regs).drop s.progress = c :: (gridCells s.snap.regs).drop (s.progress + 1) := by
            obtain ⟨hlt, rfl⟩ := List.getElem?_eq_some_iff.mp hc
            exact List.drop_eq_getElem_cons hlt
          simp only [hdrop, runCells, hrd] at he ⊢
          cases hfail : failed || unitFails rec s.snap.regs bd c (afterDescriptor s.snap.regs s.progress s) with
          | true => simp [filterUnit, hfail, finish, raiseError] at he
          | false =>
            have hnone : (filterUnit rec s.snap.regs bd c (aliased .runPlane s.snap.regs) failed
                (afterDescriptor s.snap.regs s.progress s)).1 = none := by
              simp only [filterUnit, hfail]
              rfl
            rw [hnone]
            have hin := destCells_inPlane .runPlane s.snap.regs bd hbd ha c (List.mem_of_getElem? hc)
            have hwm : (afterDescriptor s.snap.regs s.progress s).mem = s.mem := by unfold afterDescriptor; split <;> rfl
            rw [(runCells_spec s.snap.regs bd _ _ (s.progress + 1) _).1.outside _
              (unitWrites_later s bd ha hbd c hc rec _ st hst k hk)]
            simp only [filterUnit, hfail, Bool.false_eq_true, if_false, hwm, unitWrites_afterDescriptor]
            exact Memory.read_writeStores_inside _ _ hw (unitWrites_disjoint _ _ _ _ _ _ hin.2 hin.1) st hst k hk
    | _ => exact absurd hv (by simp [destCells])

/-- A running run.plane for which R97 is not broken leaves the containers of its completed cells as they are (R89). -/
theorem performRunPlane_earlier (s u : State) (bd : BitDepth) (hbd : bitDepth? s.snap.regs.format = some bd)
    (ha : acceptCheck .runPlane s.snap.regs = .none) (hp : performRunPlane s = .next u) (ht : s.taint.any = false)
    (k : Nat) (v : UnitRect) (hv : (gridCells s.snap.regs)[k]? = some v) (hk : k < s.progress) (x : Nat)
    (hx : unitDestByte s.snap.regs bd v x) : u.mem.read x = s.mem.read x := by
  simp only [performRunPlane, hbd] at hp
  replace hp := onOrdinaryMemory_next _ _ _ _ hp
  injection hp with hp
  subst hp
  have hf := runCells_spec s.snap.regs bd (aliased .runPlane s.snap.regs) ((gridCells s.snap.regs).drop s.progress)
    s.progress s
  rw [finishPlane, spoil_kept _ _ _ _ (by rw [setResults_taint, hf.1.fields]; exact ht), finish_mem, setResults_mem]
  refine hf.1.outside x ?_
  rintro ⟨c, hc, hcb⟩
  obtain ⟨r, q, h1, h2, h3, h4⟩ := hx
  obtain ⟨n, hn, hcn⟩ := List.mem_iff_getElem.mp hc
  rw [List.getElem_drop] at hcn
  obtain ⟨hlt, hvk⟩ := List.getElem?_eq_some_iff.mp hv
  have hU := destCells_inPlane .runPlane s.snap.regs bd hbd ha v (List.mem_of_getElem? hv)
  have hV := destCells_inPlane .runPlane s.snap.regs bd hbd ha c (List.mem_of_mem_drop hc)
  have hap := List.pairwise_iff_getElem.mp (gridCells_apart s.snap.regs) k (s.progress + n) hlt
    (by rw [List.length_drop] at hn; omega) (by omega)
  exact apart_container _ bd v c hU.2 hU.1 hV.1 (hvk ▸ hcn ▸ hap) r q x h1 h2 h3 h4 hcb

/-- A load of one container takes its old or its new value as a whole (R86, R97). -/
theorem raceReadLE_container (p : Params) (draw : Nat) (old new : Memory) (b n : Nat) : ∀ a : Nat,
    (∀ k < n, containerBase p (a + k) = b) →
      raceReadLE p draw old new a n = (if Config.raceRead draw b then new else old).readLE a n := by
  induction n with
  | zero => intro a _; rfl
  | succ n ih =>
    intro a h
    simp only [raceReadLE, Memory.readLE]
    rw [ih (a + 1) fun k hk => by rw [show a + 1 + k = a + (k + 1) by omega]; exact h _ (by omega),
      show containerBase p a = b from h 0 (by omega)]

end Sys2Proof.Machine
end

