-- ==== Sys2Proof/Tests/Slice0.lean ====
section
/-! SUPPORT. Tests: the encodings of R101 bit by bit, ill-formed host statements, one step per command with results from
spec/95_test_vectors.md, and for every obligation with hypotheses a state and operands that meet them (`test_meets_…`). -/
namespace Sys2Proof.Tests
open Sys2Proof Sys2Proof.Machine

/-! ### Decoding, each word written bit by bit as bits 31:5 RSV, 4 PASS, 3:0 OP (R100, R101) -/

theorem test_decode_nop : decode 0b000000000000000000000000000_0_0000#32 = .ok .nop := by decide
theorem test_decode_run_unit : decode 0b000000000000000000000000000_0_0001#32 = .ok .runUnit := by decide
theorem test_decode_run_plane : decode 0b000000000000000000000000000_0_0010#32 = .ok .runPlane := by decide
theorem test_decode_prim_rsr : decode 0b000000000000000000000000000_0_0011#32 = .ok .primRsr := by decide
theorem test_decode_prim_clip3 : decode 0b000000000000000000000000000_0_0100#32 = .ok .primClip3 := by decide
theorem test_decode_prim_lut : decode 0b000000000000000000000000000_0_0101#32 = .ok .primLut := by decide
theorem test_decode_prim_box3 : decode 0b000000000000000000000000000_0_0110#32 = .ok .primBox3 := by decide
theorem test_decode_prim_box5 : decode 0b000000000000000000000000000_0_0111#32 = .ok .primBox5 := by decide
theorem test_decode_prim_sgrab_p0 : decode 0b000000000000000000000000000_0_1000#32 = .ok (.primSgrab .p0) := by decide
theorem test_decode_prim_sgrab_p1 : decode 0b000000000000000000000000000_1_1000#32 = .ok (.primSgrab .p1) := by decide
/-- R110: OP in 9 to 15. -/
theorem test_decode_reserved_op : decode 0b000000000000000000000000000_0_1001#32 = .error .reservedOp ∧
    decode 0b000000000000000000000000000_1_1111#32 = .error .reservedOp := by decide
/-- R110: PASS = 1 with OP other than 8. -/
theorem test_decode_pass_bit : decode 0b000000000000000000000000000_1_0000#32 = .error .passBit ∧
    decode 0b000000000000000000000000000_1_0111#32 = .error .passBit := by decide
/-- R110: bits 31:5 not all 0, first and last of them. -/
theorem test_decode_reserved_bits : decode 0b000000000000000000000000001_0_0001#32 = .error .reservedBits ∧
    decode 0b100000000000000000000000000_0_0001#32 = .error .reservedBits := by decide
/-- Vectors E1 to E4: the words of the illegal-command vectors. -/
theorem test_decode_table_illegal : [0x9, 0x21, 0x11, 0xFFFFFFFF].map (decodeTableWord 32) = [none, none, none, none] := by
  decide
/-- R113: the mnemonics name their commands. -/
theorem test_mnemonics : allCommands.map (fun i => commandNamed (mnemonic i)) = allCommands.map some := by decide

/-! ### Ill-formed host statements, one per check (R77, R114). Every term of type `Instr` is well formed (R100). -/

theorem test_ill_formed_wr_width : (HostStmt.wr .w16 0x14#8 (.const 0#32)).wellFormed 1 = false := by decide
theorem test_ill_formed_wr_offset : (HostStmt.wr .w32 0x16#8 (.const 0#32)).wellFormed 1 = false := by decide
theorem test_ill_formed_rd_width : (HostStmt.rd .w8 0x14#8 0).wellFormed 1 = false := by decide
theorem test_ill_formed_rd_offset : (HostStmt.rd .w32 0x15#8 0).wellFormed 1 = false := by decide
theorem test_ill_formed_poll : (HostStmt.poll 0x0D#8 (.const 2#32) (.const 2#32)).wellFormed 1 = false := by decide
theorem test_ill_formed_load : (HostStmt.memR .w32 (.const 0#32) 0).wellFormed 1 = false := by decide
theorem test_ill_formed_branch : (HostStmt.b 2).wellFormed 1 = false := by decide
theorem test_ill_formed_bnz : (HostStmt.bnz 0 2).wellFormed 1 = false := by decide
theorem test_ill_formed_program : programWellFormed [waitStmt, .b 3] = false := by decide
/-- A well-formed program passes, and so does every command (R100). -/
theorem test_well_formed : programWellFormed ((Pseudo.run .runUnit).expand ++ [.bnz 0 0]) = true ∧
    ∀ i ∈ allCommands, i.wellFormed = true := by decide

/-! ### States the tests start from -/

/-- P8 of spec/95_test_vectors.md. -/
def planeP8 (x y : Nat) : Nat := (29 * x + 71 * y + 17 * (x * y % 7)) % 256
/-- Q8 of spec/95_test_vectors.md. -/
def planeQ8 (x y : Nat) : Nat := (if x < 4 then 100 else 140) + (5 * x + 3 * y) % 7 - 3

/-- Memory with an 8-bit plane of w by h samples at `base`, rows w bytes apart; a byte of 0 is not listed. -/
def planeMem (base w h : Nat) (f : Nat → Nat → Nat) : Memory :=
  (List.range (w * h)).filterMap fun k =>
    if f (k % w) (k / w) = 0 then none else some (base + k, BitVec.ofNat 8 (f (k % w) (k / w)))

/-- The base setup B of spec/95_test_vectors.md, with the plane's height and the unit given. -/
def baseParams (ph x0 y0 w h : BitVec 16) : Params :=
  { Params.reset with
    planeSize := packXY 8 ph
    unitPos := packXY x0 y0
    unitSize := packXY w h
    srcBase := 0x1000#32
    srcStride := 8#32
    dstBase := 0x2000#32
    dstStride := 8#32
    unitKind := 1#32
    wienerH := 0x000FF903#32
    wienerV := 0x001EF6FF#32
    sgrMult := 0x001FFFE0#32
    descBase := 0x3000#32
    unitGrid := packXY 8 6 }

/-- A state after reset with these parameters and this memory. -/
def stateWith (p : Params) (m : Memory) : State := { State.reset with params := p, mem := m }

/-- STATUS, RESULT0 and RESULT1 after a command. -/
def ends (o : Outcome) : Option (Word × Word × Word) :=
  match o with
  | .next t => some (readReg .status t, readReg .result0 t, readReg .result1 t)
  | .fault _ => none
  | .refused _ => none

/-- The bytes of memory from `a` after a command. -/
def bytesAfter (o : Outcome) (a n : Nat) : Option (List Nat) :=
  match o with
  | .next t => some ((List.range n).map fun k => (t.mem.read (a + k)).toNat)
  | .fault _ => none
  | .refused _ => none

/-- Reset with operands OPA, OPB, OPC. -/
def withOps (a b c : Word) : State := stateWith { Params.reset with opa := a, opb := b, opc := c } []

/-! ### One step per command, results from spec/95_test_vectors.md -/

/-- Vector E9 and R254: nop with FORMAT = 3 completes and leaves the results. -/
theorem test_nop : ends (exec .nop { stateWith { Params.reset with format := 3#32 } [] with result0 := 0x11#32 }) =
    some (2#32, 0x11#32, 0#32) := by decide

/-- Section 4: the bias sum needs 33 bits. -/
theorem test_prim_rsr_bias : ends (exec .primRsr (withOps 0x7FFFFFFF#32 1#32 0#32)) = some (2#32, 0x40000000#32, 0#32) := by
  decide
/-- Section 4: OPB = 0x21 counts as 1. -/
theorem test_prim_rsr_count : ends (exec .primRsr (withOps 0x64#32 0x21#32 0#32)) = some (2#32, 0x32#32, 0#32) := by decide

/-- Section 4: low > high, v < low gives low. -/
theorem test_prim_clip3_low : ends (exec .primClip3 (withOps 5#32 0xA#32 0#32)) = some (2#32, 0xA#32, 0#32) := by decide
/-- Section 4: the operands are signed. -/
theorem test_prim_clip3_signed : ends (exec .primClip3 (withOps 0x7FFFFFFF#32 0x80000000#32 0xFFFFFFFF#32)) =
    some (2#32, 0xFFFFFFFF#32, 0#32) := by decide

/-- Section 5: the first entry that is not 255. -/
theorem test_prim_lut : ends (exec .primLut (withOps 1#32 0#32 0#32)) = some (2#32, 128#32, 128#32) := by decide
/-- Section 5: operands above 255 read entry 255. -/
theorem test_prim_lut_above : ends (exec .primLut (withOps 0x100#32 0#32 0#32)) = some (2#32, 0#32, 256#32) := by decide

/-- Section 6: the unit (2, 1, 4, 2) never reads plane row 5. -/
theorem test_prim_box3_window : ends (exec .primBox3 (stateWith { baseParams 6 2 1 4 2 with opa := 0x00030000#32 }
    (planeMem 0x1000 8 6 planeP8))) = some (2#32, 1088#32, 153610#32) := by decide
/-- Vector E35: a bus error leaves the results. -/
theorem test_prim_box3_bus_error : ends (exec .primBox3 { stateWith { baseParams 6 0 0 8 6 with opa := 0x00020003#32 } []
    with result0 := 0x11#32, result1 := 0x22#32, regions := [⟨0x1013, 1, .errorResponse⟩] }) =
    some (0x706#32, 0x11#32, 0x22#32) := by decide

/-- Section 6: box coordinates far outside clamp to one sample. -/
theorem test_prim_box5_far : ends (exec .primBox5 (stateWith { baseParams 6 0 0 8 6 with opa := 0x80007FFF#32 }
    (planeMem 0x1000 8 6 planeP8))) = some (2#32, 5075#32, 1030225#32) := by decide
/-- Section 6: the box at (2, 3). -/
theorem test_prim_box5 : ends (exec .primBox5 (stateWith { baseParams 6 0 0 8 6 with opa := 0x00020003#32 }
    (planeMem 0x1000 8 6 planeP8))) = some (2#32, 2751#32, 410669#32) := by decide

/-- Program P1, line 19: the statistic of 25 samples of 100. -/
theorem test_prim_sgrab_flat : ends (exec (.primSgrab .p0) (withOps 2500#32 250000#32 0#32)) =
    some (2#32, 1#32, 0x63B5#32) := by decide
/-- Vector E33: pass 1 is disabled in preset 14. -/
theorem test_prim_sgrab_disabled : ends (exec (.primSgrab .p1) (stateWith { Params.reset with sgrPreset := 14#32 } [])) =
    some (0x606#32, 0#32, 0#32) := by decide

/-- W2: a sub-unit whose window ends at plane row 5. -/
theorem test_run_unit_wiener : bytesAfter (exec .runUnit (stateWith (baseParams 8 2 2 4 2) (planeMem 0x1000 8 8 planeP8)))
    0x2012 12 = some [72, 89, 87, 88, 0, 0, 0, 0, 73, 95, 120, 114] := by decide +kernel
/-- S11: the edge unit (0, 0, 4, 3) of Q8, self-guided. -/
theorem test_run_unit_sgr : bytesAfter (exec .runUnit (stateWith { baseParams 6 0 0 4 3 with unitKind := 2#32 }
    (planeMem 0x1000 8 6 planeQ8))) 0x2000 20 =
    some ([98, 101, 100, 98, 0, 0, 0, 0] ++ [100, 99, 102, 101, 0, 0, 0, 0] ++ [102, 101, 99, 98]) := by decide +kernel

/-- Section 10.1: six cells of KIND 0, the plane copied. -/
theorem test_run_plane_copy : ends (exec .runPlane (stateWith { baseParams 6 0 0 8 6 with unitGrid := packXY 3 4 }
    (planeMem 0x1000 8 6 planeP8))) = some (2#32, 6#32, 6#32) := by decide
/-- Section 10.1: cell 3 of KIND 3 stops the command with three cells done. -/
theorem test_run_plane_bad_kind : ends (exec .runPlane (stateWith { baseParams 6 0 0 8 6 with unitGrid := packXY 3 4 }
    (Memory.write (planeMem 0x1000 8 6 planeP8) 0x3030 3#8))) = some (0x306#32, 3#32, 6#32) := by decide

/-! ### The register window and the life cycle, section 3 of spec/95_test_vectors.md -/

/-- Section 3.1: masked and ignored writes. -/
theorem test_register_masks : ([(.wienerV, 0x12345678#32), (.sgrPreset, 0x1F#32), (.id, 0#32), (.result0, 0x55#32),
    (.format, 0xFFFFFFFF#32)] : List (Reg × Word)).map (fun x => readReg x.1 (writeReg x.1 x.2 State.reset)) =
    [0x02345678#32, 0xF#32, 0x4C520001#32, 0#32, 3#32] := by decide
/-- Section 3.2, step 8: a CMD write while BUSY leaves STATUS 0x9. -/
theorem test_overrun : (match exec .primLut { State.reset with fsm := .busy .primRsr } with
    | .next t => readReg .status t
    | .fault _ => 0#32
    | .refused _ => 0#32) = 9#32 := by decide
/-- Section 3.2, step 5: clearing ERR keeps DONE. -/
theorem test_clear_err : readReg .status (writeReg .status 4#32 (presentIllegal 9#32 State.reset)) = 2#32 := by decide

/-! ### Witnesses: for every obligation with hypotheses, a state and operands that meet them together -/

/-- The unit (2, 1, 4, 2) of P8 with a filter kind. -/
def unitState (kind : Word) : State :=
  stateWith { baseParams 6 2 1 4 2 with unitKind := kind } (planeMem 0x1000 8 6 planeP8)
/-- Six cells over P8, every descriptor of KIND 0. -/
def gridState : State := stateWith { baseParams 6 2 1 4 2 with unitGrid := packXY 3 4 } (planeMem 0x1000 8 6 planeP8)
/-- The same unit of a flat plane of 31. -/
def flatState (kind : Word) : State :=
  stateWith { baseParams 6 2 1 4 2 with unitKind := kind } (planeMem 0x1000 8 6 fun _ _ => 31)
/-- A block BUSY with the Wiener unit. -/
def busyState : State := accepted .runUnit (unitState 1#32)
/-- A state with these regions. -/
def withRegions (rs : List Region) (s : State) : State := { s with regions := rs }
/-- The host's program is `prog`, from its start. -/
def withProgram (prog : List HostStmt) (s : State) : State := { s with host := { prog := prog, pc := 0, names := [] } }

/-- What the hypotheses of the unit obligations say, as one check. -/
def unitPremises (kind : FilterKind) (s : State) : Bool :=
  decide (acceptCheck .runUnit s.params = .none) &&
    !touches .device (ordinarySpans .runUnit s.params) s.regions &&
    !touches .errorResponse (commandSpans .runUnit s.params) s.regions && !aliased .runUnit s.params &&
    decide (bitDepth? s.params.format = some .bd8) && decide (filterKind? s.params.unitKind = some kind)

theorem unitPremises_spec (kind : FilterKind) (s : State) (h : unitPremises kind s = true) :
    acceptCheck .runUnit s.params = .none ∧ onPlainMemory .runUnit s ∧ aliased .runUnit s.params = false ∧
      bitDepth? s.params.format = some .bd8 ∧ filterKind? s.params.unitKind = some kind := by
  simp only [unitPremises, Bool.and_eq_true, decide_eq_true_eq, Bool.not_eq_true'] at h
  exact ⟨h.1.1.1.1.1, ⟨h.1.1.1.1.2, h.1.1.1.2⟩, h.1.1.2, h.1.2, h.2⟩

theorem planeP8_wf : (planeMem 0x1000 8 6 planeP8).wf := by decide
theorem planeFlat_wf : (planeMem 0x1000 8 6 fun _ _ => 31).wf := by decide

/-- CopyUnitWritesTheSourceSamples. -/
theorem test_meets_copy : (unitState 0#32).mem.wf ∧ readyFor (unitState 0#32) ∧
    acceptCheck .runUnit (unitState 0#32).params = .none ∧ onPlainMemory .runUnit (unitState 0#32) ∧
    aliased .runUnit (unitState 0#32).params = false ∧ bitDepth? (unitState 0#32).params.format = some .bd8 ∧
    filterKind? (unitState 0#32).params.unitKind = some .copy :=
  ⟨planeP8_wf, ⟨rfl, rfl⟩, unitPremises_spec .copy (unitState 0#32) (by decide)⟩

/-- WienerUnitWritesTheTwoPassSamples, UnitOutputLiesInThePixelRange, WienerBufferHoldsTheIntermediates. -/
theorem test_meets_wiener : (unitState 1#32).mem.wf ∧ readyFor (unitState 1#32) ∧
    acceptCheck .runUnit (unitState 1#32).params = .none ∧ onPlainMemory .runUnit (unitState 1#32) ∧
    aliased .runUnit (unitState 1#32).params = false ∧ bitDepth? (unitState 1#32).params.format = some .bd8 ∧
    filterKind? (unitState 1#32).params.unitKind = some .wiener :=
  ⟨planeP8_wf, ⟨rfl, rfl⟩, unitPremises_spec .wiener (unitState 1#32) (by decide)⟩

/-- SelfGuidedUnitWritesTheBlend, SgrBuffersHoldTheBoxStatistics: preset 0 enables both passes. -/
theorem test_meets_sgr : (unitState 2#32).mem.wf ∧ readyFor (unitState 2#32) ∧
    acceptCheck .runUnit (unitState 2#32).params = .none ∧ onPlainMemory .runUnit (unitState 2#32) ∧
    aliased .runUnit (unitState 2#32).params = false ∧ bitDepth? (unitState 2#32).params.format = some .bd8 ∧
    filterKind? (unitState 2#32).params.unitKind = some .selfGuided :=
  ⟨planeP8_wf, ⟨rfl, rfl⟩, unitPremises_spec .selfGuided (unitState 2#32) (by decide)⟩

/-- The unit runs to a next state without an error, sample (1, 3) its last (UnitOutputLiesInThePixelRange and the buffer
obligations). -/
theorem test_meets_unit_next : (∃ t, exec .runUnit (unitState 1#32) = .next t ∧ t.err = false) ∧
    (∃ t, exec .runUnit (unitState 2#32) = .next t ∧ t.err = false) ∧
    1 < (unitOf (unitState 1#32).params).h ∧ 3 < (unitOf (unitState 1#32).params).w := by
  refine ⟨?_, ?_, by decide, by decide⟩
  · obtain ⟨h1, h2, h3, h4, h5⟩ := unitPremises_spec .wiener (unitState 1#32) (by decide)
    obtain ⟨t, ht, hf, -⟩ := runUnit_plain _ _ _ planeP8_wf ⟨rfl, rfl⟩ h1 h2 h3 h4 h5
    exact ⟨t, ht, by rw [hf]; rfl⟩
  · obtain ⟨h1, h2, h3, h4, h5⟩ := unitPremises_spec .selfGuided (unitState 2#32) (by decide)
    obtain ⟨t, ht, hf, -⟩ := runUnit_plain _ _ _ planeP8_wf ⟨rfl, rfl⟩ h1 h2 h3 h4 h5
    exact ⟨t, ht, by rw [hf]; rfl⟩

theorem flat_src (kind : Word) (i j : Int) :
    src (flatState kind).params .bd8 (unitOf (flatState kind).params) (flatState kind).mem i j = 31 := by
  have eu : unitOf (flatState kind).params = ⟨2, 1, 4, 2⟩ :=
    (by decide : unitOf (baseParams 6 2 1 4 2) = ⟨2, 1, 4, 2⟩)
  have ew : planeW (flatState kind).params = 8 := (by decide : planeW (baseParams 6 2 1 4 2) = 8)
  have eh : planeH (flatState kind).params = 6 := (by decide : planeH (baseParams 6 2 1 4 2) = 6)
  rw [eu]
  have hu : UnitInPlane (flatState kind).params ⟨2, 1, 4, 2⟩ :=
    ⟨by simp only; omega, by simp only; omega, by simp only [ew]; omega, by simp only [eh]; omega⟩
  have hr := srcRow_range _ _ hu i
  have hc := srcCol_range _ _ hu j
  have h0 : rowLo ⟨2, 1, 4, 2⟩ = 0 := by decide
  have key : ∀ y < 6, ∀ x < 8,
      sampleRead (planeMem 0x1000 8 6 fun _ _ => 31) .bd8 (sampleAddr 0x1000#32 8#32 .bd8 y x) = 31 := by decide
  exact key _ (by omega) _ (by omega)

/-- WienerKeepsFlatPlanes. -/
theorem test_meets_wiener_flat : (flatState 1#32).mem.wf ∧ readyFor (flatState 1#32) ∧
    (acceptCheck .runUnit (flatState 1#32).params = .none ∧ onPlainMemory .runUnit (flatState 1#32) ∧
      aliased .runUnit (flatState 1#32).params = false ∧ bitDepth? (flatState 1#32).params.format = some .bd8 ∧
      filterKind? (flatState 1#32).params.unitKind = some .wiener) ∧
    ∀ i j, src (flatState 1#32).params .bd8 (unitOf (flatState 1#32).params) (flatState 1#32).mem i j = 31 :=
  ⟨planeFlat_wf, ⟨rfl, rfl⟩, unitPremises_spec .wiener (flatState 1#32) (by decide), flat_src _⟩

/-- SelfGuidedKeepsFlatPlanesAtBd8, with the contract multipliers -32 and 31. -/
theorem test_meets_sgr_flat : (flatState 2#32).mem.wf ∧ readyFor (flatState 2#32) ∧
    (acceptCheck .runUnit (flatState 2#32).params = .none ∧ onPlainMemory .runUnit (flatState 2#32) ∧
      aliased .runUnit (flatState 2#32).params = false ∧ bitDepth? (flatState 2#32).params.format = some .bd8 ∧
      filterKind? (flatState 2#32).params.unitKind = some .selfGuided) ∧
    contractMult (flatState 2#32).params.sgrMult ∧
    ∀ i j, src (flatState 2#32).params .bd8 (unitOf (flatState 2#32).params) (flatState 2#32).mem i j = 31 :=
  ⟨planeFlat_wf, ⟨rfl, rfl⟩, unitPremises_spec .selfGuided (flatState 2#32) (by decide),
    by unfold contractMult; decide, flat_src _⟩

/-- The Wiener unit with stored taps 0 across and LZT = 3 down. -/
def identityState : State := { unitState 1#32 with
  params := { (unitState 1#32).params with wienerH := 0#32, wienerV := 0x0316F705#32 } }

/-- IdentityTapsCopyTheUnit. -/
theorem test_meets_identity_taps : identityState.mem.wf ∧ readyFor identityState ∧
    (acceptCheck .runUnit identityState.params = .none ∧ onPlainMemory .runUnit identityState ∧
      aliased .runUnit identityState.params = false ∧ bitDepth? identityState.params.format = some .bd8 ∧
      filterKind? identityState.params.unitKind = some .wiener) ∧
    (identityState.params.wienerH.toNat % 2 ^ 24 = 0 ∧ identityState.params.wienerV.toNat / 2 ^ 24 % 4 = 3) :=
  ⟨planeP8_wf, ⟨rfl, rfl⟩, unitPremises_spec .wiener identityState (by decide), by decide⟩

/-- ZeroedTapsDoNotMatter: the words of W3 at LZT = 1. -/
theorem test_meets_zeroed_taps : readyFor { unitState 1#32 with
      params := { (unitState 1#32).params with wienerH := 0x010FF903#32 } } ∧
    (∀ k < 3, effectiveTap 0x010FF900#32 k = effectiveTap 0x010FF903#32 k) ∧
    (∀ k < 3, effectiveTap 0x000FF900#32 k = effectiveTap 0x010FF903#32 k) := ⟨⟨rfl, rfl⟩, by decide, by decide⟩

/-- UnitBusErrorLeavesOldOrNewSamples: the container of sample (1, 3), the last, gets an error response. -/
theorem test_meets_unit_bus_error : let s := withRegions [⟨0x2015, 1, .errorResponse⟩] (unitState 1#32)
    s.mem.wf ∧ readyFor s ∧ acceptCheck .runUnit s.params = .none ∧ offDevices .runUnit s ∧
      aliased .runUnit s.params = false ∧ bitDepth? s.params.format = some .bd8 ∧
      filterKind? s.params.unitKind = some .wiener ∧ 1 < (unitOf s.params).h ∧ 3 < (unitOf s.params).w ∧
      touches .errorResponse [⟨dstAddr s.params .bd8 (unitOf s.params) 1 3, BitDepth.bd8.sampleBytes⟩] s.regions =
        true :=
  ⟨planeP8_wf, ⟨rfl, rfl⟩, by decide, show touches _ _ _ = false by decide, by decide, by decide,
    by decide, by decide, by decide, by decide⟩

/-! #### run.plane -/

/-- What the hypotheses of the plane obligations say, as one check. -/
def planePremises (s : State) : Bool :=
  decide (acceptCheck .runPlane s.params = .none) &&
    !touches .device (ordinarySpans .runPlane s.params) s.regions &&
    !touches .errorResponse (commandSpans .runPlane s.params) s.regions && !aliased .runPlane s.params &&
    decide (bitDepth? s.params.format = some .bd8)

theorem planePremises_spec (s : State) (h : planePremises s = true) :
    acceptCheck .runPlane s.params = .none ∧ onPlainMemory .runPlane s ∧ aliased .runPlane s.params = false ∧
      bitDepth? s.params.format = some .bd8 := by
  simp only [planePremises, Bool.and_eq_true, decide_eq_true_eq, Bool.not_eq_true'] at h
  exact ⟨h.1.1.1.1, ⟨h.1.1.1.2, h.1.1.2⟩, h.1.2, h.2⟩

/-- RunPlaneFiltersEveryCell, RunPlaneReportsItsCells: six cells, the last of them cell 5 of 2 x 2 samples. -/
theorem test_meets_run_plane : gridState.mem.wf ∧ readyFor gridState ∧
    (acceptCheck .runPlane gridState.params = .none ∧ onPlainMemory .runPlane gridState ∧
      aliased .runPlane gridState.params = false ∧ bitDepth? gridState.params.format = some .bd8) ∧
    cellCount gridState.params = 6 ∧
    (∀ k < 6, (cellRecord gridState.mem gridState.params k).isSome = true) ∧
    (gridCells gridState.params)[5]? = some ⟨6, 4, 2, 2⟩ :=
  ⟨planeP8_wf, ⟨rfl, rfl⟩, planePremises_spec gridState (by decide), by decide, by decide,
    by decide⟩

/-- The descriptor of cell 5 has KIND 3. -/
def badGridState : State := { gridState with mem := planeMem 0x1000 8 6 planeP8 ++ [(0x3050, 3#8)] }

/-- R286, R258, RunPlaneReportsItsCells: a bus error on word 0 of descriptor 2, and one on its word 1, each end run.plane
with two cells complete. -/
theorem test_run_plane_bus_error : ∀ a ∈ [0x3020, 0x3024],
    ends (exec .runPlane (withRegions [⟨a, 1, .errorResponse⟩] gridState)) = some (0x706#32, 2#32, 6#32) := by
  decide

/-- RunPlaneStopsAtTheFirstBadKind, with the bad descriptor the last. -/
theorem test_meets_bad_kind : badGridState.mem.wf ∧ readyFor badGridState ∧
    (acceptCheck .runPlane badGridState.params = .none ∧ onPlainMemory .runPlane badGridState ∧
      aliased .runPlane badGridState.params = false ∧ bitDepth? badGridState.params.format = some .bd8) ∧
    5 < cellCount badGridState.params ∧ cellRecord badGridState.mem badGridState.params 5 = none ∧
    ∀ m < 5, (cellRecord badGridState.mem badGridState.params m).isSome = true :=
  ⟨show (planeMem 0x1000 8 6 planeP8 ++ [(0x3050, 3#8)] : Memory).wf by decide, ⟨rfl, rfl⟩,
    planePremises_spec badGridState (by decide), by decide, by decide, by decide⟩

/-- GridCutsThePlaneIntoCells: its corner cell and its corner sample. -/
theorem test_meets_grid : gridGroup gridState.params ∧ 1 < gridRows gridState.params ∧ 2 < gridCols gridState.params ∧
    7 < planeW gridState.params ∧ 5 < planeH gridState.params := by
  unfold gridGroup
  decide

/-! #### Primitives -/

/-- The primitive obligations ask for a block that is IDLE with nothing scheduled, and `prim.sgrab` for an enabled pass:
preset 14 with pass 0 and preset 10 with pass 1 are the edges. -/
theorem test_meets_primitives : readyFor (withOps 5#32 0xFFFFFFE1#32 0#32) ∧
    bitDepth? (withOps 5#32 0#32 0#32).params.format = some .bd8 ∧ (presetOf (14 % 16)).radius .p0 ≠ 0 ∧
    (presetOf (10 % 16)).radius .p1 ≠ 0 := ⟨⟨rfl, rfl⟩, by decide, by decide, by decide⟩

/-- BoxCommandsSumTheirWindow, for both radii. -/
theorem test_meets_box : (readyFor (unitState 1#32) ∧ acceptCheck .primBox3 (unitState 1#32).params = .none ∧
      onPlainMemory .primBox3 (unitState 1#32)) ∧
    acceptCheck .primBox5 (unitState 1#32).params = .none ∧ onPlainMemory .primBox5 (unitState 1#32) ∧
    bitDepth? (unitState 1#32).params.format = some .bd8 :=
  ⟨⟨⟨rfl, rfl⟩, by decide, show touches _ _ _ = false by decide,
    show touches _ _ _ = false by decide⟩, by decide, ⟨show touches _ _ _ = false by decide,
    show touches _ _ _ = false by decide⟩, by decide⟩

/-- BoxBusErrorKeepsTheResults: the last container of the 5 x 5 box at (0, 0) of the unit gets an error response. -/
theorem test_meets_box_bus_error : let s := withRegions [⟨0x101C, 1, .errorResponse⟩] (unitState 1#32)
    readyFor s ∧ acceptCheck .primBox5 s.params = .none ∧ offDevices .primBox5 s ∧
      bitDepth? s.params.format = some .bd8 ∧
      touches .errorResponse [⟨srcAddr s.params .bd8 (unitOf s.params) (hi16s s.params.opa + (4 : Nat) - (2 : Nat))
        (lo16s s.params.opa + (4 : Nat) - (2 : Nat)), BitDepth.bd8.sampleBytes⟩] s.regions = true :=
  ⟨⟨rfl, rfl⟩, by decide, show touches _ _ _ = false by decide, by decide, by decide⟩

/-! #### Contract ranges and statistics -/

/-- WienerDatapathStaysInItsBounds: the taps of H1 and V1 are contract taps, and 4095 is the largest 12-bit sample. -/
theorem test_meets_datapath : contractTaps 0x000FF903#32 ∧ contractTaps 0x001EF6FF#32 ∧
    ∀ _i _j : Int, 4095 ≤ BitDepth.bd12.pixMax :=
  ⟨by unfold contractTaps; decide, by unfold contractTaps; decide, fun _ _ => by decide⟩

/-- StatisticsOfRealBoxesFit: the largest sum at BD 12. FlatPassOutputsStayNearTheSample: v = 255. -/
theorem test_meets_statistics : 25 * 4095 ≤ boxCount (passRadius .p0) * BitDepth.bd12.pixMax ∧ 255 ≤ 255 := by decide

/-- A plane of alternating 0 and 255. -/
def checker (i j : Int) : Nat := if (i + j) % 2 = 0 then 0 else 255

theorem checker_eq (i j i' j' : Int) (h : (i + j) % 2 = (i' + j') % 2) : checker i j = checker i' j' := by
  unfold checker
  rw [h]

/-- HighVariancePassesReturnTheSample: on a checkerboard of 0 and 255 with preset 14's scale every multiplier is 256, on the
rows each parity reads and for pass 1. -/
theorem test_meets_high_variance : (∀ k c, (if false then k = 0 + 1 else k = 0 ∨ k = 0 + 2) → (0 ≤ c ∧ c ≤ 0 + 2) →
      aDirect 2 56 .bd8 checker k c = 256) ∧
    (∀ k c, (if true then k = 0 + 1 else k = 0 ∨ k = 0 + 2) → (0 ≤ c ∧ c ≤ 0 + 2) →
      aDirect 2 56 .bd8 checker k c = 256) ∧
    ∀ k c, (0 ≤ k ∧ k ≤ 0 + 2) → (0 ≤ c ∧ c ≤ 0 + 2) → aDirect 1 3236 .bd8 checker k c = 256 := by
  have h2 : ∀ k < 3, ∀ c < 3, aDirect 2 56 .bd8 checker k c = 256 := by decide
  have h1 : ∀ k < 3, ∀ c < 3, aDirect 1 3236 .bd8 checker k c = 256 := by decide
  refine ⟨fun k c hk hc => h2 k ?_ c (by omega), fun k c hk hc => h2 k ?_ c (by omega),
    fun k c hk hc => h1 k (by omega) c (by omega)⟩
  · rw [if_neg (by decide)] at hk
    omega
  · rw [if_pos rfl] at hk
    omega

/-- EqualWindowsGiveEqualUnits: a plane and its copy beyond the window of a 4 x 3 unit, at top rows of one parity. -/
theorem test_meets_equal_windows : (∀ i j : Int, (-3 ≤ i ∧ i ≤ (3 : Nat) + 2) → (-3 ≤ j ∧ j ≤ (4 : Nat) + 2) →
      checker i j = (if j ≤ 6 then checker i j else 7)) ∧ 0 % 2 = 2 % 2 :=
  ⟨fun i j _ hj => by rw [if_pos (by omega)], rfl⟩

/-! #### Registers, reset, the host -/

/-- ResetGivesEveryRegisterItsResetValue. -/
theorem test_meets_reset : (unitState 1#32).fsm = .idle ∧ (∃ t, reset (unitState 1#32) = .next t) ∧
    (2#32 : Word).getLsbD 1 = true := ⟨rfl, ⟨_, rfl⟩, by decide⟩

/-- InterruptIsEnableAndDone: a write of STATUS.DONE, and a write of 0 to CTRL. -/
theorem test_meets_interrupt : ((2#32 : Word).getLsbD 1 = true ∧
      ∃ t, busWrite .w32 0x0C#8 2#32 { State.reset with irqEn := true, done := true } = .next t) ∧
    (0#32 : Word).getLsbD 0 = false ∧
      ∃ t, busWrite .w32 0x08#8 0#32 { State.reset with irqEn := true, done := true } = .next t :=
  ⟨⟨by decide, ⟨_, rfl⟩⟩, by decide, ⟨_, rfl⟩⟩

/-- RegisterWriteReadsBackItsBits: the first and the last register, a masked one, and CTRL values with SOFT_RESET = 0. -/
theorem test_meets_register_write : Reg.ofOffset? (0x00#8 : BitVec 8).toNat = some .id ∧
    Reg.ofOffset? (0x60#8 : BitVec 8).toNat = some .unitGrid ∧ Reg.ofOffset? (0x40#8 : BitVec 8).toNat = some .sgrPreset ∧
    (Reg.sgrPreset ≠ .ctrl ∧ Reg.sgrPreset ≠ .status ∧ Reg.sgrPreset ≠ .cmd) ∧
    (1#32 : Word).getLsbD 1 = false ∧ (0xFFFFFFFD#32 : Word).getLsbD 1 = false := by decide

/-- RegisterWindowServesAlignedWords: a narrow access, a misaligned one, the first and the last reserved offset. -/
theorem test_meets_window : (Width.w16 ≠ .w32 ∨ (0x10#8 : BitVec 8).toNat % 4 ≠ 0) ∧
    (Width.w32 ≠ .w32 ∨ (0xFF#8 : BitVec 8).toNat % 4 ≠ 0) ∧
    ((0x64#8 : BitVec 8).toNat % 4 = 0 ∧ 0x64 ≤ (0x64#8 : BitVec 8).toNat) ∧
    (0xFC#8 : BitVec 8).toNat % 4 = 0 ∧ 0x64 ≤ (0xFC#8 : BitVec 8).toNat := by decide

/-- IllegalWordsEndWithIllegalCmd: each clause at an edge of its range, on an IDLE block. -/
theorem test_meets_illegal : (9 ≤ (9#32 : Word).toNat % 16 ∧ 9 ≤ (15#32 : Word).toNat % 16) ∧
    ((0x20#32 : Word).toNat / 32 ≠ 0 ∧ (0x80000000#32 : Word).toNat / 32 ≠ 0) ∧
    ((0x10#32 : Word).toNat / 16 % 2 = 1 ∧ (0x10#32 : Word).toNat % 16 ≠ 8) ∧ State.reset.fsm = .idle := by decide

/-- DecodeAndEncodeAreInverse: a table word that decodes. -/
theorem test_meets_table_word : decodeTableWord 32 0x18 = some (.primSgrab .p1) := by decide

/-- PackingHelpersFillTheirFields: the ends of the ranges. -/
theorem test_meets_packing : ((-128 : Int) ≤ -128 ∧ (-128 : Int) ≤ 127) ∧ ((-128 : Int) ≤ 127 ∧ (127 : Int) ≤ 127) ∧
    ((-32768 : Int) ≤ -32768 ∧ (-32768 : Int) ≤ 32767) ∧ (-32768 : Int) ≤ 32767 ∧ (32767 : Int) ≤ 32767 := by decide

/-- StepPresentsTheWordWrittenToCmd: a legal word with nothing scheduled and with a schedule, an illegal word, and a BUSY
block. -/
theorem test_meets_step : (decode 0x18#32 = .ok (.primSgrab .p1) ∧
      (withProgram (cmdProgram 0x18#32) State.reset).host.prog[(withProgram (cmdProgram 0x18#32) State.reset).host.pc]? =
        some (.wr .w32 0x10#8 (.const 0x18#32)) ∧ State.reset.sched = [] ∧ State.reset.fsm = .idle) ∧
    (State.reset.withFetchWord 32 0x18).sched = .host :: [] ∧ decode 0x19#32 = .error .reservedOp ∧
    (placeCommand 0x19#32 State.reset).sched = .host :: [] ∧
    (placeCommand 0x19#32 State.reset).host.prog[(placeCommand 0x19#32 State.reset).host.pc]? =
      some (.wr .w32 0x10#8 (.const 0x19#32)) ∧
    busyState.fsm = .busy .runUnit ∧ busyState.sched = [] :=
  ⟨by decide, rfl, by decide, rfl, rfl, rfl, rfl⟩

/-- RunPseudoEndsAfterItsWait, HeldCommandEndsAsAnImmediateOne and EveryAcceptedCommandEnds. -/
theorem test_meets_run : let s := withProgram (Pseudo.run .runUnit).expand (unitState 1#32)
    readyFor s ∧ offDevices .runUnit s ∧ s.host.prog[s.host.pc]? = (Pseudo.expand (.run .runUnit))[0]? ∧
      s.host.prog[s.host.pc + 1]? = (Pseudo.expand (.run .runUnit))[1]? ∧
      acceptCheck .runUnit s.params = .none ∧ ([.block] : List Turn) ≠ [] ∧ ∃ t, exec .runUnit s = .next t := by
  have ha : acceptCheck .runUnit (withProgram (Pseudo.run .runUnit).expand (unitState 1#32)).params = .none := by
    decide
  have hd : offDevices .runUnit (withProgram (Pseudo.run .runUnit).expand (unitState 1#32)) :=
    show touches _ _ _ = false by decide
  exact ⟨⟨rfl, rfl⟩, hd, rfl, rfl, ha, by decide, exec_offDevices _ _ ⟨rfl, rfl⟩ ha hd⟩

/-- RejectionChangesOnlyStatus. -/
theorem test_meets_rejection : State.reset.fsm = .idle ∧ acceptCheck .runUnit State.reset.params = .badGeometry ∧
    ErrCode.badGeometry ≠ .none := by decide

/-- The base setup B. -/
def baseB : Params := baseParams 6 0 0 8 6
/-- Vector E21: BD 10 with an odd source base. -/
def oddSource : Params :=
  { baseB with format := 1#32, srcStride := 0x10#32, dstStride := 0x10#32, srcBase := 0x1001#32 }

/-- The parameters of each clause of AcceptanceReportsTheFirstFailingCheck, from vectors E6, E10, E13, E21, E33, E25. -/
theorem test_meets_acceptance :
    (baseB.format.toNat % 4 ≠ 3 ∧ ({ baseB with format := 3#32 } : Params).format.toNat % 4 = 3) ∧
    (baseB.unitKind.toNat % 4 ≠ 3 ∧ ({ baseB with unitKind := 3#32 } : Params).unitKind.toNat % 4 = 3) ∧
    ¬ geometryHolds .runUnit { baseB with unitSize := 0x00060000#32 } ∧
    (geometryHolds .runUnit oddSource ∧ ¬ alignmentHolds .runUnit oddSource) ∧
    (geometryHolds .runUnit baseB ∧ alignmentHolds .runUnit baseB) ∧
    (presetOf (14 % 16)).r1 = 0 ∧ (presetOf (10 % 16)).r0 = 0 ∧ (presetOf (14 % 16)).r0 ≠ 0 :=
  ⟨by decide, by decide, fun h => absurd h.1.2.2.1.1 (by decide),
    ⟨⟨⟨by decide, by decide, by decide, by decide, by decide, by decide⟩, ⟨by decide, by decide⟩, ⟨by decide, by decide⟩⟩,
      fun h => absurd (h.1 (by decide)).1 (by decide)⟩,
    ⟨⟨⟨by decide, by decide, by decide, by decide, by decide, by decide⟩, ⟨by decide, by decide⟩, ⟨by decide, by decide⟩⟩,
      ⟨fun h => absurd h (by decide), fun h => absurd h (by decide)⟩⟩,
    by decide⟩

/-- AcceptedAccessesAreAlignedAndInMemory, CommandsLeaveOtherRegistersAlone, CommandsWriteOnlyTheirDestination: an accepted
BD 10 plane with its containers, and a command that answers a next state. -/
theorem test_meets_accesses : acceptCheck .runPlane { baseParams 6 0 0 8 6 with
      format := 1#32, srcStride := 0x10#32, dstStride := 0x10#32 } = .none ∧
    destContainer .runUnit (unitState 1#32).params 0x200A ∧ destByte .runUnit (unitState 1#32).params 0x200A ∧
    ∃ t, exec .nop State.reset = .next t :=
  ⟨by decide, ⟨.bd8, rfl, 0, 0, by decide, by decide, by decide⟩, ⟨.bd8, rfl, 0, 0, by decide, by decide, by decide,
    by decide⟩, ⟨_, rfl⟩⟩

/-- CmdWriteLeavesBusyOrDone: a legal and an illegal word. -/
theorem test_meets_cmd_write : State.reset.fsm = .idle ∧ (∃ t, presentWord 0#32 State.reset = .next t) ∧
    ∃ t, presentWord 9#32 State.reset = .next t := ⟨rfl, ⟨_, rfl⟩, ⟨_, rfl⟩⟩

/-- R96: a copy of rows 1 and 2 to where rows 3 and 4 of the source lie overlaps its context alone, and is aliased; to where
row 5 lies, which is outside its rows rlo to rhi, it is not. -/
theorem test_copy_context_aliased : aliased .runUnit { baseParams 6 2 1 4 2 with unitKind := 0#32, dstBase := 0x1010#32 } =
      true ∧
    aliased .runUnit { baseParams 6 2 1 4 2 with unitKind := 0#32, dstBase := 0x1020#32 } = false := by decide

/-- CommandsOnDevicesAreRefused: a device over the destination's last byte. -/
theorem test_meets_device : let s := withRegions [⟨0x2015, 1, .device⟩] (unitState 0#32)
    readyFor s ∧ acceptCheck .runUnit s.params = .none ∧
      touches .device (ordinarySpans .runUnit s.params) s.regions = true :=
  ⟨⟨rfl, rfl⟩, by decide, by decide⟩

/-- CommandsOnDevicesAreRefused, R79, R87: a copy, and a box, of the unit at (0, 1) of 2 by 2 samples, whose source window ends
at column 4: a device over the window alone, at column 4 of row 1 or row 4, refuses them; one at column 5 does not. -/
theorem test_meets_device_window : let p : Params := { baseParams 6 0 1 2 2 with unitKind := 0#32 }
    let s := withRegions [⟨0x100C, 1, .device⟩] (stateWith p [])
    (readyFor s ∧ acceptCheck .runUnit s.params = .none ∧
      touches .device (ordinarySpans .runUnit s.params) s.regions = true ∧
      touches .device (commandSpans .runUnit s.params) s.regions = false) ∧
    (acceptCheck .primBox3 p = .none ∧ touches .device (ordinarySpans .primBox3 p) [⟨0x1024, 1, .device⟩] = true ∧
      touches .device (commandSpans .primBox3 p) [⟨0x1024, 1, .device⟩] = false) ∧
    touches .device (ordinarySpans .runUnit p) [⟨0x100D, 1, .device⟩] = false ∧
    touches .device (ordinarySpans .primBox3 p) [⟨0x102C, 1, .device⟩] = false :=
  ⟨⟨⟨rfl, rfl⟩, by decide, by decide, by decide⟩, by decide, by decide, by decide⟩

/-- ResultsDependOnlyOnSnapshotAndSource: the second run starts with other scratch buffers and results, and another byte
outside the source rows. -/
theorem test_meets_same_source : let s := unitState 1#32
    let s' : State := { s with
      result0 := 5#32, ovr := true, scratch := { s.scratch with win3 := [[]] }, mem := s.mem ++ [(0x1030, 9#8)] }
    (s.mem.wf ∧ s'.mem.wf) ∧ (readyFor s ∧ readyFor s') ∧ s'.params = s.params ∧
      acceptCheck .runUnit s.params = .none ∧ (onPlainMemory .runUnit s ∧ onPlainMemory .runUnit s') ∧
      aliased .runUnit s.params = false ∧
      (∀ sp ∈ sourceSpans .runUnit s.params ++ descSpans .runUnit s.params, ∀ a, sp.start ≤ a → a < sp.start + sp.len →
        s'.mem.read a = s.mem.read a) ∧ ∃ t, exec .runUnit s = .next t := by
  intro s s'
  obtain ⟨h1, h2, h3, -⟩ := unitPremises_spec .wiener s (by decide)
  have hspans : ∀ sp ∈ sourceSpans .runUnit s.params ++ descSpans .runUnit s.params,
      0x1000 ≤ sp.start ∧ sp.start + sp.len ≤ 0x1028 := by decide
  have hread : ∀ k < 40, s'.mem.read (0x1000 + k) = s.mem.read (0x1000 + k) := by decide
  refine ⟨⟨planeP8_wf, ?_⟩, ⟨⟨rfl, rfl⟩, ⟨rfl, rfl⟩⟩, rfl, h1, ⟨h2, h2⟩, h3, fun sp hsp a h4 h5 => ?_,
    exec_offDevices _ _ ⟨rfl, rfl⟩ h1 h2.1⟩
  · show (planeMem 0x1000 8 6 planeP8 ++ [(0x1030, 9#8)] : Memory).wf
    decide
  · have := hspans sp hsp
    have := hread (a - 0x1000) (by omega)
    rwa [show 0x1000 + (a - 0x1000) = a by omega] at this

theorem unit_inv : (unitState 1#32).Inv :=
  ⟨planeP8_wf, by
    intro c hc
    have hb : ∀ c ∈ planeMem 0x1000 8 6 planeP8, c.1 < memorySize := by decide
    exact hb c hc, ⟨by decide, by decide, by decide, by decide, by decide⟩,
    (⟨by decide, by decide, by decide, by decide, by decide⟩ : Params.reset.reservedZero), ⟨fun _ => rfl, fun _ => rfl⟩,
    fun _ h => (by cases h), fun _ => rfl, fun _ h => (by cases h), fun _ h => (by cases h), fun _ _ h => (by cases h)⟩

theorem busy_inv : busyState.Inv := by
  have h := unit_inv
  refine ⟨h.memWf, h.memBounded, h.paramsReserved, h.paramsReserved, ⟨fun _ => rfl, fun _ => rfl⟩, fun j hj => ?_,
    fun hj => (by cases hj), fun j _ => Nat.zero_le _, h.flightBounded,
    fun _ _ _ _ _ _ _ _ _ _ _ => rfl⟩
  cases hj
  exact ⟨by decide, rfl, rfl, rfl⟩

theorem busy_performs : ∃ t, perform .runUnit busyState = .next t := by
  obtain ⟨h1, h2, -⟩ := unitPremises_spec .wiener (unitState 1#32) (by decide)
  obtain ⟨t, ht⟩ := exec_offDevices .runUnit (unitState 1#32) ⟨rfl, rfl⟩ h1 h2.1
  rw [exec_ready .runUnit _ ⟨rfl, rfl⟩ h1] at ht
  exact ⟨t, ht⟩

theorem busy_off_devices : touches .device (ordinarySpans .runUnit busyState.snap.regs) busyState.regions = false := by
  decide

/-- The write under way of the busy unit's last container, (1, 3) at 0x2015: its filter's value there. -/
theorem busy_pending : ∃ st ∈ pendingStores .runUnit busyState, st.addr = 0x2015 := by decide

/-- SoftResetAbandonsTheRunningCommand and CmdWriteWhileBusyIsDropped: the unit's last container, one of its writes under
way there, no rule of R96 and R97 broken, and a value for the container by its rule. -/
theorem test_meets_soft_reset : busyState.Inv ∧ busyState.fsm = .busy .runUnit ∧
    touches .device (ordinarySpans .runUnit busyState.snap.regs) busyState.regions = false ∧
    (2#32 : Word).getLsbD 1 = true ∧ destContainer .runUnit busyState.snap.regs 0x2015 ∧
    (∃ st ∈ pendingStores .runUnit busyState, st.addr = 0x2015) ∧ busyState.taint = Taint.clear ∧
    aliased .runUnit busyState.snap.regs = false ∧ ∃ x, ruleValue .runUnit busyState 0x2015 x :=
  ⟨busy_inv, rfl, busy_off_devices, by decide, ⟨.bd8, rfl, 1, 3, by decide, by decide, by decide⟩, busy_pending, rfl,
    by decide, _, .bd8, .wiener, 1, 3, rfl, by decide, by decide, by decide, by decide, rfl⟩

/-- RegisterWritesWhileBusyMissTheCommand: a parameter register and CTRL. -/
theorem test_meets_busy_write : busyState.fsm = .busy .runUnit ∧ (Reg.srcBase ≠ .cmd ∧ Reg.ctrl ≠ .cmd) ∧
    Reg.ctrl ≠ .status ∧ ∃ t, perform .runUnit busyState = .next t := ⟨rfl, by decide, by decide, busy_performs⟩

/-- HostStoresAreLittleEndian: a word store that ends at the last byte of memory. -/
theorem test_meets_host_store : (unitState 1#32).mem.wf ∧ (0xFFFFFFFC#32 : Word).toNat + Width.w32.bytes ≤ 2 ^ 32 ∧
    touches .errorResponse [⟨(0xFFFFFFFC#32 : Word).toNat, Width.w32.bytes⟩] (unitState 1#32).regions = false ∧
    touches .device [⟨(0xFFFFFFFC#32 : Word).toNat, Width.w32.bytes⟩] (unitState 1#32).regions = false :=
  ⟨planeP8_wf, by decide, by decide, by decide⟩

/-- HostReadOfBusyDestinationIsOldOrNew: a byte load of the last destination container, no rule of R96 and R97 broken. -/
theorem test_meets_host_read : busyState.Inv ∧ busyState.fsm = .busy .runUnit ∧
    destContainer .runUnit busyState.snap.regs (0x2015#32 : Word).toNat ∧
    Width.w8.bytes = sampleBytesOf busyState.snap.regs.format ∧
    (∃ t, hostStmt (.memR .w8 (.const 0x2015#32) 0) busyState = .next t) ∧ busyState.taint = Taint.clear ∧
    aliased .runUnit busyState.snap.regs = false := by
  refine ⟨busy_inv, rfl, ⟨.bd8, rfl, 1, 3, by decide, by decide, by decide⟩, by decide, ?_, rfl, by decide⟩
  have hit : spansHit (destSpans .runUnit busyState.snap.regs) (0x2015#32 : Word).toNat Width.w8.bytes = true := by
    decide
  simp only [hostStmt, withOperand, operandValue, hostAccess, hostLoad]
  rw [show busyState.fsm = .busy .runUnit from rfl]
  simp only
  rw [if_neg (by decide), if_neg (by decide), if_neg (by decide), if_pos hit,
    onOrdinaryMemory_plain _ _ _ busy_off_devices]
  exact ⟨_, rfl⟩

/-- HostReadOfBusyDestinationIsOldOrNew, its clause about the end of the command: after the load the command ends without an
error. -/
theorem test_meets_host_read_end (v : Word) : ∃ u,
    perform .runUnit (bindName 0 v (advanceHost (bumpDraws busyState))) = .next u ∧ u.err = false :=
  ⟨_, performRunUnit_eq (bindName 0 v (advanceHost (bumpDraws busyState))) .bd8 .wiener rfl rfl busy_off_devices,
    rfl⟩

/-- R97: another agent's byte in a destination container is neither the value before the command nor one it writes; a host
read finds the former. -/
theorem test_host_read_before_agent : let s := agentStore 0x2015 [7#8] busyState
    s.taint.any = true ∧ s.mem.read 0x2015 = 7#8 ∧ (beforeMem .runUnit s).read 0x2015 = 0#8 ∧
      (beforeMem .runUnit s).read 0x100B = s.mem.read 0x100B := by decide

/-- A block BUSY with the six copy cells. -/
def busyGrid : State := accepted .runPlane gridState

theorem grid_off_devices : touches .device (ordinarySpans .runPlane busyGrid.snap.regs) busyGrid.regions = false := by
  decide

theorem grid_performs : ∃ t, perform .runPlane busyGrid = .next t := by
  obtain ⟨h1, h2, -⟩ := planePremises_spec gridState (by decide)
  obtain ⟨t, ht⟩ := exec_offDevices .runPlane gridState ⟨rfl, rfl⟩ h1 h2.1
  rw [exec_ready .runPlane _ ⟨rfl, rfl⟩ h1] at ht
  exact ⟨t, ht⟩

/-- Whether run.plane is still BUSY after a turn, and the cells complete. -/
def busyAfter (o : Outcome) : Option (Bool × Nat) :=
  match o with
  | .next t => some (decide (t.fsm = .busy .runPlane), t.progress)
  | .fault _ => none
  | .refused _ => none

theorem busyAfter_next {o : Outcome} {n : Nat} (h : busyAfter o = some (true, n)) :
    ∃ c, o = .next c ∧ c.fsm = .busy .runPlane := by
  cases o with
  | next t =>
    simp only [busyAfter, Option.some.injEq, Prod.mk.injEq, decide_eq_true_eq] at h
    exact ⟨t, rfl, h.1⟩
  | fault _ => cases h
  | refused _ => cases h

/-- R89, R258, section 10.1: the cells of KIND 0 run in order: a cell turn completes the next cell and leaves the command
BUSY, also after the last one. -/
theorem test_cell_turn : busyAfter (cellTurn busyGrid) = some (true, 1) ∧
    busyAfter (cellTurn { busyGrid with progress := 5 }) = some (true, 6) := by decide

/-- Section 10.1: a cell turn at cell 3 of KIND 3 ends the command, with three cells complete. -/
theorem test_cell_turn_bad_kind : ends (cellTurn { accepted .runPlane { gridState with
      mem := Memory.write gridState.mem 0x3030 3#8 } with progress := 3 }) = some (0x306#32, 3#32, 6#32) := by
  decide

/-- HeldCommandEndsAsAnImmediateOne, CommandsWriteOnlyTheirDestination: a cell turn and the block's turn of a BUSY run.plane,
its last cell left. -/
theorem test_meets_cell_turn : busyGrid.fsm = .busy .runPlane ∧ (∃ t, blockTurn busyGrid = .next t) ∧
    (∃ c, cellTurn busyGrid = .next c ∧ c.fsm ≠ .idle) ∧ ∃ c, performCell { busyGrid with progress := 5 } = .next c := by
  obtain ⟨c, hc, hb⟩ := busyAfter_next test_cell_turn.1
  obtain ⟨d, hd, -⟩ := busyAfter_next test_cell_turn.2
  have hd' := (if_pos (rfl : busyGrid.fsm = .busy .runPlane)).symm.trans hd
  exact ⟨rfl, grid_performs, ⟨c, hc, by rw [hb]; exact fun h => nomatch h⟩, d, hd'⟩

/-- OnlyHostAndResetChangeParameters: the block's turn, a cell turn, another agent's store, a late landing. -/
theorem test_meets_turns : (∃ t, takeTurn .block busyState = .next t) ∧
    (∃ t, takeTurn .cell busyState = .next t) ∧ (∃ t, takeTurn (.agent 0x1000#32 7#8) busyState = .next t) ∧
    ∃ t, takeTurn (.land 0) { State.reset with inFlight := [⟨0x2000, [1#8]⟩] } = .next t := by
  obtain ⟨t, ht⟩ := busy_performs
  exact ⟨⟨t, ht⟩, ⟨_, rfl⟩, ⟨_, rfl⟩, ⟨_, rfl⟩⟩

/-- OnlyTheirCommandsWriteTheResults: a step that ends `prim.lut`. -/
theorem test_meets_results : let s := accepted .primLut (withOps 1#32 0#32 0#32)
    ∃ t, step s = .next t ∧ (t.result0 ≠ s.result0 ∨ t.result1 ≠ s.result1) := ⟨_, rfl, .inl (by decide)⟩

/-- EveryAcceptedCommandEnds: a BUSY command off devices, also one whose source row another agent wrote. -/
theorem test_meets_busy_ends : busyState.Inv ∧ busyState.fsm = .busy .runUnit ∧
    touches .device (ordinarySpans .runUnit busyState.snap.regs) busyState.regions = false ∧
    (agentStore 0x1000 [7#8] busyState).taint.data = true ∧
    (agentStore 0x1000 [7#8] busyState).fsm = .busy .runUnit :=
  ⟨busy_inv, rfl, busy_off_devices, by decide, rfl⟩

/-- R286: a copy whose source sample (0, 1) gets an error response ends with BUS_ERROR too, its results left
(UnitBusErrorLeavesOldOrNewSamples, the clause that does not fix which access failed). -/
theorem test_run_unit_source_bus_error :
    ends (exec .runUnit (withRegions [⟨0x100B, 1, .errorResponse⟩] (unitState 0#32))) = some (0x706#32, 0#32, 0#32) := by
  decide

/-- EveryStepKeepsTheInvariant: a step from a state the invariant holds of. -/
theorem test_meets_invariant : busyState.Inv ∧ ∃ t, step busyState = .next t := by
  obtain ⟨t, ht⟩ := busy_performs
  exact ⟨busy_inv, ⟨t, ht⟩⟩

end Sys2Proof.Tests
end

section
/-! SUPPORT. What one step of the machine can do, said once: the host moves on and the schedule shrinks, and then one
effect on the block and on sample memory happens. -/
namespace Sys2Proof.Machine

/-- One effect of a turn on the block and on sample memory, from the state in which the agent has taken its turn. -/
inductive Effect (s : State) : State → Prop where
  /-- Nothing but the host, and the number of the free values taken, changes. -/
  | around (t : State) (h : t = { s with host := t.host, draws := t.draws }) : Effect s t
  /-- A legal word is presented on CMD (R250, R251). -/
  | present (i : Instr) (t : State) (h : exec i s = .next t) : Effect s t
  /-- An illegal word is presented on CMD (R110). -/
  | illegal (w : Word) : Effect s (presentIllegal w s)
  /-- Hardware or soft reset (R310, R311). -/
  | reset (t : State) (h : Machine.reset s = .next t) : Effect s t
  /-- A write of any other register (R21). -/
  | write (r : Reg) (v : Word) : Effect s (writeReg r v s)
  /-- A store of the host or of another agent (R97, R114). -/
  | store (a : Nat) (bytes : List Byte) (h : a + bytes.length ≤ memorySize) : Effect s (agentStore a bytes s)
  /-- A late landing (R311 item 2). -/
  | land (n : Nat) : Effect s (landTurn n s)
  /-- The block runs its command to its end (R252, R253). -/
  | run (i : Instr) (t : State) (hb : s.fsm = .busy i) (h : perform i s = .next t) : Effect s t
  /-- The block runs the next cell of run.plane (R89, R258). -/
  | cell (t : State) (hb : s.fsm = .busy .runPlane) (h : performCell s = .next t) : Effect s t

/-! ### Register writes (R21, R24, R26) -/

theorem busWrite_effect (width : Width) (off : BitVec 8) (v : Word) (s t : State)
    (h : busWrite width off v s = .next t) : Effect s t := by
  unfold busWrite at h
  split at h
  · split at h
    · cases h
      exact .around s rfl
    · unfold presentWord at h
      split at h
      · exact .present _ t h
      · cases h
        exact .illegal v
    · unfold writeCtrl at h
      split at h
      · exact .reset t h
      · cases h
        exact .write .ctrl v
    · cases h
      exact .write _ v
  · cases h

/-! ### Host statements (R114) -/

theorem withOperand_next {o : HostOperand} {s t : State} {next : Word → Outcome}
    (h : withOperand o s next = .next t) : ∃ v, next v = .next t := by
  unfold withOperand at h
  split at h
  · exact ⟨_, h⟩
  · cases h

theorem hostAccess_next {a len : Nat} {s t : State} {next : Outcome} (h : hostAccess a len s next = .next t) :
    a + len ≤ memorySize ∧ next = .next t := by
  unfold hostAccess at h
  split at h
  · cases h
  · split at h
    · cases h
    · split at h
      · cases h
      · exact ⟨by omega, h⟩

/-- A host load hands on a value, and takes at most one free value (R97). -/
theorem hostLoad_next {a len : Nat} {s t : State} {next : Nat → State → Outcome}
    (h : hostLoad a len s next = .next t) : ∃ v u, (u = s ∨ u = bumpDraws s) ∧ next v u = .next t := by
  unfold hostLoad at h
  split at h
  · exact ⟨_, s, .inl rfl, h⟩
  · split at h
    · exact ⟨_, _, .inr rfl, onOrdinaryMemory_next _ _ _ _ h⟩
    · exact ⟨_, s, .inl rfl, h⟩

theorem hostStmt_effect (st : HostStmt) (s t : State) (h : hostStmt st s = .next t) :
    ∃ u, u = { s with host := u.host } ∧ Effect u t := by
  cases st with
  | wr width off o =>
    rw [hostStmt_wr] at h
    obtain ⟨v, h⟩ := withOperand_next h
    exact ⟨advanceHost s, rfl, busWrite_effect _ _ _ _ _ h⟩
  | rd width off n =>
    simp only [hostStmt, busReadAt_regAddress] at h
    split at h
    · cases h
      exact ⟨s, rfl, .around _ rfl⟩
    · cases h
  | poll off mask value =>
    simp only [hostStmt, busReadAt_regAddress] at h
    obtain ⟨m, h⟩ := withOperand_next h
    obtain ⟨v, h⟩ := withOperand_next h
    split at h
    · cases h
      refine ⟨s, rfl, .around _ ?_⟩
      unfold pollResult
      split <;> rfl
    · cases h
  | memW width addr o =>
    simp only [hostStmt] at h
    obtain ⟨a, h⟩ := withOperand_next h
    obtain ⟨v, h⟩ := withOperand_next h
    obtain ⟨hin, h⟩ := hostAccess_next h
    cases h
    exact ⟨advanceHost s, rfl, .store _ _ (by rwa [leBytes_length])⟩
  | memR width addr n =>
    simp only [hostStmt] at h
    obtain ⟨a, h⟩ := withOperand_next h
    obtain ⟨-, h⟩ := hostAccess_next h
    obtain ⟨v, u, hu, h⟩ := hostLoad_next h
    cases h
    refine ⟨s, rfl, .around _ ?_⟩
    rcases hu with rfl | rfl <;> rfl
  | b target =>
    cases h
    exact ⟨s, rfl, .around _ rfl⟩
  | bnz n target =>
    obtain ⟨v, h⟩ := withOperand_next (o := .name n) h
    cases h
    refine ⟨s, rfl, .around _ ?_⟩
    split <;> rfl

/-! ### Turns and steps -/

theorem takeTurn_effect (turn : Turn) (s t : State) (h : takeTurn turn s = .next t) :
    ∃ u, u = { s with host := u.host } ∧ Effect u t := by
  cases turn with
  | host =>
    simp only [takeTurn, hostTurn] at h
    split at h
    · cases h
      exact ⟨s, rfl, .around s rfl⟩
    · exact hostStmt_effect _ s t h
  | block =>
    simp only [takeTurn, blockTurn] at h
    split at h
    · cases h
      exact ⟨s, rfl, .around s rfl⟩
    · rename_i i hb
      exact ⟨s, rfl, .run i t hb h⟩
  | cell =>
    simp only [takeTurn, cellTurn] at h
    split at h
    · rename_i hb
      exact ⟨s, rfl, .cell t hb h⟩
    · cases h
      exact ⟨s, rfl, .around s rfl⟩
  | reset => exact ⟨s, rfl, .reset t h⟩
  | agent a v =>
    cases h
    exact ⟨s, rfl, .store _ _ a.isLt⟩
  | land n =>
    cases h
    exact ⟨s, rfl, .land n⟩

/-- Everything a step can do: one effect, after the host and the schedule have moved on. -/
theorem step_effect (s t : State) (h : step s = .next t) :
    ∃ u, u = { s with host := u.host, sched := u.sched } ∧ Effect u t := by
  unfold step at h
  split at h
  · obtain ⟨u, hu, he⟩ := takeTurn_effect _ _ _ h
    exact ⟨u, by rw [hu], he⟩
  · obtain ⟨u, hu, he⟩ := takeTurn_effect _ _ _ h
    exact ⟨u, by rw [hu], he⟩

end Sys2Proof.Machine
end

section
/-! SUPPORT. The invariant, effect by effect; settles O60. -/
namespace Sys2Proof.Machine

/-! ### What an ended command leaves (R252, R253) -/

namespace Ended
variable {i : Instr} {s t : State}

theorem params (h : Ended i s t) : t.params = s.params := by rw [h.fields]
theorem irqEn (h : Ended i s t) : t.irqEn = s.irqEn := by rw [h.fields]
theorem ovr (h : Ended i s t) : t.ovr = s.ovr := by rw [h.fields]
theorem snap (h : Ended i s t) : t.snap = s.snap := by rw [h.fields]
theorem fsm (h : Ended i s t) : t.fsm = .idle := by rw [h.fields]
theorem done (h : Ended i s t) : t.done = true := by rw [h.fields]
theorem progress (h : Ended i s t) : t.progress = 0 := by rw [h.fields]
theorem start (h : Ended i s t) : t.start = Start.none := by rw [h.fields]
theorem inFlight (h : Ended i s t) : t.inFlight = s.inFlight := by rw [h.fields]
theorem regBase (h : Ended i s t) : t.regBase = s.regBase := by rw [h.fields]
theorem regions (h : Ended i s t) : t.regions = s.regions := by rw [h.fields]
theorem host (h : Ended i s t) : t.host = s.host := by rw [h.fields]
theorem sched (h : Ended i s t) : t.sched = s.sched := by rw [h.fields]

end Ended

/-! ### The invariant by parts -/

/-- An IDLE block has nothing to show of a running command. -/
theorem State.Inv.of_idle {t : State} (hf : t.fsm = .idle) (hp : t.progress = 0) (wf : t.mem.wf)
    (bounded : t.mem.bounded) (params : t.params.reservedZero) (snap : t.snap.regs.reservedZero)
    (err : t.err = false ↔ t.errCode = .none)
    (flight : ∀ st ∈ t.inFlight, st.addr + st.bytes.length ≤ memorySize) : t.Inv where
  memWf := wf
  memBounded := bounded
  paramsReserved := params
  snapReserved := snap
  errIff := err
  busy i h := by rw [hf] at h; cases h
  idleProgress _ := hp
  busyProgress i h := by rw [hf] at h; cases h
  flightBounded := flight
  busyUnwritten i _ h := by rw [hf] at h; cases h

/-- The invariant does not look at the host, the schedule, the draw counter, IRQ_EN and OVR. -/
theorem State.Inv.around {s t : State} (h : s.Inv)
    (e : t = { s with host := t.host, sched := t.sched, draws := t.draws, irqEn := t.irqEn, ovr := t.ovr }) :
    t.Inv := by
  rw [e]
  exact ⟨h.memWf, h.memBounded, h.paramsReserved, h.snapReserved, h.errIff, h.busy, h.idleProgress, h.busyProgress,
    h.flightBounded, h.busyUnwritten⟩

/-- The parameter registers do not matter to a running command, but for their reserved bits. -/
theorem State.Inv.withParams {s : State} (h : s.Inv) (p : Params) (hp : p.reservedZero) :
    State.Inv { s with params := p } :=
  ⟨h.memWf, h.memBounded, hp, h.snapReserved, h.errIff, h.busy, h.idleProgress, h.busyProgress, h.flightBounded,
    h.busyUnwritten⟩

/-! ### Presenting a word (R250, R251) -/

/-- A rejected word leaves the block IDLE with its error (R250). -/
theorem inv_rejected {s : State} (h : s.Inv) (w : Word) (e : ErrCode) (he : e ≠ .none) :
    (raiseError e (takeSnapshot w s)).Inv :=
  .of_idle rfl rfl h.memWf h.memBounded h.paramsReserved h.paramsReserved (by simpa using he) h.flightBounded

/-- A command just accepted has written nothing (R250, R97). -/
theorem inv_accepted {s : State} (h : s.Inv) (i : Instr) (ha : acceptCheck i s.params = .none) :
    (accepted i s).Inv where
  memWf := h.memWf
  memBounded := h.memBounded
  paramsReserved := h.paramsReserved
  snapReserved := h.paramsReserved
  errIff := by simp
  busy j hj := by
    cases hj
    exact ⟨ha, rfl, rfl, rfl⟩
  idleProgress _ := rfl
  busyProgress _ _ := Nat.zero_le _
  flightBounded := h.flightBounded
  busyUnwritten _ _ _ _ _ _ _ _ _ _ _ := rfl

/-- A command that ends leaves the block IDLE, its writes inside memory, and ERR and ERR_CODE set together (R252,
R253). -/
theorem inv_ended {i : Instr} {s t : State} (h : s.Inv) (hb : s.fsm = .busy i) (he : Ended i s t) : t.Inv := by
  refine .of_idle he.fsm he.progress (he.wf h.memWf) (he.bounded (h.busy i hb).1 h.memBounded)
    (by rw [he.params]; exact h.paramsReserved) (by rw [he.snap]; exact h.snapReserved) ?_
    (by rw [he.inFlight]; exact h.flightBounded)
  rcases he.error with ⟨h1, h2⟩ | ⟨h1, h2⟩
  · rw [h1, h2]
    exact h.errIff
  · simp [h1, h2]

theorem inv_perform {i : Instr} {s t : State} (h : s.Inv) (hb : s.fsm = .busy i) (hp : perform i s = .next t) : t.Inv :=
  inv_ended h hb (perform_ended i s t hp)

theorem inv_exec {i : Instr} {s t : State} (h : s.Inv) (he : exec i s = .next t) : t.Inv := by
  rcases exec_cases i s with ⟨c, -, e⟩ | ⟨-, ha, e⟩ | ⟨-, ha, -, e⟩ | ⟨-, ha, -, e⟩ <;> rw [e] at he
  · cases he
    exact h.around rfl
  · cases he
    exact inv_rejected h _ _ ha
  · exact inv_perform (inv_accepted h i ha) rfl he
  · cases he
    exact inv_accepted h i ha

theorem inv_presentIllegal {s : State} (h : s.Inv) (w : Word) : (presentIllegal w s).Inv := by
  unfold presentIllegal
  split
  · exact h.around rfl
  · exact inv_rejected h w _ (by simp)

/-! ### Reset (R310, R311) -/

theorem Params.reset_reservedZero : Params.reset.reservedZero := by
  unfold Params.reservedZero
  decide

theorem inv_resetBlock {s : State} (wf : s.mem.wf) (bounded : s.mem.bounded)
    (flight : ∀ st ∈ s.inFlight, st.addr + st.bytes.length ≤ memorySize) : (resetBlock s).Inv :=
  .of_idle rfl rfl wf bounded Params.reset_reservedZero Params.reset_reservedZero (by simp) flight

theorem inv_reset {s t : State} (h : s.Inv) (hr : reset s = .next t) : t.Inv := by
  unfold reset at hr
  split at hr
  · cases hr
    exact inv_resetBlock h.memWf h.memBounded h.flightBounded
  · rename_i i hb
    cases onOrdinaryMemory_next _ _ _ _ hr
    have hpend := pendingStores_bounded i s (h.busy i hb).1
    refine inv_resetBlock (Memory.wf_writeStores _ _ h.memWf) (Memory.bounded_writeStores _ _ h.memBounded ?_) ?_
    · exact fun st hst => hpend st (List.mem_of_mem_filter hst)
    · intro st hst
      rcases List.mem_append.mp hst with hst | hst
      · exact h.flightBounded st hst
      · exact hpend st (List.mem_of_mem_filter hst)

/-! ### Register writes (R21, R25) -/

theorem reserved_masked (v m : Word) : v &&& m &&& ~~~m = 0#32 := by
  rw [BitVec.and_assoc, BitVec.and_not_self]
  exact BitVec.and_zero

theorem inv_writeStatus {s : State} (h : s.Inv) (v : Word) : (writeStatus v s).Inv where
  memWf := h.memWf
  memBounded := h.memBounded
  paramsReserved := h.paramsReserved
  snapReserved := h.snapReserved
  errIff := by
    rw [writeStatus_err, writeStatus_errCode]
    cases v.getLsbD 2 with
    | false => simpa using h.errIff
    | true => simp
  busy i hb := by
    obtain ⟨ha, hw, hd, he⟩ := h.busy i hb
    exact ⟨ha, hw, by simp [hd], by simp [he]⟩
  idleProgress := h.idleProgress
  busyProgress := h.busyProgress
  flightBounded := h.flightBounded
  busyUnwritten := h.busyUnwritten

theorem inv_writeReg {s : State} (h : s.Inv) (r : Reg) (v : Word) : (writeReg r v s).Inv := by
  obtain ⟨hf, hk, hh, hv, hs⟩ := h.paramsReserved
  cases r with
  | ctrl => exact h.around rfl
  | status => exact inv_writeStatus h v
  | format => exact h.withParams _ ⟨reserved_masked _ _, hk, hh, hv, hs⟩
  | unitKind => exact h.withParams _ ⟨hf, reserved_masked _ _, hh, hv, hs⟩
  | wienerH => exact h.withParams _ ⟨hf, hk, reserved_masked _ _, hv, hs⟩
  | wienerV => exact h.withParams _ ⟨hf, hk, hh, reserved_masked _ _, hs⟩
  | sgrPreset => exact h.withParams _ ⟨hf, hk, hh, hv, reserved_masked _ _⟩
  | id | caps | cmd | result0 | result1 => exact h
  | _ => exact h.withParams _ ⟨hf, hk, hh, hv, hs⟩

/-! ### Stores of other agents (R97) -/

theorem inv_agentStore {s : State} (h : s.Inv) (a : Nat) (bytes : List Byte) (ha : a + bytes.length ≤ memorySize) :
    (agentStore a bytes s).Inv where
  memWf := Memory.wf_writeBytes _ _ _ h.memWf
  memBounded := Memory.bounded_writeBytes _ _ _ h.memBounded ha
  paramsReserved := h.paramsReserved
  snapReserved := h.snapReserved
  errIff := h.errIff
  busy := h.busy
  idleProgress := h.idleProgress
  busyProgress := h.busyProgress
  flightBounded := h.flightBounded
  busyUnwritten i bd hb ht hbd k u hu hk x hx := by
    have hspan := destCells_spans i s.snap.regs bd hbd (h.busy i hb).1 u (List.mem_of_getElem? hu) x hx
    obtain ⟨ht', hread⟩ := agentStore_outside i a bytes s hb ht x hspan
    exact hread.trans (h.busyUnwritten i bd hb ht' hbd k u hu hk x hx)

theorem inv_landTurn {s : State} (h : s.Inv) (n : Nat) : (landTurn n s).Inv := by
  unfold landTurn
  split
  · exact h
  · rename_i st hst
    have hfewer : State.Inv { s with inFlight := s.inFlight.eraseIdx n } :=
      ⟨h.memWf, h.memBounded, h.paramsReserved, h.snapReserved, h.errIff, h.busy, h.idleProgress, h.busyProgress,
        fun st hst => h.flightBounded st (List.mem_of_mem_eraseIdx hst), h.busyUnwritten⟩
    exact inv_agentStore hfewer _ _ (h.flightBounded st (List.mem_of_getElem? hst))

/-! ### One cell of run.plane (R89, R258) -/

/-- A later cell of an accepted grid has no destination byte in common with an earlier one (R82, R257). -/
theorem later_cell_outside (p : Params) (bd : BitDepth) (hbd : bitDepth? p.format = some bd)
    (ha : acceptCheck .runPlane p = .none) (k n : Nat) (u v : UnitRect) (hu : (gridCells p)[k]? = some u)
    (hv : (gridCells p)[n]? = some v) (hkn : k < n) (a : Nat) (hva : unitDestByte p bd v a) :
    ¬ unitDestByte p bd u a := by
  obtain ⟨r, c, hr, hc, h1, h2⟩ := hva
  have hin := destCells_inPlane .runPlane p bd hbd ha
  obtain ⟨hu', hd⟩ := hin u (List.mem_of_getElem? hu)
  obtain ⟨hv', -⟩ := hin v (List.mem_of_getElem? hv)
  obtain ⟨hk, rfl⟩ := List.getElem?_eq_some_iff.mp hu
  obtain ⟨hn, rfl⟩ := List.getElem?_eq_some_iff.mp hv
  have hap := List.pairwise_iff_getElem.mp (gridCells_apart p) k n hk hn hkn
  exact apart_container p bd _ _ hd hv' hu' (by unfold UnitRect.apart at *; omega) r c a hr hc h1 h2

/-- A cell turn that lets the command go on moves the cell count beside memory, scratch and the draw counter. -/
theorem MemoryOnly.withProgress {P : Nat → Prop} {s t : State}
    (h : MemoryOnly P s { t with progress := s.progress }) :
    t = { s with progress := t.progress, scratch := t.scratch, mem := t.mem, draws := t.draws } :=
  congrArg (fun x : State => { x with progress := t.progress }) h.fields

/-- One more cell complete: the cells after it are as before the command (R89, R97). -/
theorem inv_cellDone {s t : State} (h : s.Inv) (hb : s.fsm = .busy .runPlane)
    (hprog : t.progress = s.progress + 1) (hlt : s.progress < cellCount s.snap.regs) (bd : BitDepth) (u : UnitRect)
    (hbd : bitDepth? s.snap.regs.format = some bd) (hu : (gridCells s.snap.regs)[s.progress]? = some u)
    (hm : MemoryOnly (unitDestByte s.snap.regs bd u) s { t with progress := s.progress })
    (bounded : t.mem.bounded) : t.Inv := by
  have ha := (h.busy _ hb).1
  rw [hm.withProgress, hprog]
  refine ⟨hm.wf h.memWf, bounded, h.paramsReserved, h.snapReserved, h.errIff, h.busy, fun hi => ?_, fun i hi => ?_,
    h.flightBounded, fun i bd' hi ht hbd' k v hv hk a hva => ?_⟩
  · cases hb.symm.trans hi
  · cases hb.symm.trans hi
    exact hlt
  · cases hb.symm.trans hi
    cases hbd.symm.trans hbd'
    have hout := later_cell_outside _ bd hbd ha s.progress k u v hu hv hk a hva
    exact (hm.outside a hout).trans (h.busyUnwritten _ bd hb ht hbd k v hv (Nat.le_of_succ_le hk) a hva)

theorem inv_performCell {s t : State} (h : s.Inv) (hb : s.fsm = .busy .runPlane) (hc : performCell s = .next t) :
    t.Inv := by
  rcases performCell_cases s t hc with rfl | hend | ⟨hprog, hlt, ⟨bd, u, hbd, hu, hm⟩, hbound⟩
  · exact h
  · exact inv_ended h hb hend
  · exact inv_cellDone h hb hprog hlt bd u hbd hu hm (hbound (h.busy _ hb).1 h.memBounded)

/-! ### Every step -/

theorem Effect.inv {s t : State} (he : Effect s t) (h : s.Inv) : t.Inv := by
  cases he with
  | around t e => exact h.around (by rw [e])
  | present i t e => exact inv_exec h e
  | illegal w => exact inv_presentIllegal h w
  | reset t e => exact inv_reset h e
  | write r v => exact inv_writeReg h r v
  | store a bytes ha => exact inv_agentStore h a bytes ha
  | land n => exact inv_landTurn h n
  | run i t hb e => exact inv_perform h hb e
  | cell t hb e => exact inv_performCell h hb e

/-- Settles O60: a step moves the host and the schedule on, which the invariant does not look at, and then has one
effect that keeps it. -/
theorem everyStepKeepsTheInvariant : Obligations.EveryStepKeepsTheInvariant := by
  intro s t h hstep
  obtain ⟨u, hu, he⟩ := step_effect s t hstep
  exact he.inv (h.around (by rw [hu]))

end Sys2Proof.Machine
end

section
/-! SUPPORT. The register window, register by register: what a read returns after a write, after a reset, and how STATUS
is laid out; settles O1, O3, O4, O5 and O11. -/
namespace Sys2Proof.Machine

/-! ### Reset (R21, R310, R311) -/

theorem reset_idle (s : State) (h : s.fsm = .idle) : reset s = .next (resetBlock s) := by
  simp only [reset, h]

/-- However a reset finds the block, it ends in the reset value of the block (R310, R311). -/
theorem reset_next {s t : State} (h : reset s = .next t) : ∃ u, t = resetBlock u := by
  unfold reset at h
  split at h
  · cases h
    exact ⟨s, rfl⟩
  · cases onOrdinaryMemory_next _ _ _ _ h
    exact ⟨_, rfl⟩

theorem readReg_resetBlock (r : Reg) (s : State) : readReg r (resetBlock s) = readReg r State.reset := by
  cases r <;> rfl

theorem readReg_reset (r : Reg) : readReg r State.reset =
    if r = .id then 0x4C520001#32 else if r = .caps then 0x01800180#32 else 0#32 := by
  cases r <;> rfl

/-! ### Bus writes by offset (R21, R77) -/

/-- A register's offset is a multiple of 4 (R21). -/
theorem Reg.ofOffset?_aligned {off : Nat} {r : Reg} (h : Reg.ofOffset? off = some r) : off % 4 = 0 := by
  unfold Reg.ofOffset? at h
  split at h <;> simp at h ⊢

theorem busWrite_ctrl (v : Word) (s : State) : busWrite .w32 0x08#8 v s = writeCtrl v s := rfl

theorem busWrite_cmd (v : Word) (s : State) : busWrite .w32 0x10#8 v s = presentWord v s := rfl

theorem busWrite_status (v : Word) (s : State) : busWrite .w32 0x0C#8 v s = .next (writeStatus v s) := rfl

/-- A write of a register other than CTRL and CMD has no effect beyond its own bits (R21). -/
theorem busWrite_reg {off : BitVec 8} {r : Reg} (h : Reg.ofOffset? off.toNat = some r) (hctrl : r ≠ .ctrl)
    (hcmd : r ≠ .cmd) (v : Word) (s : State) : busWrite .w32 off v s = .next (writeReg r v s) := by
  have hok : registerAccessOk .w32 off = true := by simp [registerAccessOk, Reg.ofOffset?_aligned h]
  simp only [busWrite, hok, h, if_true]

theorem busReadValue_reg {off : BitVec 8} {r : Reg} (h : Reg.ofOffset? off.toNat = some r) (s : State) :
    busReadValue off s = readReg r s := by
  simp only [busReadValue, h]

/-! ### Reads after writes (R21, R24) -/

/-- A write of one register shows in no other register (R21). -/
theorem readReg_writeReg (r q : Reg) (v : Word) (s : State) :
    readReg q (writeReg r v s) = if q = r then readReg r (writeReg r v s) else readReg q s := by
  cases r <;> cases q <;> rfl

/-- The bits of a register that a write reaches (R21, R27, R35 to R38). -/
theorem readReg_writeReg_same (r : Reg) (v : Word) (s : State) (hctrl : r ≠ .ctrl) (hstatus : r ≠ .status)
    (hcmd : r ≠ .cmd) : readReg r (writeReg r v s) =
      if r = .id ∨ r = .caps ∨ r = .result0 ∨ r = .result1 then readReg r s
      else if r = .format ∨ r = .unitKind then v &&& 3#32
      else if r = .wienerH ∨ r = .wienerV then v &&& 0x03FFFFFF#32
      else if r = .sgrPreset then v &&& 0xF#32
      else v := by
  cases r with
  | ctrl => exact absurd rfl hctrl
  | status => exact absurd rfl hstatus
  | cmd => exact absurd rfl hcmd
  | _ => rfl

/-- What a register write can change at all (R21, R24, R25). -/
theorem writeReg_fields (r : Reg) (v : Word) (s : State) : writeReg r v s =
    { s with
      params := (writeReg r v s).params
      irqEn := (writeReg r v s).irqEn
      done := (writeReg r v s).done
      err := (writeReg r v s).err
      errCode := (writeReg r v s).errCode
      ovr := (writeReg r v s).ovr } := by
  cases r <;> rfl

theorem writeReg_params_only (r : Reg) (v : Word) (s : State) (hctrl : r ≠ .ctrl) (hstatus : r ≠ .status) :
    writeReg r v s = { s with params := (writeReg r v s).params } := by
  cases r with
  | ctrl => exact absurd rfl hctrl
  | status => exact absurd rfl hstatus
  | _ => rfl

/-- A CTRL write with SOFT_RESET = 0 sets IRQ_EN (R24, R314). -/
theorem writeCtrl_enable (v : Word) (s : State) (h : v.getLsbD 1 = false) :
    writeCtrl v s = .next { s with irqEn := v.getLsbD 0 } := by
  rw [writeCtrl, h]
  rfl

theorem writeCtrl_softReset (v : Word) (s : State) (h : v.getLsbD 1 = true) : writeCtrl v s = reset s := by
  simp only [writeCtrl, h, if_true]

theorem ctrlWord_bit0 (s : State) : (ctrlWord s).getLsbD 0 = s.irqEn := by
  unfold ctrlWord
  cases s.irqEn <;> rfl

/-! ### STATUS (R25) -/

/-- STATUS bit by bit: BUSY 0, DONE 1, ERR 2, OVR 3, ERR_CODE 11:8, every other bit 0 (R25). -/
theorem statusWord_bit (s : State) (k : Nat) (hk : k < 32) : (statusWord s).getLsbD k =
    if k = 0 then s.isBusy else if k = 1 then s.done else if k = 2 then s.err else if k = 3 then s.ovr
    else decide (8 ≤ k) && s.errCode.code.getLsbD (k - 8) := by
  unfold statusWord
  iterate 6 rw [BitVec.getLsbD_append]
  interval_cases k <;> simp

theorem statusWord_reserved (s : State) : statusWord s &&& 0xFFFFF0F0#32 = 0#32 := by
  refine BitVec.eq_of_getLsbD_eq fun k hk => ?_
  rw [BitVec.getLsbD_and, statusWord_bit s k hk]
  interval_cases k <;> simp

@[simp] theorem isBusy_writeStatus (v : Word) (s : State) : (writeStatus v s).isBusy = s.isBusy := rfl

theorem statusWord_writeStatus (v : Word) (s : State) : statusWord (writeStatus v s) =
    statusWord s &&& ~~~(v &&& 0xE#32) &&& (if v.getLsbD 2 then 0xFFFFF0FF#32 else 0xFFFFFFFF#32) := by
  refine BitVec.eq_of_getLsbD_eq fun k hk => ?_
  simp only [BitVec.getLsbD_and, BitVec.getLsbD_not, statusWord_bit _ k hk, isBusy_writeStatus, writeStatus_done,
    writeStatus_err, writeStatus_ovr, writeStatus_errCode]
  cases hv : v[2] <;> interval_cases k <;> simp [hv, ErrCode.code]

/-! ### The statements on reset, registers and flags -/

/-- Settles O1: whatever a reset finds, it answers with `resetBlock` of some state, whose registers are those of
`State.reset`. -/
theorem resetGivesEveryRegisterItsResetValue : Obligations.ResetGivesEveryRegisterItsResetValue := by
  refine ⟨readReg_reset, rfl, rfl, reset_idle, fun s t h => ?_, fun _ => rfl, fun s v hv => ?_⟩
  · obtain ⟨u, rfl⟩ := reset_next h
    exact ⟨fun r => readReg_resetBlock r u, rfl, rfl⟩
  · rw [busWrite_ctrl, writeCtrl_softReset v s hv]

/-- Settles O3: IRQ_EN and DONE are bits the registers show, and each of the two writes clears one of them. -/
theorem interruptIsEnableAndDone : Obligations.InterruptIsEnableAndDone := by
  refine ⟨fun s => ?_, fun s v t hv h => ?_, fun s v t hv h => ?_⟩
  · show _ = ((ctrlWord s).getLsbD 0 && (statusWord s).getLsbD 1)
    rw [ctrlWord_bit0, statusWord_bit s 1 (by decide)]
    rfl
  · rw [busWrite_status] at h
    cases h
    simp [State.irq, hv]
  · rw [busWrite_ctrl] at h
    cases hr : v.getLsbD 1 with
    | true =>
      rw [writeCtrl_softReset v s hr] at h
      obtain ⟨u, rfl⟩ := reset_next h
      rfl
    | false =>
      rw [writeCtrl_enable v s hr] at h
      cases h
      show (v.getLsbD 0 && s.done) = false
      rw [hv, Bool.false_and]

/-- Settles O4, by the bits of STATUS. -/
theorem statusWriteClearsTheBitsWrittenOne : Obligations.StatusWriteClearsTheBitsWrittenOne :=
  ⟨statusWord_reserved, fun s v => ⟨writeStatus v s, busWrite_status v s, statusWord_writeStatus v s, rfl⟩⟩

/-- Settles O5, register by register. -/
theorem registerWriteReadsBackItsBits : Obligations.RegisterWriteReadsBackItsBits := by
  refine ⟨fun s r off v hoff hctrl hstatus hcmd => ?_, fun s v hv => ⟨?_, ?_⟩, fun s => rfl, fun s => rfl⟩
  · refine ⟨_, busWrite_reg hoff hctrl hcmd v s, ?_, fun q hq => ?_, writeReg_params_only r v s hctrl hstatus⟩
    · rw [busReadValue_reg hoff, readReg_writeReg_same r v s hctrl hstatus hcmd]
    · rw [readReg_writeReg, if_neg hq]
  · rw [busWrite_ctrl, writeCtrl_enable v s hv]
  · show (if v.getLsbD 0 then 1#32 else 0#32) = v &&& 1#32
    rw [BitVec.and_one_eq_setWidth_ofBool_getLsbD]
    cases v.getLsbD 0 <;> rfl

/-! ### A step of the host that writes CMD (R52, R100) -/

theorem hostTurn_cmd {s : State} {w : Word} (h : s.host.prog[s.host.pc]? = some (.wr .w32 0x10#8 (.const w))) :
    hostTurn s = presentWord w (advanceHost s) := by
  simp only [hostTurn, h]
  exact hostStmt_wr _ _ _ s

theorem presentWord_legal {w : Word} {i : Instr} (h : decode w = .ok i) (s : State) : presentWord w s = exec i s := by
  simp only [presentWord, h]

theorem presentWord_illegal {w : Word} {e : DecodeError} (h : decode w = .error e) (s : State) :
    presentWord w s = .next (presentIllegal w s) := by
  simp only [presentWord, h]

theorem decode_of_decodeTableWord {n w : Nat} {i : Instr} (h : decodeTableWord n w = some i) :
    decode (BitVec.ofNat 32 (w % 2 ^ n)) = .ok i := by
  unfold decodeTableWord at h
  split at h
  · split at h
    · cases h
      assumption
    · cases h
  · cases h

theorem step_scheduled {s : State} {turn : Turn} {rest : List Turn} (h : s.sched = turn :: rest) :
    step s = takeTurn turn { s with sched := rest } := by
  simp only [step, h]

theorem step_unscheduled {s : State} (h : s.sched = []) : step s = takeTurn (defaultTurn s) s := by
  simp only [step, h]

/-- An IDLE block with nothing scheduled leaves the step to the host (log entry 4). -/
theorem step_idle {s : State} (h : s.sched = []) (hf : s.fsm = .idle) : step s = hostTurn s := by
  rw [step_unscheduled h]
  simp only [defaultTurn, State.isBusy, hf]
  rfl

/-- A BUSY block with nothing scheduled moves first (log entry 4). -/
theorem step_busy {s : State} {i : Instr} (h : s.sched = []) (hf : s.fsm = .busy i) : step s = perform i s := by
  rw [step_unscheduled h]
  simp only [defaultTurn, State.isBusy, hf, if_true, takeTurn, blockTurn]

/-- A host statement that writes CMD presents its word, in the default turn of an IDLE block and in a turn of the
schedule. -/
theorem step_presents {s : State} {w : Word} (h : s.host.prog[s.host.pc]? = some (.wr .w32 0x10#8 (.const w))) :
    (s.sched = [] → s.fsm = .idle → step s = presentWord w (advanceHost s)) ∧
      ∀ rest, s.sched = .host :: rest → step s = presentWord w (advanceHost { s with sched := rest }) := by
  refine ⟨fun hs hf => ?_, fun rest hs => ?_⟩
  · rw [step_idle hs hf, hostTurn_cmd h]
  · rw [step_scheduled hs]
    exact hostTurn_cmd h

/-- Settles O11. -/
theorem stepPresentsTheWordWrittenToCmd : Obligations.StepPresentsTheWordWrittenToCmd := by
  refine ⟨fun s w i hd h => ?_, fun s w e hd h => ?_, fun n w i h => ?_, fun s i hf hs => step_busy hs hf⟩
  · simpa only [presentWord_legal hd] using step_presents h
  · simpa only [presentWord_illegal hd] using step_presents h
  · rw [(step_presents (s := State.reset.withFetchWord n w) rfl).2 [] rfl,
      presentWord_legal (decode_of_decodeTableWord h)]

end Sys2Proof.Machine
end

section
/-! SUPPORT. The register frame of commands, cells and other agents; settles O49, O57 and O58. -/
namespace Sys2Proof.Machine

/-! ### The end of a command without destination (R252, R253) -/

/-- An end that leaves memory and the scratch buffers: with an error and the results as they were, or completed with
results and ERR as it was (R252, R283). -/
def plainEnd (s t : State) : Prop :=
  (∃ e, t = raiseError e s) ∨ ∃ r0 r1 n, t = complete { s with result0 := r0, result1 := r1, draws := n }

theorem performBox_plainEnd {i : Instr} {r : Nat} {s t : State} (h : performBox i r s = .next t) : plainEnd s t := by
  unfold performBox at h
  simp only at h
  split at h
  · cases h
    exact .inl ⟨_, rfl⟩
  · replace h := onOrdinaryMemory_next _ _ _ _ h
    split at h
    · cases h
      exact .inl ⟨_, rfl⟩
    · split at h <;> cases h <;> exact .inr ⟨_, _, _, rfl⟩

/-- Every command other than run.unit and run.plane ends plainly. -/
theorem perform_plainEnd {i : Instr} {s t : State} (hu : i ≠ .runUnit) (hp : i ≠ .runPlane)
    (h : perform i s = .next t) : plainEnd s t := by
  cases i with
  | runUnit => exact absurd rfl hu
  | runPlane => exact absurd rfl hp
  | nop | primRsr | primClip3 | primLut =>
    cases h
    exact .inr ⟨_, _, _, rfl⟩
  | primBox3 | primBox5 => exact performBox_plainEnd h
  | primSgrab pass =>
    simp only [perform, performPrimSgrab] at h
    split at h <;> cases h
    · exact .inl ⟨_, rfl⟩
    · exact .inr ⟨_, _, _, rfl⟩

theorem perform_scratch {i : Instr} {s t : State} (hu : i ≠ .runUnit) (hp : i ≠ .runPlane)
    (h : perform i s = .next t) : t.scratch = s.scratch := by
  rcases perform_plainEnd hu hp h with ⟨e, rfl⟩ | ⟨r0, r1, n, rfl⟩ <;> rfl

/-- An error leaves RESULT0 and RESULT1 to every command but run.plane (R253, R283). -/
theorem perform_error_results {i : Instr} {s t : State} (hp : i ≠ .runPlane) (hs : s.err = false) (ht : t.err = true)
    (h : perform i s = .next t) : t.result0 = s.result0 ∧ t.result1 = s.result1 := by
  by_cases hu : i = .runUnit
  · subst hu
    exact (perform_ended _ s t h).results rfl
  · rcases perform_plainEnd hu hp h with ⟨e, rfl⟩ | ⟨r0, r1, n, rfl⟩
    · exact ⟨rfl, rfl⟩
    · cases hs.symm.trans ht

/-- RESULT0 and RESULT1 stay where the command's rule writes none, and where an error stops another than run.plane
(R41). -/
theorem perform_keeps_results {i : Instr} {s t : State} (hs : s.err = false)
    (hi : i = .nop ∨ i = .runUnit ∨ t.err = true ∧ i ≠ .runPlane) (h : perform i s = .next t) :
    t.result0 = s.result0 ∧ t.result1 = s.result1 := by
  rcases hi with rfl | rfl | ⟨ht, hp⟩
  · exact (perform_ended _ s t h).results rfl
  · exact (perform_ended _ s t h).results rfl
  · exact perform_error_results hp hs ht h

/-- Settles O49: a presented command is dropped, rejected, left BUSY, or run to its end, and each has its frame. -/
theorem commandsLeaveOtherRegistersAlone : Obligations.CommandsLeaveOtherRegistersAlone := by
  intro s t i h
  rcases exec_cases i s with ⟨c, hb, e⟩ | ⟨-, -, e⟩ | ⟨hf, ha, -, e⟩ | ⟨-, -, -, e⟩ <;> rw [e] at h
  · cases h
    refine ⟨rfl, rfl, rfl, rfl, rfl, rfl, rfl, fun hf => ?_, fun _ => ⟨rfl, rfl⟩, fun _ _ => rfl, fun hf => ?_,
      fun hf _ => ?_⟩ <;> cases hb.symm.trans hf
  · cases h
    exact ⟨rfl, rfl, rfl, rfl, rfl, rfl, rfl, fun _ => rfl, fun _ => ⟨rfl, rfl⟩, fun _ _ => rfl, fun _ => ⟨rfl, rfl⟩,
      fun _ _ => rfl⟩
  · have hend := perform_ended i _ t h
    refine ⟨hend.params, hend.irqEn, hend.regions, hend.host, hend.sched, hend.inFlight, hend.regBase,
      fun _ => hend.ovr, fun hi => perform_keeps_results (s := accepted i s) rfl ?_ h,
      fun hu hp => perform_scratch (s := accepted i s) hu hp h, fun _ => ⟨hend.snap, hend.progress⟩,
      fun _ _ => hend.start⟩
    rcases hi with hi | hi | hi | hi | hi
    · exact .inl hi
    · exact .inr (.inl hi)
    · exact absurd hf hi
    · exact absurd ha hi
    · exact .inr (.inr hi)
  · cases h
    exact ⟨rfl, rfl, rfl, rfl, rfl, rfl, rfl, fun _ => rfl, fun _ => ⟨rfl, rfl⟩, fun _ _ => rfl, fun _ => ⟨rfl, rfl⟩,
      fun hf _ => nomatch hf⟩

/-! ### Cells and other agents (R51, R53, R97) -/

/-- What a cell turn leaves alone while the command goes on, and what it leaves alone in any case. -/
theorem performCell_frame {s t : State} (h : performCell s = .next t) :
    (t.params = s.params ∧ t.irqEn = s.irqEn ∧ t.ovr = s.ovr) ∧
      (t.result0 = s.result0 ∧ t.result1 = s.result1 ∨ Ended .runPlane s t) := by
  rcases performCell_cases s t h with rfl | hend | ⟨-, -, ⟨bd, u, -, -, hm⟩, -⟩
  · exact ⟨⟨rfl, rfl, rfl⟩, .inl ⟨rfl, rfl⟩⟩
  · exact ⟨⟨hend.params, hend.irqEn, hend.ovr⟩, .inr hend⟩
  · rw [hm.withProgress]
    exact ⟨⟨rfl, rfl, rfl⟩, .inl ⟨rfl, rfl⟩⟩

theorem readReg_agentStore (a : Nat) (bytes : List Byte) (r : Reg) (s : State) :
    readReg r (agentStore a bytes s) = readReg r s := by
  cases r <;> rfl

theorem readReg_landTurn (n : Nat) (r : Reg) (s : State) : readReg r (landTurn n s) = readReg r s := by
  unfold landTurn
  split
  · rfl
  · rw [readReg_agentStore]
    cases r <;> rfl

/-- Settles O57. -/
theorem onlyHostAndResetChangeParameters : Obligations.OnlyHostAndResetChangeParameters := by
  refine ⟨fun s t turn hturn h => ?_, fun s t a v h r => ?_, fun s t n h r => ?_⟩
  · rcases hturn with rfl | rfl
    · simp only [takeTurn, blockTurn] at h
      split at h
      · cases h
        exact ⟨rfl, rfl, rfl⟩
      · have hend := perform_ended _ s t h
        exact ⟨hend.params, hend.irqEn, hend.ovr⟩
    · simp only [takeTurn, cellTurn] at h
      split at h
      · exact (performCell_frame h).1
      · cases h
        exact ⟨rfl, rfl, rfl⟩
  · cases h
    exact readReg_agentStore _ _ r s
  · cases h
    exact readReg_landTurn n r s

/-! ### The results (R41, R51) -/

/-- The ways RESULT0 and RESULT1 can change: the end of a command whose rule writes them, or a reset. -/
def resultsWritten (s t : State) : Prop :=
  (∃ i, writesResults i = true ∧ t.fsm = .idle ∧ t.done = true ∧
    (s.fsm = .busy i ∨ s.fsm = .idle ∧ t.snap.cmd = encode i)) ∨
  (t.fsm = .idle ∧ ∀ r, readReg r t = readReg r State.reset)

theorem Ended.results_or {i : Instr} {s t : State} (h : Ended i s t) :
    t.result0 = s.result0 ∧ t.result1 = s.result1 ∨ writesResults i = true := by
  cases hw : writesResults i with
  | false => exact .inl (h.results hw)
  | true => exact .inr rfl

theorem results_exec {i : Instr} {s t : State} (h : exec i s = .next t) :
    t.result0 = s.result0 ∧ t.result1 = s.result1 ∨ resultsWritten s t := by
  rcases exec_cases i s with ⟨c, -, e⟩ | ⟨-, -, e⟩ | ⟨hf, -, -, e⟩ | ⟨-, -, -, e⟩ <;> rw [e] at h
  · cases h
    exact .inl ⟨rfl, rfl⟩
  · cases h
    exact .inl ⟨rfl, rfl⟩
  · have hend := perform_ended i _ t h
    refine hend.results_or.imp_right fun hw => .inl ⟨i, hw, hend.fsm, hend.done, .inr ⟨hf, ?_⟩⟩
    rw [hend.snap]
    rfl
  · cases h
    exact .inl ⟨rfl, rfl⟩

theorem results_ended {i : Instr} {s t : State} (hb : s.fsm = .busy i) (h : Ended i s t) :
    t.result0 = s.result0 ∧ t.result1 = s.result1 ∨ resultsWritten s t :=
  h.results_or.imp_right fun hw => .inl ⟨i, hw, h.fsm, h.done, .inl hb⟩

theorem Effect.results {s t : State} (he : Effect s t) :
    t.result0 = s.result0 ∧ t.result1 = s.result1 ∨ resultsWritten s t := by
  cases he with
  | around t e =>
    rw [e]
    exact .inl ⟨rfl, rfl⟩
  | present i t e => exact results_exec e
  | illegal w =>
    unfold presentIllegal
    split <;> exact .inl ⟨rfl, rfl⟩
  | reset t e =>
    obtain ⟨u, rfl⟩ := reset_next e
    exact .inr (.inr ⟨rfl, fun r => readReg_resetBlock r u⟩)
  | write r v =>
    rw [writeReg_fields]
    exact .inl ⟨rfl, rfl⟩
  | store a bytes ha => exact .inl ⟨rfl, rfl⟩
  | land n => exact .inl ⟨readReg_landTurn n .result0 s, readReg_landTurn n .result1 s⟩
  | run i t hb e => exact results_ended hb (perform_ended i s t e)
  | cell t hb e =>
    rcases (performCell_frame e).2 with h | h
    · exact .inl h
    · exact results_ended hb h

/-- Settles O58. -/
theorem onlyTheirCommandsWriteTheResults : Obligations.OnlyTheirCommandsWriteTheResults := by
  intro s t hstep hchange
  obtain ⟨u, hu, he⟩ := step_effect s t hstep
  have h := he.results
  rw [hu] at h
  rcases h with ⟨h0, h1⟩ | h
  · exact absurd hchange (not_or.mpr ⟨not_not.mpr h0, not_not.mpr h1⟩)
  · exact h

end Sys2Proof.Machine
end

section
/-! SUPPORT. What run.unit leaves in the scratch buffers and how run.plane counts its cells; settles O29, O37 and
O46. -/
namespace Sys2Proof.Machine

@[simp] theorem finish_scratch (r : Option ErrCode × State) : (finish r).scratch = r.2.scratch := by
  obtain ⟨e, m⟩ := r
  cases e <;> rfl

/-- However an accepted run.unit ends, its scratch buffers are those of the datapath over the source samples (R193,
R232; log entry 3). -/
theorem runUnit_scratch {s t : State} {bd : BitDepth} {kind : FilterKind} (hr : readyFor s)
    (ha : acceptCheck .runUnit s.params = .none) (hbd : bitDepth? s.params.format = some bd)
    (hk : filterKind? s.params.unitKind = some kind) (h : exec .runUnit s = .next t) :
    t.scratch = (unitResult (snapshotRecord s.params kind) bd (unitOf s.params)
      (src s.params bd (unitOf s.params) s.mem) s.scratch).1 := by
  rw [exec_ready _ _ hr ha] at h
  simp only [perform, performRunUnit, accepted_snap, hbd, hk] at h
  cases onOrdinaryMemory_next _ _ _ _ h
  rw [spoil_clear _ _ _ _ (by rfl), finish_scratch]
  rfl

/-! ### The Wiener buffer (R46, R190, R191) -/

theorem wiBuffer_length (bd : BitDepth) (wh : Word) (f : Int → Int → Nat) (w h : Nat) :
    (wiBuffer bd wh f w h).length = h + 6 := by
  simp [wiBuffer]

/-- Settles O29. -/
theorem wienerBufferHoldsTheIntermediates : Obligations.WienerBufferHoldsTheIntermediates := by
  intro s t bd hr ha hbd hk h u
  obtain ⟨-, -, -, -, hu, -, -⟩ := accepted_runUnit _ ha
  have hwi : t.scratch.wi = wiBuffer bd s.params.wienerH (src s.params bd u s.mem) u.w u.h := by
    rw [runUnit_scratch hr ha hbd hk h]
    rfl
  have above := src_row_above s.params bd u s.mem hu
  have below := src_row_below s.params bd u s.mem hu
  have entry := wiAt_wiBuffer bd s.params.wienerH (src s.params bd u s.mem) u.w u.h above below
  rw [hwi]
  refine ⟨wiBuffer_length _ _ _ _ _, entry, fun c hc => ⟨?_, ?_⟩⟩
  · rw [entry 0 c (by omega) hc, entry 1 c (by omega) hc]
    exact wienerInter_row _ _ _ _ _ above c
  · rw [entry (u.h + 5) c (by omega) hc, entry (u.h + 4) c (by omega) hc,
      show ((u.h + 5 : Nat) : Int) - 3 = u.h + 2 by omega, show ((u.h + 4 : Nat) : Int) - 3 = u.h + 1 by omega]
    exact wienerInter_row _ _ _ _ _ below c

/-! ### The self-guided buffers (R47, R221) -/

/-- The buffers of a pass hold T = 256 - A and the offset of the direct box sums (R47, R153, R221). -/
theorem abAt_sweep (pass : Pass) (scale : Nat) (bd : BitDepth) (f : Int → Int → Nat) (hf : ∀ i j, f i j ≤ bd.pixMax)
    (w h k c : Nat) (hk : k < h + 2) (hc : c < w + 2) :
    let buf := abBuffer (passRadius pass) scale bd (boxSweep f (passRadius pass) w h).1
    ((abAt buf k c).t.toNat : Int) = 256 - aDirect (passRadius pass) scale bd f k c ∧
      ((abAt buf k c).b.toNat : Int) = bDirect (passRadius pass) scale bd f k c := by
  intro buf
  obtain ⟨hA, hB⟩ := abBuffer_sweep pass scale bd f hf w h k c hk hc
  refine ⟨?_, hB⟩
  rw [← hA]
  exact (sub_sub_cancel _ _).symm

/-- Settles O37. -/
theorem sgrBuffersHoldTheBoxStatistics : Obligations.SgrBuffersHoldTheBoxStatistics := by
  intro s t bd hr ha hbd hk h u f q k c hkh hcw
  have hf := src_le s.params bd u s.mem
  have hsc : t.scratch = sgrScratch q bd f u.w u.h s.scratch := by
    rw [runUnit_scratch hr ha hbd hk h]
    rfl
  rw [hsc]
  refine ⟨fun h0 => ?_, fun h1 => ?_⟩
  · rw [sgrScratch_sgr0 _ _ _ _ _ _ h0]
    exact abAt_sweep .p0 q.scale0 bd f hf u.w u.h k c hkh hcw
  · rw [sgrScratch_sgr1 _ _ _ _ _ _ h1]
    exact abAt_sweep .p1 q.scale1 bd f hf u.w u.h k c hkh hcw

/-! ### The count of run.plane (R253, R258) -/

theorem trunc32_toNat {n : Nat} (h : n < 2 ^ 32) : (trunc32 n).toNat = n := by
  rw [trunc32, BitVec.ofInt_natCast, BitVec.toNat_ofNat, Nat.mod_eq_of_lt h]

/-- The descriptors of an accepted run.plane fit into memory, so its cells can be counted in a word (R282). -/
theorem cellCount_lt {p : Params} (ha : acceptCheck .runPlane p = .none) : cellCount p < 2 ^ 32 := by
  obtain ⟨-, -, -, -, -, hdesc⟩ := accepted_runPlane p ha
  omega

/-- A command just accepted with no aliasing breaks no rule of R96 and R97. -/
theorem planeApart_accepted {s : State} {bd : BitDepth} (hw : s.mem.wf) (ha : acceptCheck .runPlane s.params = .none)
    (hbd : bitDepth? s.params.format = some bd) (hal : aliased .runPlane s.params = false) :
    PlaneApart s.params bd (accepted .runPlane s) := by
  obtain ⟨bd', hbd', -, -, hd, -⟩ := accepted_runPlane _ ha
  cases hbd.symm.trans hbd'
  refine ⟨hw, hd, ?_, rfl⟩
  simpa only [aliased, destSpans, guardedRows, descSpans, hbd] using hal

/-- The end of an accepted run.plane for which no other agent has broken R97: the counts go to the results, the error to
ERR and ERR_CODE, and memory is as the cells left it (R253, R258). -/
structure PlaneEnd (p : Params) (r : Option ErrCode × Nat × State) (t : State) : Prop where
  done : t.done = true
  fsm : t.fsm = .idle
  result0 : t.result0 = trunc32 r.2.1
  result1 : t.result1 = trunc32 (cellCount p)
  mem : t.mem = r.2.2.mem
  error : r.1 = none ∧ t.err = false ∧ t.errCode = .none ∨ ∃ e, r.1 = some e ∧ t.err = true ∧ t.errCode = e

theorem finishPlane_end (p : Params) (bd : BitDepth) (r : Option ErrCode × Nat × State)
    (htaint : r.2.2.taint = Taint.clear) (herr : r.2.2.err = false) (hcode : r.2.2.errCode = .none) :
    PlaneEnd p r (finishPlane p bd r) := by
  obtain ⟨e, k, m⟩ := r
  rw [finishPlane, spoil_clear _ _ _ _ (by exact htaint)]
  cases e with
  | none => exact ⟨rfl, rfl, rfl, rfl, rfl, .inl ⟨rfl, herr, hcode⟩⟩
  | some e => exact ⟨rfl, rfl, rfl, rfl, rfl, .inr ⟨e, rfl, rfl, rfl⟩⟩

/-- An accepted run.plane off devices runs all its cells and then ends (R258). -/
theorem exec_runPlane_end {s : State} {bd : BitDepth} (hr : readyFor s) (ha : acceptCheck .runPlane s.params = .none)
    (hdev : offDevices .runPlane s) (hbd : bitDepth? s.params.format = some bd) :
    ∃ t, exec .runPlane s = .next t ∧ PlaneEnd s.params (runCells s.params bd (aliased .runPlane s.params) 0
      (gridCells s.params) (accepted .runPlane s)) t := by
  have hfields := (runCells_spec s.params bd (aliased .runPlane s.params) (gridCells s.params) 0
    (accepted .runPlane s)).1.fields
  refine ⟨_, ?_, finishPlane_end s.params bd _ (by rw [hfields]; rfl) (by rw [hfields]; rfl) (by rw [hfields]; rfl)⟩
  rw [exec_ready _ _ hr ha]
  exact performRunPlane_eq (accepted .runPlane s) bd hbd hdev

theorem PlaneEnd.busError {p : Params} {r : Option ErrCode × Nat × State} {t : State} (h : PlaneEnd p r t)
    (hr : r.1 = some .busError) : t.errCode = .busError := by
  rcases h.error with ⟨h1, -⟩ | ⟨e, h1, -, h2⟩ <;> cases h1.symm.trans hr
  exact h2

/-- The count reaches N exactly when no error stopped the cells, and the error is BAD_KIND or BUS_ERROR (R258, R286). -/
theorem PlaneEnd.count {p : Params} {r : Option ErrCode × Nat × State} {t : State} (h : PlaneEnd p r t)
    (hr : r.1 = none ∧ r.2.1 = cellCount p ∨ (r.1 = some .busError ∨ r.1 = some .badKind) ∧ r.2.1 < cellCount p) :
    (r.2.1 = cellCount p ↔ t.err = false) ∧
      (t.err = false ∧ t.errCode = .none ∨ t.err = true ∧ (t.errCode = .badKind ∨ t.errCode = .busError)) := by
  rcases h.error with ⟨hnone, h1, h2⟩ | ⟨e, hsome, h1, h2⟩ <;> rw [h1, h2]
  · rcases hr with ⟨-, hN⟩ | ⟨he | he, -⟩
    · exact ⟨by simp [hN], .inl ⟨rfl, rfl⟩⟩
    · cases hnone.symm.trans he
    · cases hnone.symm.trans he
  · rcases hr with ⟨he, -⟩ | ⟨he | he, hN⟩ <;> cases hsome.symm.trans he
    · exact ⟨by simp [Nat.ne_of_lt hN], .inr ⟨rfl, .inr rfl⟩⟩
    · exact ⟨by simp [Nat.ne_of_lt hN], .inr ⟨rfl, .inl rfl⟩⟩

/-- Settles O46: the count and the error are those of the cells, and where nothing is aliased the cells are complete up
to the count. -/
theorem runPlaneReportsItsCells : Obligations.RunPlaneReportsItsCells := by
  intro s bd hr ha hdev hbd
  have hlt := cellCount_lt ha
  have hlen := gridCells_length s.params
  obtain ⟨t, ht, hend⟩ := exec_runPlane_end hr ha hdev hbd
  obtain ⟨-, hcount, -⟩ := runCells_spec s.params bd (aliased .runPlane s.params) (gridCells s.params) 0
    (accepted .runPlane s)
  generalize hrun : runCells s.params bd (aliased .runPlane s.params) 0 (gridCells s.params) (accepted .runPlane s) = r
    at hcount hend
  rw [hlen, Nat.zero_add] at hcount
  have hle : r.2.1 ≤ cellCount s.params := by rcases hcount with ⟨-, h⟩ | ⟨-, -, h⟩ <;> omega
  have h0 : t.result0.toNat = r.2.1 := by rw [hend.result0, trunc32_toNat (by omega)]
  obtain ⟨hall, herror⟩ := hend.count (hcount.imp_right fun ⟨h1, _, h2⟩ => ⟨h1, h2⟩)
  refine ⟨t, ht, ?_⟩
  rw [h0, hend.result1, trunc32_toNat hlt, hend.mem]
  refine ⟨hend.done, hend.fsm, rfl, hle, hall, herror, fun hw hal => ?_⟩
  rw [hal] at hrun
  obtain ⟨g, hg, -, -, hbefore, hat, hout⟩ := runCells_apart s.params bd (gridCells s.params) 0 (accepted .runPlane s)
    (planeApart_accepted hw ha hbd hal) (gridCells_apart _)
    (fun u hu => (destCells_inPlane .runPlane _ bd hbd ha u hu).1) (by omega)
  rw [hrun] at hg hbefore hat hout
  simp only [Nat.zero_add, accepted_mem] at hg hbefore hat hout
  subst hg
  refine ⟨hbefore, fun u hu i j hi hj => ?_, hout⟩
  exact (hat u hu i j hi hj).imp_right fun ⟨he, hrec⟩ => ⟨hend.busError he, hrec⟩

end Sys2Proof.Machine
end

section
/-! SUPPORT. A running command does not look at the registers the host can write: one lemma per operation of a command,
over the same state with other registers; settles O53. -/
namespace Sys2Proof.Machine

/-- s with every register a bus write can change as `q` has it. -/
def withRegisters (q s : State) : State :=
  { s with
    params := q.params
    irqEn := q.irqEn
    done := q.done
    err := q.err
    errCode := q.errCode
    ovr := q.ovr }

@[simp] theorem withRegisters_snap (q s : State) : (withRegisters q s).snap = s.snap := rfl
@[simp] theorem withRegisters_mem (q s : State) : (withRegisters q s).mem = s.mem := rfl
@[simp] theorem withRegisters_regions (q s : State) : (withRegisters q s).regions = s.regions := rfl
@[simp] theorem withRegisters_taint (q s : State) : (withRegisters q s).taint = s.taint := rfl
@[simp] theorem withRegisters_start (q s : State) : (withRegisters q s).start = s.start := rfl
@[simp] theorem withRegisters_draws (q s : State) : (withRegisters q s).draws = s.draws := rfl
@[simp] theorem withRegisters_progress (q s : State) : (withRegisters q s).progress = s.progress := rfl

/-- A register write changes such registers and nothing else (R21, R24, R25). -/
theorem writeReg_eq_withRegisters (r : Reg) (v : Word) (s : State) :
    writeReg r v s = withRegisters (writeReg r v s) s := writeReg_fields r v s

/-! ### The parts of a command -/

theorem spoil_withRegisters (q : State) (i : Instr) (p : Params) (bd : BitDepth) (s : State) :
    spoil i p bd (withRegisters q s) = withRegisters q (spoil i p bd s) := by
  unfold spoil
  rw [withRegisters_taint]
  split <;> rfl

theorem afterDescriptor_withRegisters (q : State) (p : Params) (k : Nat) (s : State) :
    afterDescriptor p k (withRegisters q s) = withRegisters q (afterDescriptor p k s) := by
  unfold afterDescriptor
  rw [withRegisters_taint, withRegisters_regions]
  split <;> rfl

theorem filterUnit_withRegisters (q : State) (rec : UnitRecord) (p : Params) (bd : BitDepth) (u : UnitRect)
    (loose failed : Bool) (s : State) : filterUnit rec p bd u loose failed (withRegisters q s) =
      ((filterUnit rec p bd u loose failed s).1, withRegisters q (filterUnit rec p bd u loose failed s).2) := rfl

theorem runCells_withRegisters (q : State) (p : Params) (bd : BitDepth) (loose : Bool) (us : List UnitRect) :
    ∀ (k : Nat) (s : State), runCells p bd loose k us (withRegisters q s) =
      ((runCells p bd loose k us s).1, (runCells p bd loose k us s).2.1,
        withRegisters q (runCells p bd loose k us s).2.2) := by
  induction us with
  | nil => intro k s; rfl
  | cons u us ih =>
    intro k s
    have hrd : readDescriptor p k (withRegisters q s) = readDescriptor p k s := rfl
    simp only [runCells, hrd, afterDescriptor_withRegisters, filterUnit_withRegisters]
    cases readDescriptor p k s with
    | error e => rfl
    | ok d =>
      simp only
      cases (filterUnit d.1 p bd u loose d.2 (afterDescriptor p k s)).1 with
      | some e => rfl
      | none => exact ih (k + 1) _

/-! ### The end of a command -/

/-- t and u are the ends of one command, begun at s and at s with the registers of `q`: they differ in the registers a
bus write can change, and in ERR and ERR_CODE only where `q` differs from s in them. -/
structure SameEnd (q s t u : State) : Prop where
  fields : u = { t with params := q.params, irqEn := q.irqEn, ovr := q.ovr, err := u.err, errCode := u.errCode }
  error : q.err = s.err → q.errCode = s.errCode → u.err = t.err ∧ u.errCode = t.errCode

theorem sameEnd_raiseError (q s : State) (e : ErrCode) (m : State) :
    SameEnd q s (raiseError e m) (raiseError e (withRegisters q m)) :=
  ⟨rfl, fun _ _ => ⟨rfl, rfl⟩⟩

theorem sameEnd_complete (q s m : State) (herr : m.err = s.err) (hcode : m.errCode = s.errCode) :
    SameEnd q s (complete m) (complete (withRegisters q m)) :=
  ⟨rfl, fun h1 h2 => ⟨h1.trans herr.symm, h2.trans hcode.symm⟩⟩

theorem sameEnd_finish (q s m : State) (e : Option ErrCode) (herr : m.err = s.err) (hcode : m.errCode = s.errCode) :
    SameEnd q s (finish (e, m)) (finish (e, withRegisters q m)) := by
  cases e with
  | none => exact sameEnd_complete q s m herr hcode
  | some e => exact sameEnd_raiseError q s e m

theorem MemoryOnly.err {P : Nat → Prop} {s t : State} (h : MemoryOnly P s t) : t.err = s.err := by rw [h.fields]

theorem MemoryOnly.errCode {P : Nat → Prop} {s t : State} (h : MemoryOnly P s t) : t.errCode = s.errCode := by
  rw [h.fields]

/-- Whether a command is refused for device memory depends on S and the platform alone (R87). -/
theorem onOrdinaryMemory_answers {i : Instr} {s t : State} {o : Outcome} (h : onOrdinaryMemory i s o = .next t)
    (q : State) : o = .next t ∧ ∀ o', onOrdinaryMemory i (withRegisters q s) o' = o' := by
  unfold onOrdinaryMemory at h
  split at h
  · cases h
  · rename_i hdev
    exact ⟨h, fun o' => by simp [onOrdinaryMemory, hdev]⟩

/-! ### Whole commands -/

theorem performBox_withRegisters (q : State) (i : Instr) (r : Nat) (s t : State) (h : performBox i r s = .next t) :
    ∃ u, performBox i r (withRegisters q s) = .next u ∧ SameEnd q s t u := by
  unfold performBox at h
  simp only at h
  split at h
  · rename_i hbd
    cases h
    exact ⟨raiseError .badFormat (withRegisters q s), by simp [performBox, hbd], sameEnd_raiseError q s _ s⟩
  · rename_i bd hbd
    obtain ⟨h, hom⟩ := onOrdinaryMemory_answers h q
    split at h
    · rename_i hfail
      cases h
      exact ⟨raiseError .busError (withRegisters q s), by simp [performBox, hbd, hom, hfail],
        sameEnd_raiseError q s _ s⟩
    · rename_i hfail
      split at h
      · rename_i htaint
        cases h
        exact ⟨completeWith _ _ (bumpDraws (withRegisters q s)), by simp [performBox, hbd, hom, hfail, htaint],
          sameEnd_complete q s (setResults _ _ (bumpDraws s)) rfl rfl⟩
      · rename_i htaint
        cases h
        exact ⟨completeWith _ _ (withRegisters q s), by simp [performBox, hbd, hom, hfail, htaint],
          sameEnd_complete q s (setResults _ _ s) rfl rfl⟩

theorem performRunUnit_withRegisters (q s t : State) (h : performRunUnit s = .next t) :
    ∃ u, performRunUnit (withRegisters q s) = .next u ∧ SameEnd q s t u := by
  unfold performRunUnit at h ⊢
  simp only [withRegisters_snap, filterUnit_withRegisters, spoil_withRegisters] at h ⊢
  split at h
  · cases h
    exact ⟨_, rfl, sameEnd_raiseError q s _ s⟩
  · rename_i bd hbd
    split at h
    · cases h
      exact ⟨_, rfl, sameEnd_raiseError q s _ s⟩
    · rename_i kind hk
      obtain ⟨h, hom⟩ := onOrdinaryMemory_answers h q
      cases h
      rw [hom]
      have hf := (filterUnit_spec (snapshotRecord s.snap.regs kind) s.snap.regs bd (unitOf s.snap.regs)
        (aliased .runUnit s.snap.regs) false s).1
      have hs := (spoil_spec .runUnit s.snap.regs bd (filterUnit (snapshotRecord s.snap.regs kind) s.snap.regs bd
        (unitOf s.snap.regs) (aliased .runUnit s.snap.regs) false s).2).1
      exact ⟨_, rfl, sameEnd_finish q s _ _ (hs.err.trans hf.err) (hs.errCode.trans hf.errCode)⟩

theorem performRunPlane_withRegisters (q s t : State) (h : performRunPlane s = .next t) :
    ∃ u, performRunPlane (withRegisters q s) = .next u ∧ SameEnd q s t u := by
  unfold performRunPlane at h ⊢
  simp only [withRegisters_snap, withRegisters_progress, runCells_withRegisters] at h ⊢
  split at h
  · cases h
    exact ⟨_, rfl, sameEnd_raiseError q s _ s⟩
  · rename_i bd hbd
    obtain ⟨h, hom⟩ := onOrdinaryMemory_answers h q
    cases h
    rw [hom]
    refine ⟨_, rfl, ?_⟩
    have hf := (runCells_spec s.snap.regs bd (aliased .runPlane s.snap.regs)
      ((gridCells s.snap.regs).drop s.progress) s.progress s).1
    generalize runCells s.snap.regs bd (aliased .runPlane s.snap.regs) s.progress
      ((gridCells s.snap.regs).drop s.progress) s = c at hf
    have hs := (spoil_spec .runPlane s.snap.regs bd
      (setResults (trunc32 c.2.1) (trunc32 (cellCount s.snap.regs)) c.2.2)).1
    have hset : ∀ r0 r1, setResults r0 r1 (withRegisters q c.2.2) = withRegisters q (setResults r0 r1 c.2.2) :=
      fun _ _ => rfl
    simp only [finishPlane, hset, spoil_withRegisters]
    exact sameEnd_finish q s _ _ (hs.err.trans hf.err) (hs.errCode.trans hf.errCode)

/-- A running command does the same whatever the registers hold: it works by its snapshot (R44). -/
theorem perform_withRegisters (q : State) (i : Instr) (s t : State) (h : perform i s = .next t) :
    ∃ u, perform i (withRegisters q s) = .next u ∧ SameEnd q s t u := by
  cases i with
  | nop =>
    cases h
    exact ⟨_, rfl, sameEnd_complete q s s rfl rfl⟩
  | runUnit => exact performRunUnit_withRegisters q s t h
  | runPlane => exact performRunPlane_withRegisters q s t h
  | primRsr | primClip3 | primLut =>
    cases h
    exact ⟨_, rfl, sameEnd_complete q s (setResults _ _ s) rfl rfl⟩
  | primBox3 | primBox5 => exact performBox_withRegisters q _ _ s t h
  | primSgrab pass =>
    simp only [perform, performPrimSgrab, withRegisters_snap] at h ⊢
    split at h <;> cases h
    · exact ⟨_, rfl, sameEnd_raiseError q s _ s⟩
    · exact ⟨_, rfl, sameEnd_complete q s (setResults _ _ s) rfl rfl⟩

/-- Only STATUS reaches ERR and ERR_CODE (R21, R25). -/
theorem writeReg_error (r : Reg) (v : Word) (s : State) (h : r ≠ .status) :
    (writeReg r v s).err = s.err ∧ (writeReg r v s).errCode = s.errCode := by
  cases r with
  | status => exact absurd rfl h
  | _ => exact ⟨rfl, rfl⟩

/-- Settles O53: the write is a change of registers alone, which the command does not look at. -/
theorem registerWritesWhileBusyMissTheCommand : Obligations.RegisterWritesWhileBusyMissTheCommand := by
  intro s t i r v hb _ h
  obtain ⟨u, hu, hsame⟩ := perform_withRegisters (writeReg r v s) i s t h
  rw [← writeReg_eq_withRegisters] at hu
  have hsnap : (writeReg r v s).snap = s.snap := by rw [writeReg_eq_withRegisters]; rfl
  have hfields := hsame.fields
  refine ⟨u, hu, by rw [hfields], by rw [hfields], by rw [hfields], fun hr => ?_, ?_, by rw [hfields], hsnap, ?_⟩
  · obtain ⟨h1, h2⟩ := writeReg_error r v s hr
    exact hsame.error h1 h2
  · exact (perform_ended i _ u hu).snap.trans hsnap
  · rw [writeReg_eq_withRegisters]
    exact hb

end Sys2Proof.Machine
end

section
/-! SUPPORT. The register window and the host's accesses to sample memory; settles O6 and O55. -/
namespace Sys2Proof.Machine

/-! ### The register window (R21, R76, R77) -/

theorem registerAccessOk_false {width : Width} {off : BitVec 8} (h : width ≠ .w32 ∨ off.toNat % 4 ≠ 0) :
    registerAccessOk width off = false := by
  rcases h with h | h <;> simp [registerAccessOk, h]

theorem registerAccessOk_word {off : BitVec 8} (h : off.toNat % 4 = 0) : registerAccessOk .w32 off = true := by
  simp [registerAccessOk, h]

/-- Past UNIT_GRID the window holds no register (R21). -/
theorem Reg.ofOffset?_reserved {off : Nat} (h : 0x64 ≤ off) : Reg.ofOffset? off = none := by
  unfold Reg.ofOffset?
  split
  case h_26 => rfl
  all_goals omega

/-- A host read of a register binds its value where the access is an aligned word, and stops with a bus error where it
is not (R77, R114). -/
theorem hostStmt_rd (width : Width) (off : BitVec 8) (n : Nat) (s : State) : hostStmt (.rd width off n) s =
    if registerAccessOk width off then .next (bindName n (busReadValue off s) (advanceHost s))
    else .fault .hostBusError := by
  simp only [hostStmt, busReadAt_regAddress]

theorem lookupName_bindName (n : Nat) (v : Word) (s : State) : lookupName (bindName n v s).host.names n = some v := by
  simp [bindName, lookupName]

theorem windowOffset?_eq_some (addr : Nat) (off : BitVec 8) (s : State) :
    windowOffset? addr s = some off ↔ addr = s.regBase + off.toNat := by
  constructor
  · intro h
    unfold windowOffset? at h
    split at h
    · injection h with h
      rw [← h, BitVec.toNat_ofNat]
      omega
    · cases h
  · rintro rfl
    exact windowOffset_regAddress off s

/-- Settles O6: each clause is what a host access of the window comes to at its offset. -/
theorem registerWindowServesAlignedWords : Obligations.RegisterWindowServesAlignedWords := by
  refine ⟨fun s width off v n h => ?_, fun s off v ha hres => ?_, fun s off n ha => ?_,
    fun s addr off => windowOffset?_eq_some addr off s, fun s width off v => hostStmt_wr width off _ s⟩
  · simp [busWrite, hostStmt_rd, registerAccessOk_false h]
  · simp [busWrite, busReadValue, registerAccessOk_word ha, Reg.ofOffset?_reserved hres]
  · refine ⟨bindName n (busReadValue off s) (advanceHost s), ?_, lookupName_bindName n _ _, rfl⟩
    rw [hostStmt_rd, registerAccessOk_word ha, if_pos rfl]

/-! ### Host stores (R13, R72, R114) -/

/-- Byte k of a little-endian value (R72). -/
theorem leBytes_getElem (n : Nat) : ∀ (v k : Nat) (h : k < (leBytes n v).length),
    (leBytes n v)[k] = BitVec.ofNat 8 (v / 256 ^ k) := by
  induction n with
  | zero => intro v k h; cases h
  | succ n ih =>
    intro v k h
    cases k with
    | zero => simp [leBytes]
    | succ k =>
      simp only [leBytes, List.getElem_cons_succ]
      rw [ih, Nat.div_div_eq_div_mul, pow_succ']

/-- Byte k of a little-endian word is its bits from 8k up (R72). -/
theorem leBytes_word_getElem (n k : Nat) (v : Word) (h : k < (leBytes n v.toNat).length) :
    (leBytes n v.toNat)[k] = v.extractLsb' (8 * k) 8 := by
  rw [leBytes_getElem]
  apply BitVec.eq_of_toNat_eq
  rw [BitVec.toNat_ofNat, BitVec.extractLsb'_toNat, Nat.shiftRight_eq_div_pow, Nat.pow_mul]

/-- The host may access bytes that exist and lie in no region of the platform (R70, R87, D46). -/
theorem hostAccess_plain {a len : Nat} {s : State} (hin : a + len ≤ memorySize)
    (herr : touches .errorResponse [⟨a, len⟩] s.regions = false)
    (hdev : touches .device [⟨a, len⟩] s.regions = false) (next : Outcome) : hostAccess a len s next = next := by
  simp [hostAccess, Nat.not_lt.mpr hin, herr, hdev]

/-- Settles O55: the store is the little-endian bytes of the value at consecutive addresses. -/
theorem hostStoresAreLittleEndian : Obligations.HostStoresAreLittleEndian := by
  intro s width a v hw hin herr hdev
  refine ⟨agentStore a.toNat (leBytes width.bytes v.toNat) (advanceHost s), hostAccess_plain hin herr hdev _,
    fun k hk => ?_, Memory.readLE_writeBytes _ _ _ _ hw, fun x hx => ?_, rfl, rfl, rfl⟩
  · have hk' : k < (leBytes width.bytes v.toNat).length := by rwa [leBytes_length]
    rw [← leBytes_word_getElem width.bytes k v hk']
    exact Memory.read_writeBytes_inside _ _ _ _ hw hk'
  · exact Memory.read_writeBytes_outside _ _ _ _ (by rwa [leBytes_length])

end Sys2Proof.Machine
end

section
/-! SUPPORT. The memory frame of commands and cells, and the commands refused on devices; settles O50 and O48. -/
namespace Sys2Proof.Machine

/-! ### The memory frame (R82, R250, R251) -/

/-- A command other than run.unit and run.plane writes no memory (R71). -/
theorem perform_mem {i : Instr} {s t : State} (hu : i ≠ .runUnit) (hp : i ≠ .runPlane) (h : perform i s = .next t) :
    t.mem = s.mem := by
  rcases perform_plainEnd hu hp h with ⟨e, rfl⟩ | ⟨r0, r1, n, rfl⟩ <;> rfl

/-- A presented command writes memory only where it is accepted and runs to its end in the same step (R250, R251). -/
theorem exec_mem {i : Instr} {s t : State} (h : exec i s = .next t) :
    t.mem = s.mem ∨ s.fsm = .idle ∧ acceptCheck i s.params = .none ∧ perform i (accepted i s) = .next t := by
  rcases exec_cases i s with ⟨c, -, e⟩ | ⟨-, -, e⟩ | ⟨hf, ha, -, e⟩ | ⟨-, -, -, e⟩ <;> rw [e] at h
  · cases h
    exact .inl rfl
  · cases h
    exact .inl rfl
  · exact .inr ⟨hf, ha, h⟩
  · cases h
    exact .inl rfl

/-- A cell turn writes memory only in the destination of run.plane (R82, R258). -/
theorem performCell_outside {s t : State} (h : performCell s = .next t) (a : Nat)
    (ha : ¬ destByte .runPlane s.snap.regs a) : t.mem.read a = s.mem.read a := by
  rcases performCell_cases s t h with rfl | hend | ⟨-, -, ⟨bd, u, hbd, hu, hm⟩, -⟩
  · rfl
  · exact hend.outside a ha
  · exact hm.outside a fun hua => ha ⟨bd, hbd, u, List.mem_of_getElem? hu, hua⟩

/-- Settles O50: a presented command leaves memory alone or ends, and an end and a cell have their frames. -/
theorem commandsWriteOnlyTheirDestination : Obligations.CommandsWriteOnlyTheirDestination := by
  refine ⟨fun s t i h => ?_, fun s t i h => ⟨(perform_ended i s t h).outside, fun hu hp => perform_mem hu hp h⟩,
    fun s t h => performCell_outside h⟩
  rcases exec_mem h with hm | ⟨hf, ha, hrun⟩
  · exact ⟨fun a _ => by rw [hm], fun _ => hm⟩
  · refine ⟨(perform_ended i _ t hrun).outside, fun hno => ?_⟩
    rcases hno with hbusy | hrej | ⟨hu, hp⟩
    · exact absurd hf hbusy
    · exact absurd ha hrej
    · exact perform_mem (s := accepted i s) hu hp hrun

/-! ### Devices (R87) -/

@[simp] theorem touches_nil (k : RegionKind) (rs : List Region) : touches k [] rs = false := by simp [touches]

/-- The commands that access sample memory (R71). -/
def accessesMemory (i : Instr) : Prop := i = .runUnit ∨ i = .runPlane ∨ i = .primBox3 ∨ i = .primBox5

/-- A command that accesses no memory has no range that must be ordinary memory (R87). -/
theorem ordinarySpans_nil {i : Instr} (hi : ¬ accessesMemory i) (p : Params) : ordinarySpans i p = [] := by
  cases i with
  | runUnit => exact absurd (.inl rfl) hi
  | runPlane => exact absurd (.inr (.inl rfl)) hi
  | primBox3 => exact absurd (.inr (.inr (.inl rfl))) hi
  | primBox5 => exact absurd (.inr (.inr (.inr rfl))) hi
  | nop | primRsr | primClip3 | primLut | primSgrab _ =>
    unfold ordinarySpans sourceWindow commandSpans sourceSpans destSpans
    cases bitDepth? p.format <;> rfl

theorem performBox_device {i : Instr} {r : Nat} {s : State} {bd : BitDepth}
    (hbd : bitDepth? s.snap.regs.format = some bd)
    (hdev : touches .device (ordinarySpans i s.snap.regs) s.regions = true) :
    performBox i r s = .refused .deviceMemory := by
  simp only [performBox, hbd, onOrdinaryMemory_device _ _ _ hdev]

/-- A command whose acceptance checks passed is refused where it touches a device (R87; log entry 13). -/
theorem perform_device {i : Instr} {s : State} (ha : acceptCheck i s.snap.regs = .none)
    (hdev : touches .device (ordinarySpans i s.snap.regs) s.regions = true) :
    perform i s = .refused .deviceMemory := by
  have hi : accessesMemory i := by
    by_contra hi
    rw [ordinarySpans_nil hi, touches_nil] at hdev
    cases hdev
  rcases hi with rfl | rfl | rfl | rfl
  · obtain ⟨bd, kind, hbd, hk, -⟩ := accepted_runUnit _ ha
    simp only [perform, performRunUnit, hbd, hk, onOrdinaryMemory_device _ _ _ hdev]
  · obtain ⟨bd, hbd, -⟩ := accepted_runPlane _ ha
    simp only [perform, performRunPlane, hbd, onOrdinaryMemory_device _ _ _ hdev]
  · obtain ⟨bd, hbd, -⟩ := accepted_box _ (.inl rfl) _ ha
    exact performBox_device hbd hdev
  · obtain ⟨bd, hbd, -⟩ := accepted_box _ (.inr rfl) _ ha
    exact performBox_device hbd hdev

/-- Settles O48. -/
theorem commandsOnDevicesAreRefused : Obligations.CommandsOnDevicesAreRefused := by
  intro s i hr ha hdev
  rw [exec_ready i s hr ha]
  exact perform_device (s := accepted i s) ha hdev

end Sys2Proof.Machine
end

section
/-! SUPPORT. Where the accesses of an accepted command lie: aligned and inside sample memory; settles O16. -/
namespace Sys2Proof.Machine

/-! ### Samples of a checked plane (R75, R83 to R85) -/

/-- A container of a plane whose base and stride are aligned is aligned (R83, R84). -/
theorem sampleAddr_aligned {base stride : Word} {p : Params} {bd : BitDepth} (hbd : bitDepth? p.format = some bd)
    (h : planeAligned base stride p = true) (y x : Nat) : sampleAddr base stride bd y x % bd.sampleBytes = 0 := by
  simp only [planeAligned, sampleBytesOf_eq _ _ hbd, Bool.or_eq_true, Bool.and_eq_true, beq_iff_eq] at h
  apply Nat.mod_eq_zero_of_dvd
  unfold sampleAddr
  rcases h with h | ⟨hbase, hstride⟩
  · rw [h]
    exact one_dvd _
  · have two : bd.sampleBytes ∣ 2 := by cases bd <;> decide
    have hb := two.trans (Nat.dvd_of_mod_eq_zero hbase)
    have hs := two.trans (Nat.dvd_of_mod_eq_zero hstride)
    exact dvd_add (dvd_add hb (hs.mul_left y)) (dvd_mul_left _ x)

/-- The range is a run of samples in one row of the plane. -/
def rowPart (base stride : Word) (p : Params) (bd : BitDepth) (sp : Span) : Prop :=
  ∃ y x n, y < planeH p ∧ x + n ≤ planeW p ∧ sp = ⟨sampleAddr base stride bd y x, n * bd.sampleBytes⟩

/-- The range ends inside sample memory and is made of aligned containers (R83, R85). -/
def soundSpan (p : Params) (sp : Span) : Prop :=
  sp.start + sp.len ≤ 2 ^ 32 ∧ sp.start % sampleBytesOf p.format = 0 ∧ sp.len % sampleBytesOf p.format = 0

theorem rowPart.sound {base stride : Word} {p : Params} {bd : BitDepth} {sp : Span}
    (h : rowPart base stride p bd sp) (hbd : bitDepth? p.format = some bd)
    (hp : PlaneOK base stride bd (planeW p) (planeH p)) (ha : planeAligned base stride p = true) : soundSpan p sp := by
  obtain ⟨y, x, n, hy, hx, rfl⟩ := h
  rw [soundSpan, sampleBytesOf_eq _ _ hbd]
  refine ⟨?_, sampleAddr_aligned hbd ha y x, Nat.mul_mod_left n _⟩
  have hrow : y * stride.toNat ≤ (planeH p - 1) * stride.toNat := Nat.mul_le_mul_right _ (by omega)
  have hcol : (x + n) * bd.sampleBytes ≤ planeW p * bd.sampleBytes := Nat.mul_le_mul_right _ hx
  have hfits := hp.fits
  rw [Nat.add_mul] at hcol
  simp only [sampleAddr]
  omega

/-! ### The ranges of a unit (R80 to R82, R170, R256) -/

theorem rowPart_unitSource {p : Params} {u : UnitRect} (bd : BitDepth) {sp : Span} (h : sp ∈ unitSource p bd u) :
    rowPart p.srcBase p.srcStride p bd sp := by
  obtain ⟨k, hk, rfl⟩ := List.mem_map.mp h
  rw [List.mem_range] at hk
  have hlo : 0 ≤ rowLo u := by unfold rowLo; omega
  have hhi : rowHi p u < planeH p := by unfold rowHi; omega
  exact ⟨(rowLo u).toNat + k, 0, planeW p, by omega, by omega, rfl⟩

section
variable {p : Params} {u : UnitRect} (hu : UnitInPlane p u) (bd : BitDepth) {sp : Span}
include hu

theorem rowPart_unitWindow (kind : FilterKind) (h : sp ∈ unitWindow kind p bd u) :
    rowPart p.srcBase p.srcStride p bd sp := by
  cases kind with
  | copy =>
    obtain ⟨i, hi, rfl⟩ := List.mem_map.mp h
    rw [List.mem_range] at hi
    have hbottom := hu.bottom
    exact ⟨u.y0 + i, u.x0, u.w, by omega, hu.right, rfl⟩
  | wiener => exact rowPart_unitSource bd h
  | selfGuided => exact rowPart_unitSource bd h

theorem rowPart_boxReads (r : Nat) (i j : Int) (h : sp ∈ boxReads p bd u r i j) :
    rowPart p.srcBase p.srcStride p bd sp := by
  simp only [boxReads, List.mem_flatMap, List.mem_map] at h
  obtain ⟨y, -, x, -, rfl⟩ := h
  have hrow := srcRow_range p u hu (i + y - r)
  have hcol := srcCol_range p u hu (j + x - r)
  refine ⟨(srcRow p u (i + y - r)).toNat, (srcCol p u (j + x - r)).toNat, 1, by omega, by omega, ?_⟩
  rw [Nat.one_mul]
  rfl

theorem rowPart_unitDest (h : sp ∈ unitDest p bd u) : rowPart p.dstBase p.dstStride p bd sp := by
  obtain ⟨i, hi, rfl⟩ := List.mem_map.mp h
  rw [List.mem_range] at hi
  have hbottom := hu.bottom
  exact ⟨u.y0 + i, u.x0, u.w, by omega, hu.right, rfl⟩

end

/-! ### The ranges of an accepted command (R281, R282) -/

theorem planeRect_inPlane {p : Params} (h : gridGroupOK p = true) : UnitInPlane p (planeRect p) := by
  obtain ⟨hw, hh, -⟩ := gridGroup_facts p h
  exact ⟨hw, hh, by simp [planeRect], by simp [planeRect]⟩

/-- The source containers of an accepted command are aligned and inside memory (R83, R85). -/
theorem accepted_source {i : Instr} {p : Params} {sp : Span} (ha : acceptCheck i p = .none)
    (h : sp ∈ sourceSpans i p) : soundSpan p sp := by
  obtain ⟨-, -, -, hal, -⟩ := acceptCheck_none i p ha
  cases i with
  | runUnit =>
    obtain ⟨bd, kind, hbd, hk, hu, hp, -⟩ := accepted_runUnit p ha
    simp only [sourceSpans, hbd, runUnitSource, hk] at h
    simp only [alignOK, Bool.and_eq_true] at hal
    exact (rowPart_unitWindow hu bd kind h).sound hbd hp hal.1
  | runPlane =>
    obtain ⟨bd, hbd, -, hp, -, -⟩ := accepted_runPlane p ha
    simp only [sourceSpans, hbd] at h
    simp only [alignOK, Bool.and_eq_true] at hal
    exact (rowPart_unitSource bd h).sound hbd hp hal.1.1
  | primBox3 =>
    obtain ⟨bd, hbd, hu, hp⟩ := accepted_box _ (.inl rfl) p ha
    simp only [sourceSpans, hbd] at h
    exact (rowPart_boxReads hu bd 1 _ _ h).sound hbd hp hal
  | primBox5 =>
    obtain ⟨bd, hbd, hu, hp⟩ := accepted_box _ (.inr rfl) p ha
    simp only [sourceSpans, hbd] at h
    exact (rowPart_boxReads hu bd 2 _ _ h).sound hbd hp hal
  | nop | primRsr | primClip3 | primLut | primSgrab _ =>
    unfold sourceSpans at h
    split at h <;> cases h

/-- The destination containers of an accepted command are aligned and inside memory (R83, R85). -/
theorem accepted_dest {i : Instr} {p : Params} {sp : Span} (ha : acceptCheck i p = .none)
    (h : sp ∈ destSpans i p) : soundSpan p sp := by
  obtain ⟨-, -, -, hal, -⟩ := acceptCheck_none i p ha
  cases i with
  | runUnit =>
    obtain ⟨bd, kind, hbd, -, hu, -, hp⟩ := accepted_runUnit p ha
    simp only [destSpans, hbd] at h
    simp only [alignOK, Bool.and_eq_true] at hal
    exact (rowPart_unitDest hu bd h).sound hbd hp hal.2
  | runPlane =>
    obtain ⟨bd, hbd, hg, -, hp, -⟩ := accepted_runPlane p ha
    simp only [destSpans, hbd] at h
    simp only [alignOK, Bool.and_eq_true] at hal
    exact (rowPart_unitDest (planeRect_inPlane hg) bd h).sound hbd hp hal.1.2
  | nop | primRsr | primClip3 | primLut | primBox3 | primBox5 | primSgrab _ =>
    unfold destSpans at h
    split at h <;> cases h

/-- The descriptors of an accepted command are aligned words inside memory (R84, R85). -/
theorem accepted_desc {i : Instr} {p : Params} {sp : Span} (ha : acceptCheck i p = .none) (h : sp ∈ descSpans i p) :
    sp.start + sp.len ≤ 2 ^ 32 ∧ sp.start % 4 = 0 := by
  cases i with
  | runPlane =>
    obtain ⟨-, -, -, hal, -⟩ := acceptCheck_none _ p ha
    obtain ⟨-, -, -, -, -, hfits⟩ := accepted_runPlane p ha
    simp only [alignOK, Bool.and_eq_true, beq_iff_eq] at hal
    cases List.mem_singleton.mp h
    exact ⟨hfits, hal.2⟩
  | _ => cases h

/-- A destination container of a command is one of its units' (R82). -/
theorem destContainer_cells {i : Instr} {p : Params} {a : Nat} (h : destContainer i p a) :
    ∃ bd, bitDepth? p.format = some bd ∧ ∃ u ∈ destCells i p, ∃ r c, r < u.h ∧ c < u.w ∧ a = dstAddr p bd u r c := by
  cases i with
  | runUnit =>
    obtain ⟨bd, hbd, h⟩ := h
    exact ⟨bd, hbd, unitOf p, List.mem_singleton.mpr rfl, h⟩
  | runPlane => exact h
  | _ => exact h.elim

/-- The base and stride of the destination of an accepted command that has one are aligned (R84). -/
theorem accepted_destAligned {i : Instr} {p : Params} {u : UnitRect} (ha : acceptCheck i p = .none)
    (hu : u ∈ destCells i p) : planeAligned p.dstBase p.dstStride p = true := by
  obtain ⟨-, -, -, hal, -⟩ := acceptCheck_none i p ha
  cases i with
  | runUnit =>
    simp only [alignOK, Bool.and_eq_true] at hal
    exact hal.2
  | runPlane =>
    simp only [alignOK, Bool.and_eq_true] at hal
    exact hal.1.2
  | _ => cases hu

/-- A destination container of an accepted command lies inside memory and is aligned (R83, R85). -/
theorem accepted_container {i : Instr} {p : Params} {a : Nat} (ha : acceptCheck i p = .none)
    (h : destContainer i p a) : a + sampleBytesOf p.format ≤ 2 ^ 32 ∧ a % sampleBytesOf p.format = 0 := by
  obtain ⟨bd, hbd, u, hu, r, c, hr, hc, rfl⟩ := destContainer_cells h
  obtain ⟨hin, hp⟩ := destCells_inPlane i p bd hbd ha u hu
  rw [sampleBytesOf_eq _ _ hbd]
  exact ⟨dstAddr_end_le p bd u hp hin r c hr hc, sampleAddr_aligned hbd (accepted_destAligned ha hu) _ _⟩

/-- Settles O16. -/
theorem acceptedAccessesAreAlignedAndInMemory : Obligations.AcceptedAccessesAreAlignedAndInMemory := by
  intro i p ha
  refine ⟨fun sp hsp => ?_, fun sp hsp => accepted_desc ha hsp, fun a h => accepted_container ha h⟩
  rcases List.mem_append.mp hsp with hsp | hsp
  · exact accepted_source ha hsp
  · exact accepted_dest ha hsp

end Sys2Proof.Machine
end

section
/-! SUPPORT. A host read of a BUSY command's destination returns the old or the new value; settles O56. -/
namespace Sys2Proof.Machine

/-! ### Bytes and little-endian values (R13, R72) -/

/-- The bytes of a container's value are the bytes it holds. -/
theorem leBytes_readLE (m : Memory) (bytes : List Byte) : ∀ a : Nat,
    (∀ (k : Nat) (h : k < bytes.length), m.read (a + k) = bytes[k]) →
      leBytes bytes.length (m.readLE a bytes.length) = bytes := by
  induction bytes with
  | nil => intro a _; rfl
  | cons b bytes ih =>
    intro a h
    have hfirst : m.read a = b := h 0 (Nat.zero_lt_succ _)
    have hrest := ih (a + 1) fun k hk => by
      rw [Nat.add_right_comm]
      exact h (k + 1) (Nat.succ_lt_succ hk)
    have hlow := b.isLt
    have hb : BitVec.ofNat 8 (b.toNat + 256 * m.readLE (a + 1) bytes.length) = b :=
      BitVec.eq_of_toNat_eq (by rw [BitVec.toNat_ofNat]; omega)
    have hdiv : (b.toNat + 256 * m.readLE (a + 1) bytes.length) / 256 = m.readLE (a + 1) bytes.length := by omega
    rw [List.length_cons, Memory.readLE, hfirst, leBytes, hb, hdiv, hrest]

theorem leBytes_injective {n v w : Nat} (h : leBytes n v = leBytes n w) (hv : v < 256 ^ n) (hw : w < 256 ^ n) :
    v = w := by
  have wf : Memory.wf [] := ⟨List.Pairwise.nil, fun _ hc => nomatch hc⟩
  have hmod := Memory.readLE_writeBytes n [] 0 v wf
  rw [h, Memory.readLE_writeBytes n [] 0 w wf, Nat.mod_eq_of_lt hv, Nat.mod_eq_of_lt hw] at hmod
  exact hmod.symm

/-- A container that holds the bytes of a value holds the value, where it fits. -/
theorem readLE_eq_of_leBytes {m : Memory} {a n v : Nat} (hv : v < 256 ^ n)
    (h : ∀ (k : Nat) (hk : k < (leBytes n v).length), m.read (a + k) = (leBytes n v)[k]) : m.readLE a n = v := by
  have hb := leBytes_readLE m (leBytes n v) a h
  rw [leBytes_length] at hb
  exact leBytes_injective hb (m.readLE_lt n a) hv

/-! ### What memory shows of the writes under way (R82, R97) -/

/-- A destination container of an accepted command is a container under way, or apart from every one (R82). -/
theorem pendingStores_container {i : Instr} {s : State} {a : Nat} (ha : acceptCheck i s.snap.regs = .none)
    (hc : destContainer i s.snap.regs a) :
    ∀ st ∈ pendingStores i s, st.bytes.length = sampleBytesOf s.snap.regs.format ∧
      (st.addr = a ∨ st.addr + st.bytes.length ≤ a ∨ a + st.bytes.length ≤ st.addr) := by
  intro st hst
  obtain ⟨bd, hbd, u, hu, hin⟩ := pendingStores_in i s st hst
  obtain ⟨bd', hbd', v, hv, r, c, hr, hc, rfl⟩ := destContainer_cells hc
  cases hbd.symm.trans hbd'
  obtain ⟨r', c', hr', hc', haddr, hlen⟩ := hin st (List.mem_singleton.mpr rfl)
  obtain ⟨hup, hp⟩ := destCells_inPlane i _ bd hbd ha u hu
  obtain ⟨hvp, -⟩ := destCells_inPlane i _ bd hbd ha v hv
  have hur := hup.right
  have hvr := hvp.right
  rw [sampleBytesOf_eq _ _ hbd, haddr, hlen]
  refine ⟨rfl, or_iff_not_imp_left.mpr fun hne => ?_⟩
  refine sampleAddr_disjoint _ _ _ _ _ _ _ _ _ hp (by omega) (by omega) ?_
  by_contra heq
  rw [not_or, not_not, not_not] at heq
  exact hne (by rw [dstAddr, dstAddr, heq.1, heq.2])

/-- With the writes under way performed, a destination container holds what it held, or the bytes of one of them. -/
theorem readLE_pendingStores {i : Instr} {s : State} {a v : Nat} {m : Memory} (hm : m.wf)
    (ha : acceptCheck i s.snap.regs = .none) (hc : destContainer i s.snap.regs a)
    (hv : v = (m.writeStores (pendingStores i s)).readLE a (sampleBytesOf s.snap.regs.format)) :
    v = m.readLE a (sampleBytesOf s.snap.regs.format) ∨
      ∃ st ∈ pendingStores i s, st.addr = a ∧ st.bytes = leBytes (sampleBytesOf s.snap.regs.format) v := by
  subst hv
  have hcont := pendingStores_container ha hc
  by_cases hst : ∃ st ∈ pendingStores i s, st.addr = a
  · obtain ⟨st, hst, rfl⟩ := hst
    refine .inr ⟨st, hst, rfl, ?_⟩
    have hb := leBytes_readLE (m.writeStores (pendingStores i s)) st.bytes st.addr
      (Memory.read_writeStores_inside _ m hm (pendingStores_disjoint i s ha) st hst)
    rw [(hcont st hst).1] at hb
    exact hb.symm
  · refine .inl (Memory.readLE_congr _ _ _ _ fun x hlo hhi => Memory.read_writeStores_outside _ _ _ fun st hmem => ?_)
    obtain ⟨hlen, haddr⟩ := hcont st hmem
    rcases haddr with h | h
    · exact absurd ⟨st, hmem, h⟩ hst
    · omega

/-- The bytes of a destination container lie in the destination ranges of an accepted command (R82). -/
theorem destContainer_spans {i : Instr} {p : Params} {a x : Nat} (ha : acceptCheck i p = .none)
    (hc : destContainer i p a) (hlo : a ≤ x) (hhi : x < a + sampleBytesOf p.format) :
    ∃ sp ∈ destSpans i p, sp.has x := by
  obtain ⟨bd, hbd, u, hu, r, c, hr, hcol, rfl⟩ := destContainer_cells hc
  rw [sampleBytesOf_eq _ _ hbd] at hhi
  exact destCells_spans i p bd hbd ha u hu x ⟨r, c, hr, hcol, hlo, hhi⟩

/-- What a host read finds in a destination container not yet written (R97; log entry 37). -/
theorem readLE_beforeMem {i : Instr} {s : State} {a : Nat} (hm : s.mem.wf) (ha : acceptCheck i s.snap.regs = .none)
    (hc : destContainer i s.snap.regs a) :
    (beforeMem i s).readLE a (sampleBytesOf s.snap.regs.format) =
      (if s.taint.any then s.start.mem else s.mem).readLE a (sampleBytesOf s.snap.regs.format) := by
  cases ht : s.taint.any with
  | false =>
    rw [beforeMem_clear i s ht]
    rfl
  | true =>
    exact Memory.readLE_congr _ _ _ _ fun x hlo hhi =>
      (read_beforeMem i s hm ht x).1 (destContainer_spans ha hc hlo hhi)

/-! ### The host's load (R86, R97, R114) -/

theorem containerBase_of_aligned {p : Params} {a k : Nat} (ha : a % sampleBytesOf p.format = 0)
    (hk : k < sampleBytesOf p.format) : containerBase p (a + k) = a := by
  have hmod : (a + k) % sampleBytesOf p.format = k := by
    rw [Nat.add_mod, ha, Nat.zero_add, Nat.mod_mod, Nat.mod_eq_of_lt hk]
  rw [containerBase, containerSize, hmod, Nat.add_sub_cancel]

theorem readLE_lt_word (m : Memory) (a : Nat) (width : Width) : m.readLE a width.bytes < 2 ^ 32 :=
  (m.readLE_lt width.bytes a).trans_le (by cases width <;> decide)

/-- A host load of a whole destination container of a BUSY command binds the value found before the writes under way or
the value found after them (R97; log entry 7). -/
theorem hostLoad_container {s t : State} {i : Instr} {width : Width} {a : Word} {n : Nat} (hb : s.fsm = .busy i)
    (ha : acceptCheck i s.snap.regs = .none) (hc : destContainer i s.snap.regs a.toNat)
    (hwidth : width.bytes = sampleBytesOf s.snap.regs.format)
    (h : hostStmt (.memR width (.const a) n) s = .next t) :
    let old := beforeMem i s
    ∃ v : Word, t = bindName n v (advanceHost (bumpDraws s)) ∧ (v.toNat = old.readLE a.toNat width.bytes ∨
      v.toNat = (old.writeStores (pendingStores i s)).readLE a.toNat width.bytes) := by
  intro old
  have hpos : 0 < width.bytes := by cases width <;> decide
  have hhit : spansHit (destSpans i s.snap.regs) a.toNat width.bytes = true := by
    obtain ⟨sp, hsp, hhas⟩ := destContainer_spans ha hc (le_refl _) (by omega)
    have hmeets : Span.meets ⟨a.toNat, width.bytes⟩ sp = true :=
      (Span.meets_iff _ _).mpr ⟨a.toNat, ⟨le_refl _, Nat.lt_add_of_pos_right hpos⟩, hhas⟩
    exact List.any_eq_true.mpr ⟨sp, hsp, hmeets⟩
  have hrace := raceReadLE_container s.snap.regs s.draws old (old.writeStores (pendingStores i s)) a.toNat width.bytes
    a.toNat fun k hk => containerBase_of_aligned (accepted_container ha hc).2 (hwidth ▸ hk)
  obtain ⟨-, h⟩ := hostAccess_next h
  simp only [hostLoad, hb, hhit, if_true] at h
  replace h := onOrdinaryMemory_next _ _ _ _ h
  injection h with h
  refine ⟨_, h.symm, ?_⟩
  rw [hrace, BitVec.toNat_ofNat, Nat.mod_eq_of_lt (readLE_lt_word _ _ _)]
  split
  · exact .inr rfl
  · exact .inl rfl

/-! ### The end of the command (R97) -/

/-- While R97 is not broken, a destination container of a BUSY command holds its value before the command, or, in a cell
of run.plane already complete, the value it has when the command ends (R89, R97). -/
theorem readLE_start_or_end {s u : State} {i : Instr} {a : Nat} (hinv : s.Inv) (hb : s.fsm = .busy i)
    (hc : destContainer i s.snap.regs a) (ht : s.taint.any = false) (hp : perform i s = .next u) :
    let n := sampleBytesOf s.snap.regs.format
    s.mem.readLE a n = s.start.mem.readLE a n ∨ s.mem.readLE a n = u.mem.readLE a n := by
  intro n
  have ha := (hinv.busy i hb).1
  obtain ⟨bd, hbd, v, hv, r, c, hr, hcol, rfl⟩ := destContainer_cells hc
  have hn : n = bd.sampleBytes := sampleBytesOf_eq _ _ hbd
  have hbyte : ∀ x, dstAddr s.snap.regs bd v r c ≤ x → x < dstAddr s.snap.regs bd v r c + n →
      unitDestByte s.snap.regs bd v x := fun x hlo hhi => ⟨r, c, hr, hcol, hlo, hn ▸ hhi⟩
  obtain ⟨k, hk⟩ := List.mem_iff_getElem?.mp hv
  by_cases hdone : s.progress ≤ k
  · have hdata : s.taint.data = false := (Bool.or_eq_false_iff.mp ht).1
    exact .inl (Memory.readLE_congr _ _ _ _ fun x hlo hhi =>
      hinv.busyUnwritten i bd hb hdata hbd k v hk hdone x (hbyte x hlo hhi))
  · have hplane : i = .runPlane := by
      by_contra hi
      have := hinv.busyProgress i hb
      rw [if_neg hi] at this
      omega
    subst hplane
    exact .inr (Memory.readLE_congr _ _ _ _ fun x hlo hhi =>
      (performRunPlane_earlier s u bd hbd ha hp ht k v hk (Nat.lt_of_not_le hdone) x (hbyte x hlo hhi)).symm)

/-- The value of a filter rule is a sample (R73). -/
theorem ruleValue_range {i : Instr} {s : State} {a : Nat} {v : Int} (h : ruleValue i s a v) :
    0 ≤ v ∧ v.toNat < 256 ^ sampleBytesOf s.snap.regs.format := by
  have range : ∀ rec bd u r c, bitDepth? s.snap.regs.format = some bd →
      v = sampleDirect rec bd (src s.snap.regs bd u s.mem) u.y0 r c →
        0 ≤ v ∧ v.toNat < 256 ^ sampleBytesOf s.snap.regs.format := by
    rintro rec bd u r c hbd rfl
    obtain ⟨hlo, hhi⟩ := sampleDirect_range rec bd (src s.snap.regs bd u s.mem) (src_le _ bd u s.mem) u.y0 r c
    have hpix := pixMax_lt bd
    rw [sampleBytesOf_eq _ _ hbd]
    exact ⟨hlo, by omega⟩
  cases i with
  | runUnit =>
    obtain ⟨bd, kind, r, c, hbd, -, -, -, -, hv⟩ := h
    exact range _ bd _ r c hbd hv
  | runPlane =>
    obtain ⟨bd, u, rec, r, c, hbd, -, -, -, -, -, hv⟩ := h
    exact range rec bd u r c hbd hv
  | _ => exact h.elim

/-- The value a host read of a BUSY command's destination container binds is the one found in a container not yet
written, or that of a write under way (R97). -/
theorem hostLoad_heldOrPending {s t : State} {i : Instr} {width : Width} {a : Word} {n : Nat} (hm : s.mem.wf)
    (hb : s.fsm = .busy i) (ha : acceptCheck i s.snap.regs = .none) (hc : destContainer i s.snap.regs a.toNat)
    (hwidth : width.bytes = sampleBytesOf s.snap.regs.format)
    (h : hostStmt (.memR width (.const a) n) s = .next t) :
    ∃ v : Word, t = bindName n v (advanceHost (bumpDraws s)) ∧ v.toNat < 256 ^ width.bytes ∧
      (v.toNat = (if s.taint.any then s.start.mem else s.mem).readLE a.toNat width.bytes ∨
        ∃ st ∈ pendingStores i s, st.addr = a.toNat ∧ st.bytes = leBytes width.bytes v.toNat) := by
  obtain ⟨v, ht, hv⟩ := hostLoad_container hb ha hc hwidth h
  have hold := readLE_beforeMem hm ha hc
  rw [← hwidth] at hold
  refine ⟨v, ht, ?_⟩
  rcases hv with hv | hv
  · exact ⟨hv ▸ Memory.readLE_lt _ _ _, .inl (hv.trans hold)⟩
  · refine ⟨hv ▸ Memory.readLE_lt _ _ _, ?_⟩
    rw [hwidth] at hv hold ⊢
    exact (readLE_pendingStores (beforeMem_wf i s hm) ha hc hv).imp_left fun h => h.trans hold

/-- A write under way of a value that fits is what its container holds when the command ends (R82, R97). -/
theorem readLE_end_of_pending {s u : State} {i : Instr} {st : Store} {n v : Nat} (hinv : s.Inv) (hb : s.fsm = .busy i)
    (hst : st ∈ pendingStores i s) (hbytes : st.bytes = leBytes n v) (hv : v < 256 ^ n) (hp : perform i s = .next u)
    (hend : s.taint.any = true ∨ u.err = false) : u.mem.readLE st.addr n = v := by
  have hw := perform_writes i s u hinv.memWf (hinv.busy i hb).1 hp hend st hst
  rw [hbytes] at hw
  exact readLE_eq_of_leBytes hv hw

/-- The value of a write under way is its filter rule's where no rule of R96 and R97 is broken (R82). -/
theorem ruleValue_of_pending {s : State} {i : Instr} {st : Store} {v : Nat}
    (ha : acceptCheck i s.snap.regs = .none) (ht : s.taint = Taint.clear) (hal : aliased i s.snap.regs = false)
    (hst : st ∈ pendingStores i s) (hbytes : st.bytes = leBytes (sampleBytesOf s.snap.regs.format) v)
    (hv : v < 256 ^ sampleBytesOf s.snap.regs.format) : ruleValue i s st.addr v := by
  obtain ⟨w, hrule, hw⟩ := pendingStores_rule i s ha ht hal st hst
  obtain ⟨hnonneg, hfits⟩ := ruleValue_range hrule
  have hvw : v = w.toNat := leBytes_injective (hbytes.symm.trans hw) hv hfits
  rwa [hvw, Int.toNat_of_nonneg hnonneg]

/-- Settles O56: the value bound is the one held or that of a write under way; the first is the value before the command
or stays to its end, the second is what the end writes. -/
theorem hostReadOfBusyDestinationIsOldOrNew : Obligations.HostReadOfBusyDestinationIsOldOrNew := by
  intro s t i width a n hinv hb hc hwidth h held
  have ha := (hinv.busy i hb).1
  obtain ⟨v, rfl, hfits, hread⟩ := hostLoad_heldOrPending hinv.memWf hb ha hc hwidth h
  have hinv' : (bindName n v (advanceHost (bumpDraws s))).Inv := hinv.around rfl
  refine ⟨v, lookupName_bindName n v _, rfl, hread, fun u hp hend => ?_, fun ht hal => ?_⟩
  · rcases hread with hv | ⟨st, hst, haddr, hbytes⟩
    · cases ht : s.taint.any with
      | true =>
        rw [ht] at hv
        exact .inl hv
      | false =>
        rw [ht] at hv
        rw [hv, hwidth]
        exact readLE_start_or_end (s := bindName n v (advanceHost (bumpDraws s))) hinv' hb hc ht hp
    · right
      rw [← pendingStores_congr i s (bindName n v (advanceHost (bumpDraws s))) rfl] at hst
      rw [← haddr]
      exact (readLE_end_of_pending hinv' hb hst hbytes hfits hp hend).symm
  · rcases hread with hv | ⟨st, hst, haddr, hbytes⟩
    · rw [ht] at hv
      exact .inl hv
    · right
      rw [← haddr]
      rw [hwidth] at hbytes hfits
      exact ruleValue_of_pending ha ht hal hst hbytes hfits

end Sys2Proof.Machine
end

section
/-! SUPPORT. The decoder and the encoder of CMD words, field by field; settles O7, O8 and O9. -/
namespace Sys2Proof

/-! ### The fields of a word (R100) -/

theorem cmdOp_toNat (w : Word) : (cmdOp w).toNat = w.toNat % 16 := by
  simp [cmdOp, BitVec.extractLsb'_toNat]

theorem cmdPass_toNat (w : Word) : (cmdPass w).toNat = w.toNat / 16 % 2 := by
  simp [cmdPass, BitVec.extractLsb'_toNat, Nat.shiftRight_eq_div_pow]

theorem cmdRsv_toNat (w : Word) : (cmdRsv w).toNat = w.toNat / 32 := by
  simp only [cmdRsv, BitVec.extractLsb'_toNat, Nat.shiftRight_eq_div_pow]
  have := w.isLt
  omega

/-- RSV, PASS and OP are the whole word. -/
theorem word_eq_iff_fields (v w : Word) : v = w ↔ cmdRsv v = cmdRsv w ∧ cmdPass v = cmdPass w ∧ cmdOp v = cmdOp w := by
  simp only [← BitVec.toNat_inj, cmdRsv_toNat, cmdPass_toNat, cmdOp_toNat]
  omega

/-! ### Legal words (R101) -/

theorem decodeOp_eq_ok_iff (i : Instr) : ∀ op pass,
    decodeOp op pass = .ok i ↔ pass = cmdPass (encode i) ∧ op = cmdOp (encode i) := by
  cases i with
  | primSgrab pass => cases pass <;> decide
  | _ => decide

theorem cmdRsv_encode (i : Instr) : cmdRsv (encode i) = 0#27 := by
  cases i with
  | primSgrab pass => cases pass <;> rfl
  | _ => rfl

/-- A word decodes to a command exactly when it is that command's word. -/
theorem decode_eq_ok_iff (w : Word) (i : Instr) : decode w = .ok i ↔ w = encode i := by
  rw [word_eq_iff_fields, cmdRsv_encode, ← decodeOp_eq_ok_iff, decode]
  by_cases h : cmdRsv w = 0#27 <;> simp [h]

@[simp] theorem decode_encode (i : Instr) : decode (encode i) = .ok i := (decode_eq_ok_iff _ i).mpr rfl

/-- A table word decodes to a command exactly when its `n` low bits are that command's word (R112). -/
theorem decodeTableWord_eq_some_iff (n w : Nat) (i : Instr) :
    decodeTableWord n w = some i ↔ w % 2 ^ n = (encode i).toNat := by
  by_cases h : w % 2 ^ n < 2 ^ 32
  · have hdecode : decodeTableWord n w = some i ↔ decode (BitVec.ofNat 32 (w % 2 ^ n)) = .ok i := by
      rw [decodeTableWord, if_pos h]
      cases decode (BitVec.ofNat 32 (w % 2 ^ n)) <;> simp
    rw [hdecode, decode_eq_ok_iff, ← BitVec.toNat_inj, BitVec.toNat_ofNat, Nat.mod_eq_of_lt h]
  · have := (encode i).isLt
    rw [decodeTableWord, if_neg h]
    exact iff_of_false (by simp) (by omega)

theorem Instr.wellFormed_true (i : Instr) : i.wellFormed = true := by
  cases i with
  | primSgrab pass => cases pass <;> rfl
  | _ => rfl

/-- Settles O9: the decoder inverts the encoder field by field, and the table's numbering is the word's value. -/
theorem decodeAndEncodeAreInverse : Obligations.DecodeAndEncodeAreInverse :=
  ⟨decode_eq_ok_iff,
    fun i => ⟨i.wellFormed_true, (decodeTableWord_eq_some_iff _ _ i).mpr (Nat.mod_eq_of_lt (encode i).isLt)⟩,
    fun n w i => (decodeTableWord_eq_some_iff n w i).mp⟩

/-- Settles O7: the words of the OP map are the encoder's, and the three beside them are rejected by evaluation. -/
theorem opMapWordsDecodeToTheirCommands : Obligations.OpMapWordsDecodeToTheirCommands :=
  ⟨decode_encode .nop, decode_encode .runUnit, decode_encode .runPlane, decode_encode .primRsr,
    decode_encode .primClip3, decode_encode .primLut, decode_encode .primBox3, decode_encode .primBox5,
    decode_encode (.primSgrab .p0), decode_encode (.primSgrab .p1), rfl, rfl, rfl⟩

/-! ### Illegal words (R110) -/

theorem decode_error_iff_not_encoded (w : Word) : (∃ e, decode w = .error e) ↔ ∀ i, encode i ≠ w := by
  have h : ∀ i, encode i ≠ w ↔ decode w ≠ .ok i := fun i => by rw [ne_comm, Ne, ← decode_eq_ok_iff]
  simp only [h]
  cases decode w <;> simp

theorem decodeOp_error_iff : ∀ op pass,
    (∃ e, decodeOp op pass = .error e) ↔ 9 ≤ op.toNat ∨ pass.toNat = 1 ∧ op.toNat ≠ 8 := by
  have h : ∀ op pass, (∃ e, decodeOp op pass = .error e) ↔ (decodeOp op pass).isOk = false := fun op pass => by
    cases decodeOp op pass <;> simp [Except.isOk, Except.toBool]
  simp only [h]
  decide

/-- The decoder rejects a word for R110's own three reasons. -/
theorem decode_error_iff (w : Word) : (∃ e, decode w = .error e) ↔
    9 ≤ w.toNat % 16 ∨ w.toNat / 32 ≠ 0 ∨ (w.toNat / 16 % 2 = 1 ∧ w.toNat % 16 ≠ 8) := by
  by_cases h : cmdRsv w = 0#27
  · have hrsv : w.toNat / 32 = 0 := by rw [← cmdRsv_toNat, h]; rfl
    rw [decode, if_pos h, decodeOp_error_iff, cmdOp_toNat, cmdPass_toNat]
    simp [hrsv]
  · have hrsv : w.toNat / 32 ≠ 0 := fun h0 => h (BitVec.eq_of_toNat_eq ((cmdRsv_toNat w).trans h0))
    rw [decode, if_neg h]
    simp [hrsv]

namespace Machine

theorem presentIllegal_idle {s : State} (h : s.fsm = .idle) (w : Word) :
    presentIllegal w s = raiseError .illegalCmd (takeSnapshot w s) := by
  simp only [presentIllegal, h]

/-- Settles O8: R110's reasons are the decoder's, whose rejected words are the words of no command. -/
theorem illegalWordsEndWithIllegalCmd : Obligations.IllegalWordsEndWithIllegalCmd := by
  intro w
  dsimp only
  rw [← decode_error_iff]
  refine ⟨decode_error_iff_not_encoded w, Iff.rfl, fun ⟨e, he⟩ s hidle => ?_, rfl⟩
  rw [presentWord_illegal he, presentIllegal_idle hidle, raiseError, takeSnapshot, hidle]

end Machine
end Sys2Proof
end

section
/-! SUPPORT. The packing helpers as values placed in the fields of a word; settles O10. -/
namespace Sys2Proof.Machine

/-! ### Fields of a word (R103) -/

/-- A value in the field that begins at bit `d` of a word whose other bits are 0. -/
def placed {n : Nat} (x : BitVec n) (d : Nat) : Word := x.setWidth 32 <<< d

theorem placed_bit {n : Nat} (x : BitVec n) (d k : Nat) (hk : k < 32) :
    (placed x d).getLsbD k = (decide (d ≤ k) && x.getLsbD (k - d)) := by
  simp only [placed, BitVec.getLsbD_shiftLeft, BitVec.getLsbD_setWidth, hk, show k - d < 32 by omega]
  by_cases h : d ≤ k <;> simp [h]

/-- A placed value is read back from its field. -/
theorem placed_field {n : Nat} (x : BitVec n) (d : Nat) (h : d + n ≤ 32) : (placed x d).extractLsb' d n = x := by
  refine BitVec.eq_of_getLsbD_eq fun k hk => ?_
  rw [BitVec.getLsbD_extractLsb', placed_bit _ _ _ (by omega)]
  simp [hk]

/-- A placed value leaves every field apart from its own 0. -/
theorem placed_field_other {n : Nat} (x : BitVec n) (d e m : Nat) (he : e + m ≤ 32) (h : e + m ≤ d ∨ d + n ≤ e) :
    (placed x d).extractLsb' e m = 0#m := by
  refine BitVec.eq_of_getLsbD_eq fun k hk => ?_
  rw [BitVec.getLsbD_extractLsb', placed_bit _ _ _ (by omega)]
  rcases h with h | h
  · simp [show ¬ d ≤ e + k by omega]
  · simp [BitVec.getLsbD_of_ge x (e + k - d) (by omega)]

/-- Bits 31:26 are the reserved bits of WIENER_H and WIENER_V (R36, R37). -/
theorem and_not_wienerMask {w : Word} (h : w.extractLsb' 26 6 = 0#6) : w &&& ~~~wienerMask = 0#32 := by
  have hmask : ∀ k < 32, (~~~wienerMask).getLsbD k = decide (26 ≤ k) := by decide
  refine BitVec.eq_of_getLsbD_eq fun k hk => ?_
  rw [BitVec.getLsbD_and, hmask k hk]
  by_cases hk' : 26 ≤ k
  · have hbit := congrArg (fun v => v.getLsbD (k - 26)) h
    simpa [hk', show k - 26 < 6 by omega] using hbit
  · simp [hk']

/-! ### The packing helpers (R104) -/

theorem packXY_eq (x y : BitVec 16) : packXY x y = placed y 16 ||| placed x 0 := by
  simp [packXY, placed]

theorem packWiener_eq (c0 c1 c2 : Int) (l : BitVec 2) : packWiener c0 c1 c2 l =
    placed l 24 ||| placed (BitVec.ofInt 8 c2) 16 ||| placed (BitVec.ofInt 8 c1) 8 ||| placed (BitVec.ofInt 8 c0) 0 := by
  simp [packWiener, placed]

theorem packMult_eq (w0 w1 : Int) : packMult w0 w1 = packXY (BitVec.ofInt 16 w0) (BitVec.ofInt 16 w1) := rfl

theorem packBoxPos_eq (i j : Int) : packBoxPos i j = packXY (BitVec.ofInt 16 j) (BitVec.ofInt 16 i) := rfl

theorem packXY_fields (x y : BitVec 16) :
    (packXY x y).extractLsb' 0 16 = x ∧ (packXY x y).extractLsb' 16 16 = y := by
  simp (disch := omega) [packXY_eq, BitVec.extractLsb'_or, placed_field, placed_field_other]

theorem packWiener_fields (c0 c1 c2 : Int) (l : BitVec 2) :
    (packWiener c0 c1 c2 l).extractLsb' 0 8 = BitVec.ofInt 8 c0 ∧
      (packWiener c0 c1 c2 l).extractLsb' 8 8 = BitVec.ofInt 8 c1 ∧
      (packWiener c0 c1 c2 l).extractLsb' 16 8 = BitVec.ofInt 8 c2 ∧
      (packWiener c0 c1 c2 l).extractLsb' 24 2 = l ∧ (packWiener c0 c1 c2 l).extractLsb' 26 6 = 0#6 := by
  simp (disch := omega) [packWiener_eq, BitVec.extractLsb'_or, placed_field, placed_field_other]

theorem toInt_ofInt_byte {c : Int} (h : -128 ≤ c ∧ c ≤ 127) : (BitVec.ofInt 8 c).toInt = c :=
  BitVec.toInt_ofInt_eq_self (by decide) (by omega) (by omega)

theorem toInt_ofInt_half {a : Int} (h : -32768 ≤ a ∧ a ≤ 32767) : (BitVec.ofInt 16 a).toInt = a :=
  BitVec.toInt_ofInt_eq_self (by decide) (by omega) (by omega)

/-- A pair of signed halves is read back by `sext_16` (R103). -/
theorem packXY_signed {a b : Int} (ha : -32768 ≤ a ∧ a ≤ 32767) (hb : -32768 ≤ b ∧ b ≤ 32767) :
    lo16s (packXY (BitVec.ofInt 16 a) (BitVec.ofInt 16 b)) = a ∧
      hi16s (packXY (BitVec.ofInt 16 a) (BitVec.ofInt 16 b)) = b := by
  obtain ⟨hlo, hhi⟩ := packXY_fields (BitVec.ofInt 16 a) (BitVec.ofInt 16 b)
  rw [lo16s, hi16s, hlo, hhi]
  exact ⟨toInt_ofInt_half ha, toInt_ofInt_half hb⟩

/-- Settles O10: each decoding reads the field where the helper placed its value. -/
theorem packingHelpersFillTheirFields : Obligations.PackingHelpersFillTheirFields := by
  refine ⟨fun x y => ?_, fun c0 c1 c2 l h0 h1 h2 => ?_, fun a b ha hb => ?_, by decide, by decide⟩
  · obtain ⟨hlo, hhi⟩ := packXY_fields x y
    exact ⟨congrArg BitVec.toNat hlo, congrArg BitVec.toNat hhi⟩
  · obtain ⟨hc0, hc1, hc2, hl, hreserved⟩ := packWiener_fields c0 c1 c2 l
    simp only [storedTap, leadingZeroTaps, hc0, hc1, hc2, hl]
    exact ⟨toInt_ofInt_byte h0, toInt_ofInt_byte h1, toInt_ofInt_byte h2, trivial, and_not_wienerMask hreserved⟩
  · rw [packMult_eq, packBoxPos_eq]
    exact ⟨(packXY_signed ha hb).1, (packXY_signed ha hb).2, (packXY_signed hb ha).2, (packXY_signed hb ha).1⟩

end Sys2Proof.Machine
end

section
/-! SUPPORT. A presented command ends in its step, and `wait` passes once DONE is set; settles O12. -/
namespace Sys2Proof.Machine

/-- With nothing scheduled a command off devices ends in the step that presents it, rejected or run to its end, and leaves
the host and the schedule alone (R250, R252, R253; log entry 4). -/
theorem exec_ready_ends {i : Instr} {s : State} (hr : readyFor s) (hd : offDevices i s) :
    ∃ t, exec i s = .next t ∧ t.fsm = .idle ∧ t.done = true ∧ t.host = s.host ∧ t.sched = s.sched := by
  by_cases ha : acceptCheck i s.params = .none
  · obtain ⟨t, ht⟩ := exec_offDevices i s hr ha hd
    have hend := perform_ended i _ t ((exec_ready i s hr ha).symm.trans ht)
    exact ⟨t, ht, hend.fsm, hend.done, hend.host, hend.sched⟩
  · rcases exec_cases i s with ⟨c, hbusy, -⟩ | ⟨-, -, he⟩ | ⟨-, h, -⟩ | ⟨-, h, -⟩
    · cases hbusy.symm.trans hr.1
    · exact ⟨_, he, rfl, rfl, rfl, rfl⟩
    · exact absurd h ha
    · exact absurd h ha

theorem statusWord_done {s : State} (h : s.done = true) : statusWord s &&& 2#32 = 2#32 := by
  have hmask : ∀ k < 32, (2#32).getLsbD k = decide (k = 1) := by decide
  refine BitVec.eq_of_getLsbD_eq fun k hk => ?_
  rw [BitVec.getLsbD_and, hmask k hk, statusWord_bit s k hk]
  by_cases hk1 : k = 1
  · simp [hk1, h]
  · simp [hk1]

/-- A `poll` of an aligned register compares its masked value (R114). -/
theorem hostStmt_poll {off : BitVec 8} (h : registerAccessOk .w32 off = true) (mask v : Word) (s : State) :
    hostStmt (.poll off (.const mask) (.const v)) s = .next (pollResult (busReadValue off s) mask v s) := by
  simp only [hostStmt, withOperand, operandValue, busReadAt_regAddress, h, if_true]

/-- `wait` passes when DONE is set (R115). -/
theorem hostStmt_wait {s : State} (h : s.done = true) : hostStmt waitStmt s = .next (advanceHost s) := by
  rw [waitStmt, hostStmt_poll (by decide), busReadValue_reg (r := .status) rfl]
  exact congrArg Host.Outcome.next (if_pos (statusWord_done h))

/-- Settles O12: the first step presents the word, which ends the command, and the second finds DONE set. -/
theorem runPseudoEndsAfterItsWait : Obligations.RunPseudoEndsAfterItsWait := by
  intro s i hr hd hcmd hwait
  obtain ⟨t, ht, hidle, hdone, hhost, hsched⟩ := exec_ready_ends (i := i) (s := advanceHost s) hr hd
  refine ⟨t, ?_, hidle, hdone, by rw [hhost]; rfl, ?_⟩
  · rw [(step_presents hcmd).1 hr.2 hr.1, presentWord_legal (decode_encode i), ht]
  · have hstmt : t.host.prog[t.host.pc]? = some waitStmt := by rw [hhost]; exact hwait
    rw [step_idle (hsched.trans hr.2) hidle]
    simp only [hostTurn, hstmt, hostStmt_wait hdone]
    rw [advanceHost, jumpTo, hhost]
    rfl

end Sys2Proof.Machine
end

section
/-! SUPPORT. An accepted run.plane on plain memory; settles O44. -/
namespace Sys2Proof.Machine

/-- A command just accepted on plain memory with no aliasing meets no error response either (R96, R97, R286). -/
theorem planePlain_accepted {s : State} {bd : BitDepth} (hw : s.mem.wf) (ha : acceptCheck .runPlane s.params = .none)
    (hp : onPlainMemory .runPlane s) (hbd : bitDepth? s.params.format = some bd)
    (hal : aliased .runPlane s.params = false) : PlanePlain s.params bd (accepted .runPlane s) := by
  obtain ⟨hsrc, hdst, hdesc⟩ := touches_commandSpans _ _ _ _ hp.2
  simp only [sourceSpans, destSpans, hbd] at hsrc hdst
  exact ⟨planeApart_accepted hw ha hbd hal, hsrc, hdst, hdesc⟩

/-- The state after an accepted run.plane whose cells met no error and took no free value (R252, R258). -/
theorem finishPlane_completed {s m : State} {bd : BitDepth} {P : Nat → Prop} {k : Nat}
    (hm : MemoryOnly P (accepted .runPlane s) m) (hdraws : m.draws = s.draws) :
    finishPlane s.params bd (none, k, m) =
      { endedWith .runPlane (BitVec.ofNat 32 k) (BitVec.ofNat 32 (cellCount s.params)) s with
        mem := m.mem, scratch := m.scratch } := by
  have hfields := hm.fields
  rw [hdraws] at hfields
  rw [finishPlane, spoil_clear _ _ _ _ (by rw [hfields]; rfl), hfields]
  simp only [trunc32, BitVec.ofInt_natCast]
  rfl

/-- Settles O44: no descriptor stops the cells, so they run to the last one, and each leaves its samples. -/
theorem runPlaneFiltersEveryCell : Obligations.RunPlaneFiltersEveryCell := by
  intro s bd hw hr ha hp hal hbd hsome n
  have hlen := gridCells_length s.params
  obtain ⟨hmem, -, -⟩ := runCells_spec s.params bd false (gridCells s.params) 0 (accepted .runPlane s)
  obtain ⟨hnone, hcount, hdraws, hsamples, hout⟩ := runCells_plain s.params bd (gridCells s.params) 0
    (gridCells s.params).length (accepted .runPlane s) (planePlain_accepted hw ha hp hbd hal) (gridCells_apart _)
    (fun u hu => (destCells_inPlane .runPlane _ bd hbd ha u hu).1) (by omega) (le_refl _)
    (fun k hk => by rw [Nat.zero_add]; exact hsome k (hlen ▸ hk)) (fun h => absurd h (Nat.lt_irrefl _))
  have hexec : exec .runPlane s = .next (finishPlane s.params bd
      (runCells s.params bd false 0 (gridCells s.params) (accepted .runPlane s))) := by
    rw [exec_ready _ _ hr ha, ← hal]
    exact performRunPlane_eq (accepted .runPlane s) bd hbd hp.1
  generalize runCells s.params bd false 0 (gridCells s.params) (accepted .runPlane s) = r at *
  obtain ⟨e, k, m⟩ := r
  simp only [Nat.lt_irrefl, if_false, Nat.zero_add, hlen, accepted_mem] at hnone hcount hsamples hout
  subst hnone hcount
  rw [finishPlane_completed hmem hdraws] at hexec
  refine ⟨_, hexec, rfl, fun k u rec i j hu hrec hi hj => ?_, fun a ha => ?_⟩
  · exact hsamples k u rec i j (hlen ▸ (List.getElem?_eq_some_iff.mp hu).1) hu hrec hi hj
  · exact hout a fun k u _ hu hbyte => ha ⟨bd, hbd, u, List.mem_of_getElem? hu, hbyte⟩

end Sys2Proof.Machine
end

section
/-! SUPPORT. The rounding shift and the clamp as commands; settles O20 and O21. -/
namespace Sys2Proof.Machine

/-- An accepted command with nothing scheduled that completes with two results leaves the state of R252. -/
theorem exec_ready_completes {i : Instr} {s : State} {r0 r1 : Word} (hr : readyFor s)
    (ha : acceptCheck i s.params = .none)
    (hp : perform i (accepted i s) = .next (completeWith r0 r1 (accepted i s))) :
    exec i s = .next (endedWith i r0 r1 s) := by
  rw [exec_ready i s hr ha, hp]
  rfl

theorem trunc32_toInt {v : Int} (h : -2 ^ 31 ≤ v ∧ v < 2 ^ 31) : (trunc32 v).toInt = v :=
  BitVec.toInt_ofInt_eq_self (by decide) h.1 h.2

theorem shiftCount_eq (w : Word) : shiftCount w = w.toNat % 32 := by
  simp [shiftCount, BitVec.extractLsb'_toNat]

theorem word_toInt_range (w : Word) : -2 ^ 31 ≤ w.toInt ∧ w.toInt < 2 ^ 31 :=
  ⟨BitVec.le_toInt w, BitVec.toInt_lt⟩

/-- Multiples of `2^b` shift exactly, so the bounds of the operand shift with it. -/
theorem rsr_pow_bounds {v : Int} {b n : Nat} (hb : b ≤ n) (hv : -2 ^ n ≤ v ∧ v ≤ 2 ^ n) :
    -2 ^ (n - b) ≤ rsr v b ∧ rsr v b ≤ 2 ^ (n - b) := by
  have hpow : (2 : Int) ^ (n - b) * 2 ^ b = 2 ^ n := by rw [← pow_add, Nat.sub_add_cancel hb]
  have hlow := rsr_mono _ _ b hv.1
  have hhigh := rsr_mono _ _ b hv.2
  rw [← hpow, ← neg_mul, rsr_mul_pow] at hlow
  rw [← hpow, rsr_mul_pow] at hhigh
  exact ⟨hlow, hhigh⟩

/-- RSR of a word fits in a word: the bias cannot leave it, since a count of 1 already halves (R130). -/
theorem rsr_word_range (w : Word) {b : Nat} (hb : b ≤ 31) : -2 ^ 31 ≤ rsr w.toInt b ∧ rsr w.toInt b < 2 ^ 31 := by
  obtain ⟨hlow, hhigh⟩ := word_toInt_range w
  rcases Nat.eq_zero_or_pos b with rfl | hpos
  · exact ⟨hlow, hhigh⟩
  · have hbounds := rsr_pow_bounds hb ⟨hlow, hhigh.le⟩
    have hhalf : (2 : Int) ^ (31 - b) ≤ 2 ^ 30 := pow_le_pow_right₀ (by decide) (by omega)
    omega

/-- Settles O20: the exact shift fits in a word, so RESULT0 holds it. -/
theorem primRsrRoundsTheShiftedOperand : Obligations.PrimRsrRoundsTheShiftedOperand := by
  intro s hr v b
  have hb : b ≤ 31 := by omega
  have hr0 : (trunc32 (rsr v b)).toInt = rsr v b := trunc32_toInt (rsr_word_range s.params.opa hb)
  obtain ⟨hlow, hhigh⟩ := word_toInt_range s.params.opa
  refine ⟨trunc32 (rsr v b), exec_ready_completes hr rfl ?_, hr0, fun _ => ?_⟩
  · rw [show b = shiftCount s.params.opb from (shiftCount_eq _).symm]
    rfl
  · rw [hr0]
    exact rsr_pow_bounds hb ⟨hlow, hhigh.le⟩

/-- Clip3 gives one of its three operands, for low > high too (R131). -/
theorem clip3_cases (v low high : Int) : clip3 v low high = low ∨ clip3 v low high = high ∨ clip3 v low high = v := by
  unfold clip3
  split
  · exact .inl rfl
  · split
    · exact .inr (.inl rfl)
    · exact .inr (.inr rfl)

/-- The clamp of signed words is one of them, so it fits in a word. -/
theorem clip3_word_toInt (v low high : Word) :
    (trunc32 (clip3 v.toInt low.toInt high.toInt)).toInt = clip3 v.toInt low.toInt high.toInt := by
  apply trunc32_toInt
  rcases clip3_cases v.toInt low.toInt high.toInt with h | h | h <;> rw [h] <;> exact word_toInt_range _

/-- Settles O21. -/
theorem primClip3ClampsTheOperand : Obligations.PrimClip3ClampsTheOperand := fun s hr =>
  ⟨_, exec_ready_completes hr rfl rfl, clip3_word_toInt s.params.opa s.params.opb s.params.opc⟩

end Sys2Proof.Machine
end

section
/-! SUPPORT. The reciprocal table as a table and as a command; settles O22 and O23. -/
namespace Sys2Proof.Machine

/-- The reference multiplier of R150, of which the table stores the complement (R153). -/
def a2ref (z : Nat) : Nat := if z = 0 then 1 else if 255 ≤ z then 256 else (z * 256 + z / 2) / (z + 1)

/-- R150: every stored entry is the complement of its reference multiplier. -/
theorem recip_add_a2ref : ∀ z < 256, recip z + a2ref z = 256 := by decide +kernel

theorem reciprocalTable_length : reciprocalTable.length = 256 := by
  simp only [reciprocalTable, List.length_append, List.length_replicate]
  rfl

theorem reciprocalTable_sum : reciprocalTable.sum = 1556 := by
  simp only [reciprocalTable, List.sum_append, List.sum_replicate]
  rfl

/-- The head falls to 5, and each run of R150 repeats a smaller entry than the one before it. -/
theorem reciprocalTable_nonincreasing : reciprocalTable.Pairwise (· ≥ ·) := by
  have hhead : reciprocalHead.Pairwise (· ≥ ·) := by decide
  have hlow : ∀ t ∈ reciprocalHead, 5 ≤ t := by decide
  simp only [reciprocalTable, List.pairwise_append, List.pairwise_replicate, List.pairwise_singleton, List.mem_append,
    List.mem_replicate, List.mem_singleton]
  grind

/-- R154, beyond the table too, where `recip` is 0. -/
theorem recip_antitone : Antitone recip := by
  refine antitone_nat_of_succ_le fun z => ?_
  rcases Nat.lt_or_ge (z + 1) 256 with hz | hz
  · have hlt : z + 1 < reciprocalTable.length := reciprocalTable_length ▸ hz
    unfold recip
    rw [List.getD_eq_getElem _ _ hlt, List.getD_eq_getElem _ _ (by omega)]
    exact List.pairwise_iff_getElem.mp reciprocalTable_nonincreasing z (z + 1) _ _ (Nat.lt_succ_self z)
  · rw [recip, List.getD_eq_default _ _ (reciprocalTable_length.trans_le hz)]
    exact Nat.zero_le _

/-- The index of `prim.lut` never leaves the table (R152). -/
theorem lutIndex_lt (zin : Nat) : lutIndex zin < 256 :=
  (Nat.min_le_right zin 255).trans_lt (by decide)

/-- The difference of R153 is a natural number, so RESULT1 holds it. -/
theorem trunc32_sub_recip (z : Nat) : (trunc32 (256 - (recip z : Int))).toNat = 256 - recip z := by
  have hle := recip_le z
  rw [show (256 : Int) - recip z = (256 - recip z : Nat) by omega, trunc32_toNat (by omega)]

/-- Settles O22: the entry and its complement fit in a word, and R150's formula gives them. -/
theorem primLutReadsTheReciprocalTable : Obligations.PrimLutReadsTheReciprocalTable := by
  intro s hr z a
  have hsum : recip z + a = 256 := recip_add_a2ref z (lutIndex_lt s.params.opa.toNat)
  refine ⟨trunc32 (recip z), trunc32 (256 - (recip z : Int)), exec_ready_completes hr rfl rfl, ?_, ?_⟩
  · rw [trunc32_toNat (by omega), ← hsum, Nat.add_sub_cancel]
  · rw [trunc32_sub_recip, ← hsum, Nat.add_sub_cancel_left]

/-- Settles O23: the multipliers rise because the entries fall. -/
theorem reciprocalTableFallsFrom255To0 : Obligations.ReciprocalTableFallsFrom255To0 := by
  have hfall : ∀ z, recip (z + 1) ≤ recip z := fun z => recip_antitone z.le_succ
  exact ⟨rfl, rfl, fun z _ => hfall z, fun z _ => Nat.lt_succ_of_le (recip_le z),
    fun z _ => Nat.sub_le_sub_left (hfall z) 256, rfl, rfl, reciprocalTable_length, reciprocalTable_sum⟩

end Sys2Proof.Machine
end

section
/-! SUPPORT. The box commands; settles O24 and O25. -/
namespace Sys2Proof.Machine

/-- The command sums a box of this radius (R170, R171). -/
def boxCommand (i : Instr) (r : Nat) : Prop := i = .primBox3 ∧ r = 1 ∨ i = .primBox5 ∧ r = 2

theorem boxCommand.perform_eq {i : Instr} {r : Nat} (h : boxCommand i r) (s : State) :
    perform i s = performBox i r s := by
  obtain ⟨rfl, rfl⟩ | ⟨rfl, rfl⟩ := h <;> rfl

theorem boxCommand.radius_le {i : Instr} {r : Nat} (h : boxCommand i r) : r ≤ 2 := by
  obtain ⟨-, rfl⟩ | ⟨-, rfl⟩ := h <;> decide

theorem boxCommand.sourceSpans_eq {i : Instr} {r : Nat} (h : boxCommand i r) {p : Params} {bd : BitDepth}
    (hbd : bitDepth? p.format = some bd) :
    sourceSpans i p = boxReads p bd (unitOf p) r (hi16s p.opa) (lo16s p.opa) := by
  obtain ⟨rfl, rfl⟩ | ⟨rfl, rfl⟩ := h <;> simp only [sourceSpans, hbd]

theorem pixMax_le (bd : BitDepth) : bd.pixMax ≤ 4095 := by cases bd <;> decide

theorem boxCount_le {r : Nat} (hr : r ≤ 2) : boxCount r ≤ 25 :=
  Nat.pow_le_pow_left (by omega : 2 * r + 1 ≤ 5) 2

section
variable {f : Int → Int → Nat} {bd : BitDepth} (hf : ∀ i j, f i j ≤ bd.pixMax) {r : Nat} (hr : r ≤ 2) (i j : Int)
include hf hr

/-- The sum of 25 samples of 12 bits fits in a result (R165, R170). -/
theorem boxSum_lt : boxSum f r i j < 2 ^ 32 :=
  calc boxSum f r i j ≤ boxCount r * bd.pixMax := boxSum_le f r _ hf i j
    _ ≤ 25 * 4095 := Nat.mul_le_mul (boxCount_le hr) (pixMax_le bd)
    _ < 2 ^ 32 := by decide

/-- So does the sum of their squares. -/
theorem boxSq_lt : boxSq f r i j < 2 ^ 32 :=
  calc boxSq f r i j ≤ boxCount r * bd.pixMax ^ 2 := boxSq_le f r _ hf i j
    _ ≤ 25 * 4095 ^ 2 := Nat.mul_le_mul (boxCount_le hr) (Nat.pow_le_pow_left (pixMax_le bd) 2)
    _ < 2 ^ 32 := by decide

end

/-- Settles O24: no access of the box fails, and its sums fit in the results. -/
theorem boxCommandsSumTheirWindow : Obligations.BoxCommandsSumTheirWindow := by
  intro s i r bd hi hr ha ⟨hdev, herr⟩ hbd f row col
  have hbox : boxCommand i r := hi
  have hf : ∀ i j, f i j ≤ bd.pixMax := src_le s.params bd (unitOf s.params) s.mem
  obtain ⟨hreads, -⟩ := touches_commandSpans _ _ _ _ herr
  rw [hbox.sourceSpans_eq hbd] at hreads
  refine ⟨trunc32 (boxSum f r row col), trunc32 (boxSq f r row col), exec_ready_completes hr ha ?_,
    trunc32_toNat (boxSum_lt hf hbox.radius_le row col), trunc32_toNat (boxSq_lt hf hbox.radius_le row col)⟩
  rw [hbox.perform_eq]
  exact performBox_plain i r (accepted i s) bd hbd hdev hreads rfl

/-- An accepted command with nothing scheduled that ends with an error leaves the state of R253. -/
theorem exec_ready_fails {i : Instr} {s : State} {e : ErrCode} (hr : readyFor s) (ha : acceptCheck i s.params = .none)
    (hp : perform i (accepted i s) = .next (raiseError e (accepted i s))) :
    exec i s = .next (failedWith i e s) := by
  rw [exec_ready i s hr ha, hp]
  rfl

/-- Every container of the box is one of its reads (R165). -/
theorem mem_boxReads (p : Params) (bd : BitDepth) (u : UnitRect) (i j : Int) {r y x : Nat} (hy : y ≤ 2 * r)
    (hx : x ≤ 2 * r) : ⟨srcAddr p bd u (i + y - r) (j + x - r), bd.sampleBytes⟩ ∈ boxReads p bd u r i j :=
  List.mem_flatMap.mpr ⟨y, List.mem_range.mpr (by omega), List.mem_map.mpr ⟨x, List.mem_range.mpr (by omega), rfl⟩⟩

/-- A list with a range that touches a region touches one. -/
theorem touches_of_mem {k : RegionKind} {sp : Span} {spans : List Span} {rs : List Region} (hsp : sp ∈ spans)
    (h : touches k [sp] rs = true) : touches k spans rs = true := by
  by_contra hn
  have hoff := touches_within k [sp] spans rs
    (fun a ha => ⟨a, by rwa [List.mem_singleton.mp ha], le_refl _, le_refl _⟩) (Bool.not_eq_true _ ▸ hn)
  exact Bool.false_ne_true (hoff.symm.trans h)

/-- Settles O25: the container is among the reads of the box, so the command meets its error response. -/
theorem boxBusErrorKeepsTheResults : Obligations.BoxBusErrorKeepsTheResults := by
  intro s i r bd y x hi hr ha hdev hbd hy hx herr
  have hbox : boxCommand i r := hi
  refine exec_ready_fails hr ha ?_
  rw [hbox.perform_eq]
  exact performBox_fails i r (accepted i s) bd hbd hdev (touches_of_mem (mem_boxReads _ _ _ _ _ hy hx) herr)

end Sys2Proof.Machine
end

section
/-! SUPPORT. The kernel of a tap layout, by its leading zero taps; settles O26. -/
namespace Sys2Proof.Machine

theorem sumInt_eq_sum (n : Nat) (f : Nat → Int) : sumInt n f = ∑ t ∈ Finset.range n, f t := by
  induction n with
  | zero => rfl
  | succ n ih => rw [sumInt, Finset.sum_range_succ, ih]

theorem leadingZeroTaps_eq (w : Word) : leadingZeroTaps w = w.toNat / 2 ^ 24 % 4 := by
  simp [leadingZeroTaps, BitVec.extractLsb'_toNat, Nat.shiftRight_eq_div_pow]

/-- The taps of a kernel, outermost first (R185). -/
theorem kernel_list (w : Word) : (List.range 7).map (kernel w) =
    [effectiveTap w 0, effectiveTap w 1, effectiveTap w 2,
      128 - 2 * (effectiveTap w 0 + effectiveTap w 1 + effectiveTap w 2),
      effectiveTap w 2, effectiveTap w 1, effectiveTap w 0] := rfl

/-- Settles O26: LZT says which of the three stored taps the kernel takes. -/
theorem kernelFollowsItsLeadingZeroTaps : Obligations.KernelFollowsItsLeadingZeroTaps := by
  intro w c0 c1 c2 lzt
  have hc0 : storedTap w 0 = c0 := rfl
  have hc1 : storedTap w 1 = c1 := rfl
  have hc2 : storedTap w 2 = c2 := rfl
  have hlzt : leadingZeroTaps w = lzt := leadingZeroTaps_eq w
  have h4 : lzt < 4 := Nat.mod_lt _ (by decide)
  refine ⟨?_, ?_⟩
  · rw [kernel_list]
    rcases (by omega : lzt = 0 ∨ lzt = 1 ∨ lzt = 2 ∨ lzt = 3) with h | h | h | h <;>
      simp [effectiveTap, hlzt, hc0, hc1, hc2, h]
  · calc ((List.range 7).map (kernel w)).sum = ∑ t ∈ Finset.range 7, kernel w t := rfl
      _ = sumInt 7 (kernel w) := (sumInt_eq_sum 7 _).symm
      _ = 128 := kernel_sum w

end Sys2Proof.Machine
end

section
/-! SUPPORT. How far a kernel can carry its samples: the bounds of the two passes; settles O30. -/
namespace Sys2Proof.Machine

/-- The sum of a kernel's positive taps. The bounds turn on it alone: all taps sum to 128, so it fixes the sum of the
negative ones too (R196). -/
def positiveGain (w : Word) : Int := sumInt 7 fun t => max (kernel w t) 0

theorem positiveGain_eq (w : Word) : positiveGain w =
    2 * (max (effectiveTap w 0) 0 + max (effectiveTap w 1) 0 + max (effectiveTap w 2) 0) +
      max (128 - 2 * (effectiveTap w 0 + effectiveTap w 1 + effectiveTap w 2)) 0 := by
  simp only [positiveGain, sumInt, kernel, centreTap, Config.wienerFilterBits]
  ring_nf

theorem storedTap_range (w : Word) (k : Nat) : -128 ≤ storedTap w k ∧ storedTap w k ≤ 127 := by
  have byte (b : BitVec 8) : -128 ≤ b.toInt ∧ b.toInt ≤ 127 :=
    ⟨BitVec.le_toInt b, Int.le_of_lt_add_one BitVec.toInt_lt⟩
  unfold storedTap
  split <;> exact byte _

/-- A tap that LZT forces to 0 keeps any range around 0 (R185). -/
theorem effectiveTap_range {w : Word} {k : Nat} {lo hi : Int} (h0 : lo ≤ 0 ∧ 0 ≤ hi)
    (h : lo ≤ storedTap w k ∧ storedTap w k ≤ hi) : lo ≤ effectiveTap w k ∧ effectiveTap w k ≤ hi := by
  unfold effectiveTap
  split
  · exact h0
  · exact h

theorem positiveGain_le (w : Word) : positiveGain w ≤ 896 := by
  have tap (k : Nat) := effectiveTap_range (by decide) (storedTap_range w k)
  have := tap 0
  have := tap 1
  have := tap 2
  rw [positiveGain_eq]
  omega

theorem positiveGain_contract {w : Word} (h : contractTaps w) : positiveGain w ≤ 218 := by
  have h0 : -5 ≤ effectiveTap w 0 ∧ effectiveTap w 0 ≤ 10 := effectiveTap_range (by decide) (h 0 (by decide))
  have h1 : -23 ≤ effectiveTap w 1 ∧ effectiveTap w 1 ≤ 8 := effectiveTap_range (by decide) (h 1 (by decide))
  have h2 : -17 ≤ effectiveTap w 2 ∧ effectiveTap w 2 ≤ 46 := effectiveTap_range (by decide) (h 2 (by decide))
  rw [positiveGain_eq]
  omega

/-- Samples in [lo, hi]: with lo taken from every sample, or every sample from hi, what is left lies in [0, hi - lo], and of
that the positive taps weigh at most g times hi - lo (R196). -/
theorem kernel_sum_bounds {w : Word} {g lo hi : Int} (hg : positiveGain w ≤ g) (x : Nat → Int)
    (hx : ∀ t, lo ≤ x t ∧ x t ≤ hi) :
    128 * hi - g * (hi - lo) ≤ (sumInt 7 fun t => kernel w t * x t) ∧
      (sumInt 7 fun t => kernel w t * x t) ≤ 128 * lo + g * (hi - lo) := by
  have hlh : 0 ≤ hi - lo := by have := hx 0; omega
  have gain (y : Nat → Int) (hy : ∀ t, 0 ≤ y t ∧ y t ≤ hi - lo) :
      ∑ t ∈ Finset.range 7, kernel w t * y t ≤ g * (hi - lo) :=
    calc ∑ t ∈ Finset.range 7, kernel w t * y t
        ≤ ∑ t ∈ Finset.range 7, max (kernel w t) 0 * (hi - lo) := Finset.sum_le_sum fun t _ =>
          mul_le_mul (le_max_left _ _) (hy t).2 (hy t).1 (le_max_right _ _)
      _ = positiveGain w * (hi - lo) := by rw [← Finset.sum_mul, positiveGain, sumInt_eq_sum]
      _ ≤ g * (hi - lo) := mul_le_mul_of_nonneg_right hg hlh
  have shift (c : Int) : ∑ t ∈ Finset.range 7, kernel w t * c = 128 * c := by
    rw [← Finset.sum_mul, ← sumInt_eq_sum, kernel_sum]
  have above := gain (fun t => x t - lo) fun t => by have := hx t; omega
  have below := gain (fun t => hi - x t) fun t => by have := hx t; omega
  simp only [mul_sub, Finset.sum_sub_distrib, shift] at above below
  rw [sumInt_eq_sum]
  constructor <;> linarith

/-! ### The rounding parameters (R188, R189) -/

theorem roundH_eq (bd : BitDepth) : bd.roundH = if bd = .bd12 then 5 else 3 := by cases bd <;> rfl

theorem roundV_eq (bd : BitDepth) : bd.roundV = if bd = .bd12 then 9 else 11 := by cases bd <;> rfl

theorem pixMax_cast (bd : BitDepth) : (bd.pixMax : Int) = 2 ^ bd.bits - 1 := by cases bd <;> rfl

/-- The range of the intermediate at its widest, at BD 10 and 12 (R189). -/
theorem wienerOffset_range (bd : BitDepth) :
    0 ≤ wienerOffset bd ∧ wienerOffset bd ≤ 8192 ∧ wienerLimit bd - wienerOffset bd ≤ 24575 := by
  cases bd <;> decide

/-- Settles O30: both passes are weighted sums of samples in a range, and no kernel's positive taps sum to more than 896,
or 218 by contract. -/
theorem wienerDatapathStaysInItsBounds : Obligations.WienerDatapathStaysInItsBounds := by
  intro bd wh wv f hf rh offset limit
  have hrh : rh = bd.roundH := (roundH_eq bd).symm
  have hoffset : offset = wienerOffset bd := by rw [wienerOffset, ← hrh]; rfl
  have hlimit : limit = wienerLimit bd := by rw [wienerLimit, ← hrh]; rfl
  rw [hoffset, hlimit]
  obtain ⟨hpos, hoff, hlim⟩ := wienerOffset_range bd
  have horizontal {g : Int} (hg : positiveGain wh ≤ g) (i c : Int) := kernel_sum_bounds (lo := 0) (hi := bd.pixMax) hg
    (fun t => (f i (c + t - 3) : Int)) fun t => ⟨Int.natCast_nonneg _, Int.ofNat_le.mpr (hf _ _)⟩
  have vertical {g : Int} (hg : positiveGain wv ≤ g) (i c : Int) := kernel_sum_bounds hg
    (fun t => wienerInter bd wh f (i + t - 3) c) fun t => wienerInter_range bd wh f _ c
  refine ⟨fun i c => ?_, fun hcon i c => ?_, wienerInter_range bd wh f, by omega, fun i c => ⟨?_, fun hcon => ?_⟩⟩
  · have := horizontal (positiveGain_le wh) i c
    unfold wienerHSum
    omega
  · have := horizontal (positiveGain_contract hcon) i c
    unfold wienerHSum
    omega
  · have := vertical (positiveGain_le wv) i c
    omega
  · have := vertical (positiveGain_contract hcon) i c
    omega

end Sys2Proof.Machine
end

section
/-! SUPPORT. What an accepted Wiener unit writes on plain memory; settles O28, O31 and O32. -/
namespace Sys2Proof.Machine

/-- Settles O28: the unit leaves the two-pass samples of `wienerDirect`, written here with the rounding parameters of each
bit depth spelled out. -/
theorem wienerUnitWritesTheTwoPassSamples : Obligations.WienerUnitWritesTheTwoPassSamples := by
  intro s bd hw hr ha hp hal hbd hk u rh rv offset limit inter
  have hrh : rh = bd.roundH := (roundH_eq bd).symm
  have hrv : rv = bd.roundV := (roundV_eq bd).symm
  have hinter (i c : Int) : inter i c = wienerInter bd s.params.wienerH (src s.params bd u s.mem) i c := by
    simp only [inter, offset, limit, hrh]
    rfl
  obtain ⟨t, ht, hfields, -, hsamples, hout⟩ := runUnit_plain s bd .wiener hw hr ha hp hal hbd hk
  refine ⟨t, ht, hfields, fun i c hi hc => ?_, hout⟩
  rw [hsamples i c hi hc]
  simp only [hinter, hrv, ← pixMax_cast]
  rfl

/-! ### Unity gain (R195, R197) -/

/-- The clamp does not reach a sample scaled by what the horizontal rounding leaves of the gain (R195). -/
theorem unitySample_in_clamp {bd : BitDepth} {x : Nat} (hx : x ≤ bd.pixMax) :
    -wienerOffset bd ≤ x * 2 ^ (7 - bd.roundH) ∧
      (x : Int) * 2 ^ (7 - bd.roundH) ≤ wienerLimit bd - wienerOffset bd := by
  have hoffset : -wienerOffset bd ≤ 0 := by cases bd <;> decide
  have hlimit : (bd.pixMax : Int) * 2 ^ (7 - bd.roundH) ≤ wienerLimit bd - wienerOffset bd := by cases bd <;> decide
  exact ⟨hoffset.trans (by positivity),
    (mul_le_mul_of_nonneg_right (Int.ofNat_le.mpr hx) (by positivity)).trans hlimit⟩

/-- A horizontal sum of 128 times a sample rounds to the scaled sample exactly (R195). -/
theorem wienerInter_unity {bd : BitDepth} {wh : Word} {f : Int → Int → Nat} {r c : Int} {x : Nat} (hx : x ≤ bd.pixMax)
    (h : wienerHSum wh f r c = 128 * x) : wienerInter bd wh f r c = x * 2 ^ (7 - bd.roundH) := by
  have hgain : (2 : Int) ^ (7 - bd.roundH) * 2 ^ bd.roundH = 128 := by cases bd <;> rfl
  obtain ⟨hlow, hhigh⟩ := unitySample_in_clamp hx
  rw [wienerInter, h, mul_comm, ← hgain, ← mul_assoc, rsr_mul_pow, clip3_of_mem _ _ _ hlow hhigh]

/-- A vertical sum of 128 times a scaled sample rounds back to the sample (R195). -/
theorem wienerDirect_unity {bd : BitDepth} {wh wv : Word} {f : Int → Int → Nat} {i c x : Nat} (hx : x ≤ bd.pixMax)
    (h : (sumInt 7 fun t => kernel wv t * wienerInter bd wh f ((i : Int) + t - 3) c) =
      128 * (x * 2 ^ (7 - bd.roundH))) : wienerDirect bd wh wv f i c = x := by
  have hgain : (2 : Int) ^ (7 - bd.roundH) * 128 = 2 ^ bd.roundV := by cases bd <;> rfl
  rw [wienerDirect, h, mul_comm, mul_assoc, hgain, rsr_mul_pow]
  exact clip3_of_mem _ _ _ (Int.natCast_nonneg _) (Int.ofNat_le.mpr hx)

/-- An accepted Wiener unit on plain memory whose two-pass values are `g` leaves them (R193). -/
theorem wienerUnit_leaves {s : State} {bd : BitDepth} {g : Nat → Nat → Nat} (hw : s.mem.wf) (hr : readyFor s)
    (ha : acceptCheck .runUnit s.params = .none) (hp : onPlainMemory .runUnit s)
    (hal : aliased .runUnit s.params = false) (hbd : bitDepth? s.params.format = some bd)
    (hk : filterKind? s.params.unitKind = some .wiener)
    (hg : ∀ i j, i < (unitOf s.params).h → j < (unitOf s.params).w → wienerDirect bd s.params.wienerH s.params.wienerV
      (src s.params bd (unitOf s.params) s.mem) i j = g i j) :
    ∃ t, exec .runUnit s = .next t ∧ t.err = false ∧ ∀ i j, i < (unitOf s.params).h → j < (unitOf s.params).w →
      t.mem.readLE (dstAddr s.params bd (unitOf s.params) i j) bd.sampleBytes = g i j := by
  obtain ⟨t, ht, hfields, -, hsamples, -⟩ := runUnit_plain s bd .wiener hw hr ha hp hal hbd hk
  refine ⟨t, ht, by rw [hfields]; rfl, fun i j hi hj => ?_⟩
  have hsample := (hsamples i j hi hj).trans (hg i j hi hj)
  exact_mod_cast hsample

/-! ### Flat windows (R195) -/

/-- A kernel over equal samples has unity gain. -/
theorem kernel_sum_const {w : Word} {x : Nat → Int} {v : Int} (h : ∀ t < 7, x t = v) :
    (sumInt 7 fun t => kernel w t * x t) = 128 * v := by
  rw [sumInt_congr 7 _ (fun t => kernel w t * v) fun t ht => by rw [h t ht], sumInt_mul_const, kernel_sum]

/-- Settles O31: a flat window stays flat in both passes. -/
theorem wienerKeepsFlatPlanes : Obligations.WienerKeepsFlatPlanes := by
  intro s bd v hw hr ha hp hal hbd hk hflat
  refine wienerUnit_leaves hw hr ha hp hal hbd hk fun i j hi hj => ?_
  have hv : v ≤ bd.pixMax := by
    rw [← hflat 0 0 (by omega) (by omega)]
    exact src_le _ _ _ _ _ _
  refine wienerDirect_unity hv (kernel_sum_const fun t ht => wienerInter_unity hv (kernel_sum_const fun t' ht' => ?_))
  rw [hflat _ _ (by omega) (by omega)]

/-! ### Identity taps (R197) -/

/-- The taps 0, 0, 0 or LZT = 3 (R197). -/
def identityTaps (w : Word) : Prop := w.toNat % 2 ^ 24 = 0 ∨ w.toNat / 2 ^ 24 % 4 = 3

theorem storedTap_of_low_zero {w : Word} (h : w.toNat % 2 ^ 24 = 0) (k : Nat) : storedTap w k = 0 := by
  have field {d : Nat} (hd : d + 8 ≤ 24) : w.extractLsb' d 8 = 0#8 := by
    have hdvd : 2 ^ d * 2 ^ 8 ∣ w.toNat := pow_add 2 d 8 ▸ (pow_dvd_pow 2 hd).trans (Nat.dvd_of_mod_eq_zero h)
    refine BitVec.eq_of_toNat_eq ?_
    rw [BitVec.extractLsb'_toNat, Nat.shiftRight_eq_div_pow]
    exact Nat.mod_eq_zero_of_dvd (Nat.dvd_div_of_mul_dvd hdvd)
  unfold storedTap
  split <;> rw [field (by decide)] <;> rfl

theorem effectiveTap_identity {w : Word} (h : identityTaps w) {k : Nat} (hk : k < 3) : effectiveTap w k = 0 := by
  unfold effectiveTap
  split
  · rfl
  · rename_i hstored
    rw [leadingZeroTaps_eq] at hstored
    exact storedTap_of_low_zero (h.resolve_right (by omega)) k

/-- A kernel of such taps weighs its centre sample alone. -/
theorem kernel_sum_identity {w : Word} (h : identityTaps w) (x : Nat → Int) :
    (sumInt 7 fun t => kernel w t * x t) = 128 * x 3 := by
  have tap {k : Nat} (hk : k < 3) := effectiveTap_identity h hk
  simp [sumInt, kernel, centreTap, tap, Config.wienerFilterBits]

/-- Settles O32: each pass weighs its centre sample alone, with unity gain. -/
theorem identityTapsCopyTheUnit : Obligations.IdentityTapsCopyTheUnit := by
  intro s bd hw hr ha hp hal hbd hk htaps
  have hH : identityTaps s.params.wienerH := htaps _ (by simp)
  have hV : identityTaps s.params.wienerV := htaps _ (by simp)
  refine wienerUnit_leaves hw hr ha hp hal hbd hk fun i j hi hj => ?_
  have hx := src_le s.params bd (unitOf s.params) s.mem i j
  refine wienerDirect_unity hx ?_
  rw [kernel_sum_identity hV, show (i : Int) + (3 : Nat) - 3 = i by omega, wienerInter_unity hx]
  rw [wienerHSum, kernel_sum_identity hH, show (j : Int) + (3 : Nat) - 3 = j by omega]

end Sys2Proof.Machine
end

section
/-! SUPPORT. What a run.unit that ends without an error holds, whatever its filter; settles O42. -/
namespace Sys2Proof.Machine

theorem finish_noError {r : Option ErrCode × State} (h : (finish r).err = false) : r.1 = none := by
  obtain ⟨e, m⟩ := r
  cases e with
  | none => rfl
  | some e => cases h

/-- The end of an accepted run.unit with no aliasing is that of its unit (R193, R232, R256). -/
theorem exec_runUnit_end {s t : State} {bd : BitDepth} {kind : FilterKind} (hr : readyFor s)
    (ha : acceptCheck .runUnit s.params = .none) (hal : aliased .runUnit s.params = false)
    (hbd : bitDepth? s.params.format = some bd) (hk : filterKind? s.params.unitKind = some kind)
    (h : exec .runUnit s = .next t) :
    t = finish (filterUnit (snapshotRecord s.params kind) s.params bd (unitOf s.params) false false
      (accepted .runUnit s)) := by
  rw [exec_ready _ _ hr ha] at h
  simp only [perform, performRunUnit, accepted_snap, hbd, hk, hal] at h
  cases onOrdinaryMemory_next _ _ _ _ h
  rw [spoil_clear _ _ _ _ (by rfl)]

/-- Settles O42: with no error the container holds the sample of its filter's rule, which is in the range. -/
theorem unitOutputLiesInThePixelRange : Obligations.UnitOutputLiesInThePixelRange := by
  intro s t bd i j hw hr ha hal hbd h herr hi hj
  obtain ⟨bd', kind, hbd', hk, hu, -, hd⟩ := accepted_runUnit _ ha
  cases hbd.symm.trans hbd'
  have hend := exec_runUnit_end hr ha hal hbd hk h
  have hnone := finish_noError (hend ▸ herr)
  have hrange := sampleDirect_range (snapshotRecord s.params kind) bd _ (src_le s.params bd (unitOf s.params) s.mem)
    (unitOf s.params).y0 i j
  have hsample := (filterUnit_contents (snapshotRecord s.params kind) s.params bd (unitOf s.params) false
    (accepted .runUnit s) hw hd hu i j hi hj).resolve_right fun ⟨he, _⟩ => by cases hnone.symm.trans he
  rw [hend, finish_mem]
  exact Int.ofNat_le.mp (hsample.trans_le hrange.2)

end Sys2Proof.Machine
end

section
/-! SUPPORT. A run.unit looks at the Wiener layouts only through their kernels; settles O27. -/
namespace Sys2Proof.Machine

/-- The effective taps fix the kernel (R185). -/
theorem kernel_congr {w w' : Word} (h : ∀ k < 3, effectiveTap w k = effectiveTap w' k) : kernel w = kernel w' := by
  have h0 := h 0 (by decide)
  have h1 := h 1 (by decide)
  have h2 := h 2 (by decide)
  funext t
  unfold kernel centreTap
  rw [h0, h1, h2]

/-- Two records that differ at most in Wiener layouts, whose kernels are the same. -/
structure SameKernels (rec rec' : UnitRecord) : Prop where
  fields : rec' = { rec with wienerH := rec'.wienerH, wienerV := rec'.wienerV }
  horizontal : kernel rec'.wienerH = kernel rec.wienerH
  vertical : kernel rec'.wienerV = kernel rec.wienerV

theorem wiBuffer_congr {w w' : Word} (h : kernel w' = kernel w) (bd : BitDepth) : wiBuffer bd w' = wiBuffer bd w := by
  unfold wiBuffer wiRow wienerInter wienerHSum
  rw [h]

theorem wienerSample_congr {w w' : Word} (h : kernel w' = kernel w) (bd : BitDepth) :
    wienerSample bd w' = wienerSample bd w := by
  unfold wienerSample wienerVSum
  rw [h]

section
variable {rec rec' : UnitRecord} (h : SameKernels rec rec')
include h

theorem SameKernels.unitResult_eq : unitResult rec' = unitResult rec := by
  funext bd u f sc
  rw [h.fields]
  unfold unitResult
  simp only [wiBuffer_congr h.horizontal, wienerSample_congr h.vertical]

theorem SameKernels.unitReads_eq : unitReads rec' = unitReads rec := by
  funext u
  rw [h.fields]
  unfold unitReads wienerReads
  simp only [h.horizontal, h.vertical]

end

/-- The parameters with other Wiener layouts. -/
def retapped (wh wv : Word) (p : Params) : Params := { p with wienerH := wh, wienerV := wv }

/-- The state with other Wiener layouts in the registers and in S. -/
def retap (wh wv : Word) (s : State) : State :=
  { s with params := retapped wh wv s.params, snap := { s.snap with regs := retapped wh wv s.snap.regs } }

/-- The state with other Wiener layouts in the registers alone. -/
def withTaps (wh wv : Word) (s : State) : State := { s with params := retapped wh wv s.params }

theorem takeSnapshot_withTaps (wh wv word : Word) (s : State) :
    takeSnapshot word (withTaps wh wv s) = retap wh wv (takeSnapshot word s) := rfl

theorem accepted_withTaps (wh wv : Word) (i : Instr) (s : State) :
    accepted i (withTaps wh wv s) = retap wh wv (accepted i s) := rfl

theorem acceptCheck_withTaps (wh wv : Word) (s : State) :
    acceptCheck .runUnit (withTaps wh wv s).params = acceptCheck .runUnit s.params := rfl

/-- The layouts have the kernels of those in the parameters. -/
def keepsKernels (wh wv : Word) (p : Params) : Prop := kernel wh = kernel p.wienerH ∧ kernel wv = kernel p.wienerV

theorem keepsKernels.snapshotRecord {wh wv : Word} {p : Params} (h : keepsKernels wh wv p) (kind : FilterKind) :
    SameKernels (snapshotRecord p kind) (snapshotRecord (retapped wh wv p) kind) := ⟨rfl, h.1, h.2⟩

theorem filterUnit_retap {rec rec' : UnitRecord} (h : SameKernels rec rec') (wh wv : Word) (p : Params)
    (bd : BitDepth) (u : UnitRect) (loose failed : Bool) (s : State) :
    filterUnit rec' (retapped wh wv p) bd u loose failed (retap wh wv s) =
      ((filterUnit rec p bd u loose failed s).1, retap wh wv (filterUnit rec p bd u loose failed s).2) := by
  have hkind : rec'.kind = rec.kind := by rw [h.fields]
  simp only [filterUnit, unitFails, unitWrites, unitDraws, requiredSpans, h.unitResult_eq, h.unitReads_eq, hkind]
  rfl

theorem spoil_retap (wh wv : Word) (p : Params) (bd : BitDepth) (s : State) :
    spoil .runUnit (retapped wh wv p) bd (retap wh wv s) = retap wh wv (spoil .runUnit p bd s) := by
  unfold spoil
  rw [show (retap wh wv s).taint = s.taint from rfl]
  split <;> rfl

theorem finish_retap (wh wv : Word) (e : Option ErrCode) (s : State) :
    finish (e, retap wh wv s) = retap wh wv (finish (e, s)) := by cases e <;> rfl

theorem onOrdinaryMemory_retap (wh wv : Word) {s t u : State} (h : onOrdinaryMemory .runUnit s (.next t) = .next u) :
    onOrdinaryMemory .runUnit (retap wh wv s) (.next (retap wh wv t)) = .next (retap wh wv u) := by
  cases onOrdinaryMemory_next _ _ _ _ h
  unfold onOrdinaryMemory at h
  split at h
  · cases h
  · rename_i hdev
    exact if_neg hdev

/-- A running run.unit ends alike with other layouts of the same kernels. -/
theorem performRunUnit_retap {wh wv : Word} {s t : State} (h : keepsKernels wh wv s.snap.regs)
    (ht : performRunUnit s = .next t) : performRunUnit (retap wh wv s) = .next (retap wh wv t) := by
  have hformat : (retap wh wv s).snap.regs.format = s.snap.regs.format := rfl
  have hkind : (retap wh wv s).snap.regs.unitKind = s.snap.regs.unitKind := rfl
  unfold performRunUnit at ht ⊢
  simp only [hformat, hkind] at ht ⊢
  split at ht
  · cases ht
    rfl
  · rename_i bd hbd
    split at ht
    · cases ht
      rfl
    · rename_i kind hk
      have hunit := filterUnit_retap (h.snapshotRecord kind) wh wv s.snap.regs bd (unitOf s.snap.regs)
        (aliased .runUnit s.snap.regs) false s
      rw [← onOrdinaryMemory_retap wh wv ht, ← finish_retap, ← spoil_retap]
      exact congrArg (fun r => onOrdinaryMemory .runUnit (retap wh wv s)
        (.next (finish (r.1, spoil .runUnit (retapped wh wv s.snap.regs) bd r.2)))) hunit

/-- While IDLE a command that fails a check is rejected (R250, R281). -/
theorem exec_rejected {i : Instr} {s : State} (hidle : s.fsm = .idle) (ha : acceptCheck i s.params ≠ .none) :
    exec i s = .next (raiseError (acceptCheck i s.params) (takeSnapshot (encode i) s)) := by
  rcases exec_cases i s with ⟨c, hbusy, -⟩ | ⟨-, -, h⟩ | ⟨-, hnone, -⟩ | ⟨-, hnone, -⟩
  · cases hidle.symm.trans hbusy
  · exact h
  · exact absurd hnone ha
  · exact absurd hnone ha

/-- Settles O27: the two settings have the same kernels, and neither acceptance nor the unit looks at more of them. -/
theorem zeroedTapsDoNotMatter : Obligations.ZeroedTapsDoNotMatter := by
  intro s wh wv t hr hh hv ht
  have hr' : readyFor (withTaps wh wv s) := hr
  have hcheck := acceptCheck_withTaps wh wv s
  refine ⟨retap wh wv t, ?_, rfl, rfl, rfl, rfl⟩
  show exec .runUnit (withTaps wh wv s) = _
  by_cases ha : acceptCheck .runUnit s.params = .none
  · rw [exec_ready _ _ hr ha] at ht
    have hkeeps : keepsKernels wh wv (accepted .runUnit s).snap.regs := ⟨kernel_congr hh, kernel_congr hv⟩
    rw [exec_ready _ _ hr' (hcheck.trans ha), accepted_withTaps]
    exact performRunUnit_retap hkeeps ht
  · rw [exec_rejected hr.1 ha] at ht
    cases ht
    rw [exec_rejected hr'.1 (ne_of_eq_of_ne hcheck ha), hcheck, takeSnapshot_withTaps]
    rfl

end Sys2Proof.Machine
end

section
/-! SUPPORT. The preset table and the SGR statistic, as a command and over real boxes; settles O33, O34 and O35. -/
namespace Sys2Proof.Machine

/-- Settles O33: the 16 rows of R215, each against its eps columns. -/
theorem presetTableFollowsItsFormula : Obligations.PresetTableFollowsItsFormula := by
  unfold Obligations.PresetTableFollowsItsFormula
  decide

/-! ### `prim.sgrab` (R218, R233) -/

theorem presetIndex_eq (w : Word) : presetIndex w = w.toNat % 16 := by
  simp [presetIndex, BitVec.extractLsb'_toNat]

/-- n of a pass (R217, R218). -/
theorem boxCount_passRadius (pass : Pass) : boxCount (passRadius pass) = if pass = .p0 then 25 else 9 := by
  cases pass <;> rfl

/-- `one_over_n` of a pass (R217). -/
theorem oneOver_passRadius (pass : Pass) :
    oneOver (boxCount (passRadius pass)) = if pass = .p0 then 164 else 455 := by
  cases pass <;> rfl

/-- `prim.sgrab` of an enabled pass is accepted at every bit depth (R281). -/
theorem acceptCheck_primSgrab {p : Params} {pass : Pass} {bd : BitDepth} (hbd : bitDepth? p.format = some bd)
    (hr : (presetOf (presetIndex p.sgrPreset)).radius pass ≠ 0) : acceptCheck (.primSgrab pass) p = .none := by
  simp [acceptCheck, kindOK, geometryOK, alignOK, passOK, hbd, hr]

theorem performPrimSgrab_eq {s : State} {pass : Pass} {bd : BitDepth} (hbd : bitDepth? s.snap.regs.format = some bd) :
    performPrimSgrab pass s =
      let ab := sgrAB s.snap.regs.opa.toNat s.snap.regs.opb.toNat (passRadius pass)
        ((presetOf (presetIndex s.snap.regs.sgrPreset)).scale pass) bd
      .next (completeWith (trunc32 ab.1) (trunc32 ab.2) s) := by
  simp only [performPrimSgrab, hbd]

/-- Settles O34: the two results are the words of `sgrAB`, whose multiplier 256 - t fits in one. -/
theorem primSgrabWritesTheStatistic : Obligations.PrimSgrabWritesTheStatistic := by
  intro s pass bd hr hbd hpass sum sumsq n overN scale a d t
  have ht : t = sgrT sum sumsq (passRadius pass) scale bd := by
    simp only [sgrT, sgrIndex, sgrVariance, boxCount_passRadius]
    rfl
  have hb2 : rsr ((t : Int) * sum * overN) 12 = sgrOffset t sum (passRadius pass) := by
    rw [sgrOffset, oneOver_passRadius]
  have hle : t ≤ 255 := recip_le _
  have hr0 : (trunc32 (256 - (t : Int))).toNat = 256 - t := trunc32_sub_recip _
  rw [← presetIndex_eq] at hpass
  refine ⟨trunc32 (256 - (t : Int)), exec_ready_completes hr (acceptCheck_primSgrab hbd hpass) ?_, by omega, by omega,
    by omega⟩
  show performPrimSgrab pass _ = _
  rw [performPrimSgrab_eq hbd, hb2, ht]
  simp only [accepted_snap, presetIndex_eq]
  rfl

/-! ### The statistics of real boxes (R222, R236) -/

theorem sgrAB_fst_range (sum sumsq r scale : Nat) (bd : BitDepth) :
    1 ≤ (sgrAB sum sumsq r scale bd).1 ∧ (sgrAB sum sumsq r scale bd).1 ≤ 256 := by
  have hT := sgrT_le sum sumsq r scale bd
  simp only [sgrAB]
  omega

/-- b2 rises with t and with the sum (R222). -/
theorem sgrOffset_mono {t t' sum sum' : Nat} (ht : t ≤ t') (hs : sum ≤ sum') (r : Nat) :
    sgrOffset t sum r ≤ sgrOffset t' sum' r := by
  refine rsr_mono _ _ _ ?_
  exact_mod_cast Nat.mul_le_mul_right _ (Nat.mul_le_mul ht hs)

theorem sgrOffset_nonneg (t sum r : Nat) : 0 ≤ sgrOffset t sum r := rsr_nonneg _ _ (by positivity)

/-- Settles O35: b2 is largest at t = 255 and the largest sum, where each pass and bit depth gives one number. -/
theorem statisticsOfRealBoxesFit : Obligations.StatisticsOfRealBoxesFit := by
  intro pass bd sum sumsq scale hsum ab
  refine ⟨sgrAB_fst_range _ _ _ _ _, sgrOffset_nonneg _ _ _,
    (sgrOffset_mono (sgrT_le sum sumsq (passRadius pass) scale bd) hsum _).trans ?_⟩
  cases pass <;> cases bd <;> decide

end Sys2Proof.Machine
end

section
/-! SUPPORT. A pass over equal statistics: high variance and flat boxes; settles O39 and O40. -/
namespace Sys2Proof.Machine

/-! ### Combinations and pass outputs over equal entries (R223 to R225) -/

/-- A weighted sum of equal values. -/
theorem sumInt_weighted_const {n : Nat} {x : Int} (w : Nat → Int) {g : Nat → Int} (h : ∀ t < n, g t = x) :
    (sumInt n fun t => w t * g t) = sumInt n w * x := by
  rw [sumInt_congr n _ (fun t => w t * x) fun t ht => by rw [h t ht], sumInt_mul_const]

/-- The weights of pass 0 add to 2^shift0 in both parities (R223). -/
theorem combine0_const {g : Nat → Nat → Int} {odd : Bool} {i j : Nat} {x : Int}
    (h : ∀ k c, (if odd then k = i + 1 else k = i ∨ k = i + 2) → (j ≤ c ∧ c ≤ j + 2) → g k c = x) :
    combine0 g odd i j = x * 2 ^ shift0 odd := by
  have row (k : Nat) (hk : if odd then k = i + 1 else k = i ∨ k = i + 2) :
      (sumInt 3 fun t => weight565 t * g k (j + t)) = 16 * x :=
    sumInt_weighted_const weight565 fun t ht => h k (j + t) hk (by omega)
  unfold combine0
  cases odd with
  | true =>
    rw [if_pos rfl, row (i + 1) (by simp), mul_comm]
    rfl
  | false =>
    rw [if_neg (by decide), row i (by simp), row (i + 2) (by simp), ← two_mul, ← mul_assoc, mul_comm]
    rfl

/-- The weights of pass 1 add to 2^shift1 (R224). -/
theorem combine1_const {g : Nat → Nat → Int} {i j : Nat} {x : Int}
    (h : ∀ k c, (i ≤ k ∧ k ≤ i + 2) → (j ≤ c ∧ c ≤ j + 2) → g k c = x) : combine1 g i j = x * 2 ^ shift1 := by
  have row (y : Nat) (hy : y < 3) :
      (sumInt 3 fun t => weight343 y t * g (i + y) (j + t)) = sumInt 3 (weight343 y) * x :=
    sumInt_weighted_const _ fun t ht => h (i + y) (j + t) (by omega) (by omega)
  rw [combine1, sumInt_congr 3 _ _ row, sumInt_mul_const, mul_comm]
  rfl

/-- A power of two in the operand shortens the shift. -/
theorem rsr_mul_pow_add (x : Int) (b : Nat) {n : Nat} (hn : 1 ≤ n) : rsr (x * 2 ^ b) (b + n) = rsr x n := by
  rw [rsr_pos _ _ (by omega), rsr_pos _ _ hn, show b + n - 1 = (n - 1) + b by omega, pow_add, ← add_mul, add_comm b n,
    pow_add]
  exact Int.mul_ediv_mul_of_pos_left _ _ (by positivity)

/-- Over equal entries a pass scales its sample by the multiplier, adds the offset and keeps 4 bits (R225). -/
theorem passOutput_const (a b : Int) (sample shift : Nat) :
    passOutput (a * 2 ^ shift) (b * 2 ^ shift) sample shift = rsr (a * sample + b) 4 := by
  have hshift : 8 + shift - Config.sgrRstBits = shift + 4 := by
    unfold Config.sgrRstBits
    omega
  rw [passOutput, hshift, ← rsr_mul_pow_add (a * sample + b) shift (by decide : 1 ≤ 4)]
  congr 1
  ring

/-! ### High variance (R235) -/

/-- A multiplier of 256 leaves t = 0, and so no offset (R153, R222). -/
theorem bDirect_of_aDirect_256 {r scale : Nat} {bd : BitDepth} {f : Int → Int → Nat} {k c : Nat}
    (h : aDirect r scale bd f k c = 256) : bDirect r scale bd f k c = 0 := by
  simp only [aDirect, bDirect, sgrAB] at h ⊢
  rw [show sgrT _ _ r scale bd = 0 by omega]
  simp [sgrOffset, rsr]

/-- Over multipliers of 256 the 4 bits kept are those of R226. -/
theorem passOutput_256 (sample shift : Nat) : passOutput (256 * 2 ^ shift) (0 * 2 ^ shift) sample shift = 16 * sample := by
  rw [passOutput_const, show (256 : Int) * sample + 0 = 16 * sample * 2 ^ 4 by ring, rsr_mul_pow]

/-- Settles O40. -/
theorem highVariancePassesReturnTheSample : Obligations.HighVariancePassesReturnTheSample := by
  intro bd f scale sample i j odd
  refine ⟨fun h => ?_, fun h => ?_⟩
  · rw [combine0_const h, combine0_const fun k c hk hc => bDirect_of_aDirect_256 (h k c hk hc), passOutput_256]
  · rw [combine1_const h, combine1_const fun k c hk hc => bDirect_of_aDirect_256 (h k c hk hc), passOutput_256]

/-! ### Flat boxes (R227) -/

/-- Every sample of the box of radius r around (i, j) is v (R165). -/
def flatBox (f : Int → Int → Nat) (r v : Nat) (i j : Int) : Prop :=
  ∀ y x : Nat, y ≤ 2 * r → x ≤ 2 * r → f (i + y - r) (j + x - r) = v

section
variable {f : Int → Int → Nat} {r v : Nat}

theorem boxSum_flat {i j : Int} (h : flatBox f r v i j) : boxSum f r i j = boxCount r * v := by
  have hrow : ∀ y < 2 * r + 1, (sumNat (2 * r + 1) fun x => f (i + y - r) (j + x - r)) = (2 * r + 1) * v :=
    fun y hy => (sumNat_congr _ _ _ fun x hx => h y x (by omega) (by omega)).trans (sumNat_const _ _)
  rw [boxSum, sumNat_congr _ _ _ hrow, sumNat_const, boxCount]
  ring

theorem boxSq_flat {i j : Int} (h : flatBox f r v i j) : boxSq f r i j = boxCount r * v ^ 2 :=
  boxSum_flat (f := fun i j => f i j ^ 2) fun y x hy hx => congrArg (· ^ 2) (h y x hy hx)

/-- At BD 8 the variance of equal samples is 0, so the table entry is T[0] (R219, R220). -/
theorem sgrT_flat (r v scale : Nat) : sgrT (boxCount r * v) (boxCount r * v ^ 2) r scale .bd8 = 255 := by
  have hvar : sgrVariance (boxCount r * v) (boxCount r * v ^ 2) r .bd8 = 0 := by
    simp only [sgrVariance, BitDepth.bits, Nat.sub_self, Nat.mul_zero, rsr_zero]
    push_cast
    ring_nf
    rfl
  rw [sgrT, sgrIndex, hvar, zero_mul]
  rfl

variable {k c : Nat} (h : flatBox f r v ((k : Int) - 1) ((c : Int) - 1)) (scale : Nat)
include h

theorem aDirect_flat : aDirect r scale .bd8 f k c = 1 := by
  rw [aDirect, boxSum_flat h, boxSq_flat h, sgrAB, sgrT_flat]
  rfl

theorem bDirect_flat : bDirect r scale .bd8 f k c = sgrOffset 255 (boxCount r * v) r := by
  rw [bDirect, boxSum_flat h, boxSq_flat h, sgrAB, sgrT_flat]

end

section
variable {f : Int → Int → Nat} {v i j : Nat} (hv : v ≤ 255) (scale : Nat)
include hv

/-- Pass 0 over flat boxes (R227): 164 / 4096 rounds 1 / 25 up. -/
theorem flatPass0_near (odd : Bool)
    (h : ∀ k c : Nat, (i ≤ k ∧ k ≤ i + 2) → (j ≤ c ∧ c ≤ j + 2) → flatBox f 2 v ((k : Int) - 1) ((c : Int) - 1)) :
    let f0 := passOutput (combine0 (aDirect 2 scale .bd8 f) odd i j) (combine0 (bDirect 2 scale .bd8 f) odd i j) v
      (shift0 odd)
    16 * (v : Int) ≤ f0 ∧ f0 ≤ 16 * v + 4 := by
  have hrows {k : Nat} (hk : if odd then k = i + 1 else k = i ∨ k = i + 2) : i ≤ k ∧ k ≤ i + 2 := by
    split at hk <;> omega
  rw [combine0_const fun k c hk hc => aDirect_flat (h k c (hrows hk) hc) scale,
    combine0_const fun k c hk hc => bDirect_flat (h k c (hrows hk) hc) scale, passOutput_const]
  have hcount : boxCount 2 = 25 := rfl
  have hover : oneOver 25 = 164 := rfl
  simp only [sgrOffset, hcount, hover, rsr_pos _ 12 (by decide), rsr_pos _ 4 (by decide)]
  omega

/-- Pass 1 over flat boxes (R227): 455 / 4096 rounds 1 / 9 down. -/
theorem flatPass1_near
    (h : ∀ k c : Nat, (i ≤ k ∧ k ≤ i + 2) → (j ≤ c ∧ c ≤ j + 2) → flatBox f 1 v ((k : Int) - 1) ((c : Int) - 1)) :
    let f1 := passOutput (combine1 (aDirect 1 scale .bd8 f) i j) (combine1 (bDirect 1 scale .bd8 f) i j) v shift1
    16 * (v : Int) - 1 ≤ f1 ∧ f1 ≤ 16 * v := by
  rw [combine1_const fun k c hk hc => aDirect_flat (h k c hk hc) scale,
    combine1_const fun k c hk hc => bDirect_flat (h k c hk hc) scale, passOutput_const]
  have hcount : boxCount 1 = 9 := rfl
  have hover : oneOver 9 = 455 := rfl
  simp only [sgrOffset, hcount, hover, rsr_pos _ 12 (by decide), rsr_pos _ 4 (by decide)]
  omega

end

/-- Settles O39: every box of a flat plane is flat. -/
theorem flatPassOutputsStayNearTheSample : Obligations.FlatPassOutputsStayNearTheSample := fun _ scale _ _ odd hv =>
  ⟨flatPass0_near hv scale odd fun _ _ _ _ _ _ _ _ => rfl, flatPass1_near hv scale fun _ _ _ _ _ _ _ _ => rfl⟩

end Sys2Proof.Machine
end

section
/-! SUPPORT. What an accepted self-guided unit writes on plain memory; settles O36 and O38. -/
namespace Sys2Proof.Machine

theorem sum_weight565 (g : Nat → Int) (j : Nat) :
    (sumInt 3 fun x => weight565 x * g (j + x)) = 5 * g j + 6 * g (j + 1) + 5 * g (j + 2) := by
  simp [sumInt, weight565]

/-- A row of R224's weights: 4, 4, 4 on the middle row and 3, 4, 3 beside it. -/
theorem sum_weight343 (g : Nat → Int) (y j : Nat) : (sumInt 3 fun x => weight343 y x * g (j + x)) =
    if y = 1 then 4 * g j + 4 * g (j + 1) + 4 * g (j + 2) else 3 * g j + 4 * g (j + 1) + 3 * g (j + 2) := by
  by_cases hy : y = 1 <;> simp [sumInt, weight343, hy]

/-- Settles O36: the unit leaves the samples of `sgrDirect`, whose combinations are written out here. -/
theorem selfGuidedUnitWritesTheBlend : Obligations.SelfGuidedUnitWritesTheBlend := by
  intro s bd hw hr ha hp hal hbd hk u f q w0 w1 scaled row565 row343 row444 comb0 comb1 f0 f1
  have hcomb0 (g : Nat → Nat → Int) (i j : Nat) : comb0 g i j = combine0 g ((u.y0 + i) % 2 == 1) i j := by
    simp only [combine0, sum_weight565, beq_iff_eq]
    rfl
  have hcomb1 (g : Nat → Nat → Int) (i j : Nat) : comb1 g i j = combine1 g i j := by
    simp only [combine1, sum_weight343]
    simp [sumInt, comb1, row343, row444]
  have hshift (i : Nat) : 8 + shift0 ((u.y0 + i) % 2 == 1) - Config.sgrRstBits = if (u.y0 + i) % 2 = 1 then 8 else 9 := by
    simp only [shift0, beq_iff_eq]
    split <;> rfl
  have hsample (i j : Nat) : sgrDirect q bd w0 w1 f u.y0 i j =
      clip3 (rsr (w0 * f0 i j + w1 * scaled i j + (256 - w0 - w1) * f1 i j) 12) 0 (2 ^ bd.bits - 1) := by
    have hscaled : scaledSample (f i j) = scaled i j := mul_comm _ _
    simp only [sgrDirect, passOutput, blend, hshift, hscaled, ← hcomb0, ← hcomb1, pixMax_cast]
    rfl
  obtain ⟨t, ht, hfields, -, hsamples, hout⟩ := runUnit_plain s bd .selfGuided hw hr ha hp hal hbd hk
  refine ⟨t, ht, hfields, fun i j hi hj => ?_, hout⟩
  rw [hsamples i j hi hj, ← hsample]
  simp only [sampleDirect, snapshotRecord, presetIndex_eq]
  rfl

/-! ### Flat windows (R234) -/

/-- Contract multipliers cannot carry the pass errors of R227 to half an output step (R230, R234). -/
theorem blend_near {w0 w1 f0 f1 : Int} {v : Nat} (hw0 : -96 ≤ w0 ∧ w0 ≤ 31) (hw1 : -32 ≤ w1 ∧ w1 ≤ 95) (hv : v ≤ 255)
    (h0 : 16 * (v : Int) ≤ f0 ∧ f0 ≤ 16 * v + 4) (h1 : 16 * (v : Int) - 1 ≤ f1 ∧ f1 ≤ 16 * v) :
    blend Config.sgrProjBits .bd8 w0 w1 f0 (scaledSample v) f1 = v := by
  obtain ⟨e0, rfl⟩ : ∃ e0, f0 = 16 * v + e0 := ⟨f0 - 16 * v, by ring⟩
  obtain ⟨e1, rfl⟩ : ∃ e1, f1 = 16 * v - e1 := ⟨16 * v - f1, by ring⟩
  have herr0 : -384 ≤ w0 * e0 ∧ w0 * e0 ≤ 124 := by constructor <;> nlinarith
  have herr1 : 0 ≤ (256 - w0 - w1) * e1 ∧ (256 - w0 - w1) * e1 ≤ 384 := by constructor <;> nlinarith
  have hsum : w0 * (16 * v + e0) + w1 * scaledSample v + thirdWeight Config.sgrProjBits w0 w1 * (16 * v - e1) =
      4096 * v + w0 * e0 - (256 - w0 - w1) * e1 := by
    simp only [scaledSample, thirdWeight, Config.sgrRstBits, Config.sgrProjBits]
    ring
  have hround : rsr (4096 * v + w0 * e0 - (256 - w0 - w1) * e1) (Config.sgrRstBits + Config.sgrProjBits) = v := by
    simp only [rsr, Config.sgrRstBits, Config.sgrProjBits]
    omega
  rw [blend, hsum, hround]
  exact clip3_of_mem _ _ _ (Int.natCast_nonneg _) (Int.ofNat_le.mpr hv)

/-- Settles O38: every box a unit needs lies in its window, so each enabled pass stays near the sample, and a disabled one
gives it (R228). -/
theorem selfGuidedKeepsFlatPlanesAtBd8 : Obligations.SelfGuidedKeepsFlatPlanesAtBd8 := by
  intro s v hw hr ha hp hal hbd hk ⟨hlo0, hhi0, hlo1, hhi1⟩ hflat
  obtain ⟨t, ht, hfields, -, hsamples, -⟩ := runUnit_plain s .bd8 .selfGuided hw hr ha hp hal hbd hk
  refine ⟨t, ht, by rw [hfields]; rfl, fun i j hi hj => ?_⟩
  have hv : v ≤ 255 := by
    rw [← hflat 0 0 (by omega) (by omega)]
    exact src_le _ .bd8 _ _ _ _
  have hbox {r : Nat} (hradius : r ≤ 2) (k c : Nat) (hk : i ≤ k ∧ k ≤ i + 2) (hc : j ≤ c ∧ c ≤ j + 2) :
      flatBox (src s.params .bd8 (unitOf s.params) s.mem) r v ((k : Int) - 1) ((c : Int) - 1) :=
    fun y x hy hx => hflat _ _ (by omega) (by omega)
  have hscaled : scaledSample v = 16 * v := mul_comm _ _
  have hsample := hsamples i j hi hj
  simp only [sampleDirect, snapshotRecord, sgrDirect, hflat i j (by omega) (by omega)] at hsample
  rw [blend_near ⟨hlo0, hhi0⟩ ⟨hlo1, hhi1⟩ hv ?_ ?_] at hsample
  · exact_mod_cast hsample
  · split
    · omega
    · exact flatPass0_near hv _ _ (hbox (by decide))
  · split
    · omega
    · exact flatPass1_near hv _ (hbox (by decide))

end Sys2Proof.Machine
end

section
/-! SUPPORT. A CMD word presented to the dispatcher: dropped while BUSY, rejected or taken while IDLE, and the BUSY and
DONE that STATUS then shows; settles O13, O14, O17 and O19. -/
namespace Sys2Proof.Machine

theorem presentIllegal_busy {s : State} {c : Instr} (h : s.fsm = .busy c) (w : Word) :
    presentIllegal w s = dropCommand s := by
  simp only [presentIllegal, h]

/-- Settles O13: a legal and an illegal word are dropped alike. -/
theorem cmdWriteWhileBusyIsDropped : Obligations.CmdWriteWhileBusyIsDropped := by
  intro s c w hbusy
  have hdrop : presentWord w s = .next (dropCommand s) := by
    cases hd : decode w with
    | ok i => rw [presentWord_legal hd, exec_busy i c s hbusy]
    | error e => rw [presentWord_illegal hd, presentIllegal_busy hbusy]
  exact ⟨hdrop, (busWrite_cmd w s).trans hdrop⟩

/-- Settles O14. -/
theorem rejectionChangesOnlyStatus : Obligations.RejectionChangesOnlyStatus := by
  rintro s i e hidle rfl hne
  exact exec_rejected hidle hne

/-- Settles O19: no check applies to `nop`, and running it is its completion. -/
theorem nopOnlyCompletes : Obligations.NopOnlyCompletes := fun _ hr => exec_ready .nop _ hr rfl

/-- STATUS shows exactly one of BUSY and DONE. -/
def showsBusyOrDone (s : State) : Prop := (readReg .status s).getLsbD 0 = !(readReg .status s).getLsbD 1

theorem showsBusyOrDone_iff (s : State) : showsBusyOrDone s ↔ s.isBusy = !s.done := by
  show (statusWord s).getLsbD 0 = !(statusWord s).getLsbD 1 ↔ _
  rw [statusWord_bit s 0 (by decide), statusWord_bit s 1 (by decide)]
  rfl

theorem showsBusyOrDone_of_ended {s : State} (hidle : s.fsm = .idle) (hdone : s.done = true) : showsBusyOrDone s := by
  simp only [showsBusyOrDone_iff, State.isBusy, hidle, hdone, Bool.not_true]

/-- A command just accepted is BUSY with DONE clear (R250). -/
theorem showsBusyOrDone_accepted (i : Instr) (s : State) : showsBusyOrDone (accepted i s) :=
  (showsBusyOrDone_iff _).mpr rfl

/-- Settles O17: the word is rejected, run to its end, or left BUSY. -/
theorem cmdWriteLeavesBusyOrDone : Obligations.CmdWriteLeavesBusyOrDone := by
  intro s w t hidle h
  show showsBusyOrDone t
  cases hd : decode w with
  | error e =>
    rw [presentWord_illegal hd, presentIllegal_idle hidle] at h
    cases h
    exact showsBusyOrDone_of_ended rfl rfl
  | ok i =>
    rw [presentWord_legal hd] at h
    rcases exec_cases i s with ⟨c, hbusy, -⟩ | ⟨-, -, he⟩ | ⟨-, -, -, he⟩ | ⟨-, -, -, he⟩
    · cases hidle.symm.trans hbusy
    · cases he.symm.trans h
      exact showsBusyOrDone_of_ended rfl rfl
    · have hend := perform_ended i _ t (he.symm.trans h)
      exact showsBusyOrDone_of_ended hend.fsm hend.done
    · cases he.symm.trans h
      exact showsBusyOrDone_accepted i s

end Sys2Proof.Machine
end

section
/-! SUPPORT. The grid of run.plane cell by cell, and the cell each sample of the plane lies in; settles O18. -/
namespace Sys2Proof.Machine

/-- The raster walk over n rows of m entries reaches entry (r, c) at place r * m + c. -/
theorem getElem?_raster {α : Type} (g : Nat → Nat → α) {n m r c : Nat} (hr : r < n) (hc : c < m) :
    ((List.range n).flatMap fun r => (List.range m).map (g r))[r * m + c]? = some (g r c) := by
  induction n with
  | zero => omega
  | succ n ih =>
    have hlen : ((List.range n).flatMap fun r => (List.range m).map (g r)).length = n * m := by
      simp [List.length_flatMap]
    rw [List.range_succ, List.flatMap_append]
    rcases Nat.lt_succ_iff_lt_or_eq.mp hr with hlt | rfl
    · have hrow : (r + 1) * m ≤ n * m := Nat.mul_le_mul_right m hlt
      rw [Nat.succ_mul] at hrow
      rw [List.getElem?_append_left (by omega)]
      exact ih hlt
    · rw [List.getElem?_append_right (by omega), hlen]
      simp [hc]

theorem gridCells_getElem? {p : Params} {r c : Nat} (hr : r < gridRows p) (hc : c < gridCols p) :
    (gridCells p)[r * gridCols p + c]? = some (cellAt p r c) := getElem?_raster (cellAt p) hr hc

/-- The rectangle holds the plane sample (x, y). -/
def UnitRect.holds (u : UnitRect) (x y : Nat) : Prop :=
  (u.x0 ≤ x ∧ x < u.x0 + u.w) ∧ (u.y0 ≤ y ∧ y < u.y0 + u.h)

theorem UnitRect.apart.not_holds {u v : UnitRect} (h : u.apart v) {x y : Nat} (hu : u.holds x y) : ¬ v.holds x y := by
  unfold UnitRect.apart at h
  unfold UnitRect.holds at *
  omega

/-- At most one cell of the grid holds a sample (R257). -/
theorem gridCells_holds_unique {p : Params} {k k' x y : Nat} {u u' : UnitRect} (hk : (gridCells p)[k]? = some u)
    (hk' : (gridCells p)[k']? = some u') (hu : u.holds x y) (hu' : u'.holds x y) : k = k' := by
  obtain ⟨hlt, rfl⟩ := List.getElem?_eq_some_iff.mp hk
  obtain ⟨hlt', rfl⟩ := List.getElem?_eq_some_iff.mp hk'
  have hapart := List.pairwise_iff_getElem.mp (gridCells_apart p)
  rcases lt_trichotomy k k' with h | h | h
  · exact absurd hu' ((hapart k k' hlt hlt' h).not_holds hu)
  · exact h
  · exact absurd hu ((hapart k' k hlt' hlt h).not_holds hu')

theorem div_lt_ceilDiv {x n d : Nat} (hd : 1 ≤ d) (hx : x < n) : x / d < ceilDiv n d := by
  rw [← Nat.succ_le_iff, Nat.succ_eq_add_one, ← Nat.add_div_right x hd]
  exact Nat.div_le_div_right (by omega)

/-- The cell at row y / grid height and column x / grid width holds the sample (x, y) (R257). -/
theorem cellAt_holds {p : Params} (hw : 1 ≤ lo16 p.unitGrid) (hh : 1 ≤ hi16 p.unitGrid) {x y : Nat}
    (hx : x < planeW p) (hy : y < planeH p) : (cellAt p (y / hi16 p.unitGrid) (x / lo16 p.unitGrid)).holds x y := by
  have hx1 := Nat.div_mul_le_self x (lo16 p.unitGrid)
  have hx2 := Nat.lt_div_mul_add hw (a := x)
  have hy1 := Nat.div_mul_le_self y (hi16 p.unitGrid)
  have hy2 := Nat.lt_div_mul_add hh (a := y)
  simp only [UnitRect.holds, cellAt]
  omega

theorem gridGroupOK_iff (p : Params) : gridGroupOK p = true ↔ gridGroup p := by
  simp only [gridGroupOK, gridGroup, Bool.and_eq_true, decide_eq_true_eq, and_assoc]
  rfl

/-- Settles O18: a sample lies in the cell its coordinates divided by the cell size name, and in no other, since cells
are apart. -/
theorem gridCutsThePlaneIntoCells : Obligations.GridCutsThePlaneIntoCells := by
  intro p hg cols rows
  have hok := (gridGroupOK_iff p).mpr hg
  obtain ⟨-, -, ⟨hw1, hw2⟩, hh1, hh2⟩ := hg
  refine ⟨rfl, gridCells_length p, fun r c hr hc => gridCells_getElem? hr hc, fun u hu => ?_, fun x y hx hy => ?_⟩
  · have hin := gridCells_inPlane p hok u hu
    obtain ⟨r, c, -, -, rfl⟩ := (mem_gridCells p u).mp hu
    exact ⟨hin.w, (min_le_left _ _).trans hw2, hin.h, (min_le_left _ _).trans hh2, hin.right, hin.bottom⟩
  · have hcell := gridCells_getElem? (p := p) (div_lt_ceilDiv hh1 hy) (div_lt_ceilDiv hw1 hx)
    have hholds := cellAt_holds hw1 hh1 hx hy
    exact ⟨_, ⟨_, hcell, hholds⟩, fun k ⟨u, hk, hu⟩ => gridCells_holds_unique hk hcell hu hholds⟩

end Sys2Proof.Machine
end

section
/-! SUPPORT. A run.unit that copies, and one that may meet a bus error; settles O41 and O43. -/
namespace Sys2Proof.Machine

/-! ### A copy (R256) -/

/-- A unit's own sample lies at its place in the plane (R75, R80). -/
theorem srcAddr_inside {p : Params} {u : UnitRect} (bd : BitDepth) (hu : UnitInPlane p u) {i j : Nat} (hi : i < u.h)
    (hj : j < u.w) : srcAddr p bd u i j = sampleAddr p.srcBase p.srcStride bd (u.y0 + i) (u.x0 + j) := by
  rw [srcAddr, srcRow_inside p u hu i hi, srcCol_inside p u hu j hj]
  rfl

/-- Settles O41: the sample of a copy is `Src` inside the unit, and a copy forms nothing in the scratch buffers. -/
theorem copyUnitWritesTheSourceSamples : Obligations.CopyUnitWritesTheSourceSamples := by
  intro s bd hw hr ha hp hal hbd hk u
  obtain ⟨-, -, -, -, hu, -⟩ := accepted_runUnit _ ha
  obtain ⟨t, ht, hfields, hscratch, hsamples, hout⟩ := runUnit_plain s bd .copy hw hr ha hp hal hbd hk
  refine ⟨t, ht, ?_, fun i j hi hj => ?_, hout⟩
  · rw [hscratch] at hfields
    exact hfields
  · have hsample : t.mem.readLE (dstAddr s.params bd u i j) bd.sampleBytes = src s.params bd u s.mem i j :=
      Int.ofNat_inj.mp (hsamples i j hi hj)
    rw [hsample, src, srcAddr_inside bd hu hi hj]
    rfl

/-! ### A bus error (R253, R286) -/

/-- What a run.unit without an error leaves of the state, where only its unit changed it (R252). -/
theorem complete_accepted {i : Instr} {s m : State} {P : Nat → Prop} (hm : MemoryOnly P (accepted i s) m) :
    complete m =
      { endedWith i s.result0 s.result1 s with mem := m.mem, scratch := m.scratch, draws := m.draws } := by
  rw [complete, hm.fields]
  rfl

/-- What a run.unit stopped by an error leaves of the state, where only its unit changed it (R253). -/
theorem raiseError_accepted {i : Instr} {s m : State} {P : Nat → Prop} (e : ErrCode)
    (hm : MemoryOnly P (accepted i s) m) :
    raiseError e m = { failedWith i e s with mem := m.mem, scratch := m.scratch, draws := m.draws } := by
  rw [raiseError, hm.fields]
  rfl

/-- An error response on a destination container stops the unit (R82, R286). -/
theorem filterUnit_dest_error {rec : UnitRecord} {p : Params} {bd : BitDepth} {u : UnitRect} {loose failed : Bool}
    {s : State} {i j : Nat} (hi : i < u.h) (hj : j < u.w)
    (h : touches .errorResponse [⟨dstAddr p bd u i j, bd.sampleBytes⟩] s.regions = true) :
    (filterUnit rec p bd u loose failed s).1 = some .busError := by
  have hdest : touches .errorResponse (unitDest p bd u) s.regions = true := by
    by_contra hn
    have hoff := touches_within .errorResponse [⟨dstAddr p bd u i j, bd.sampleBytes⟩] (unitDest p bd u) s.regions
      (fun a ha => by rw [List.mem_singleton.mp ha]; exact unitDest_within p bd u i j hi hj) (Bool.not_eq_true _ ▸ hn)
    exact Bool.false_ne_true (hoff.symm.trans h)
  simp [filterUnit, unitFails, requiredSpans, touches_append, hdest]

/-- Settles O43: the command ends as its unit does, which meets a bus error or none. -/
theorem unitBusErrorLeavesOldOrNewSamples : Obligations.UnitBusErrorLeavesOldOrNewSamples := by
  intro s bd kind hw hr ha hdev hal hbd hk u new
  obtain ⟨bd', -, hbd', -, hu, -, hd⟩ := accepted_runUnit _ ha
  cases hbd.symm.trans hbd'
  obtain ⟨t, ht⟩ := exec_offDevices _ s hr ha hdev
  have hend := exec_runUnit_end hr ha hal hbd hk ht
  have hcont := filterUnit_contents (snapshotRecord s.params kind) s.params bd u false (accepted .runUnit s) hw hd hu
  obtain ⟨hmem, herror, -⟩ := filterUnit_spec (snapshotRecord s.params kind) s.params bd u false false
    (accepted .runUnit s)
  have hdest (i j : Nat) (hi : i < u.h) (hj : j < u.w) := filterUnit_dest_error (rec := snapshotRecord s.params kind)
    (p := s.params) (bd := bd) (loose := false) (failed := false) (s := accepted .runUnit s) hi hj
  generalize filterUnit (snapshotRecord s.params kind) s.params bd u false false (accepted .runUnit s) = r at *
  obtain ⟨e, m⟩ := r
  have hout (a : Nat) (hna : ¬ destByte .runUnit s.params a) : m.mem.read a = s.mem.read a :=
    hmem.outside a fun h => hna ⟨bd, hbd, h⟩
  refine ⟨t, ht, ?_⟩
  rcases herror with rfl | rfl
  · have hcode : t.errCode = .none := by rw [hend]; exact hmem.errCode
    have hnew (i j : Nat) (hi : i < u.h) (hj : j < u.w) := (hcont i j hi hj).resolve_right fun h => nomatch h.1
    refine ⟨.inl hcode, ?_, fun h => absurd (hcode.symm.trans h) (by decide), fun _ => ?_, fun i j hi hj h => ?_⟩
    · rw [hend]; exact hout
    · rw [hend]; exact ⟨complete_accepted hmem, hnew⟩
    · cases hdest i j hi hj h
  · have hcode : t.errCode = .busError := by rw [hend]; rfl
    refine ⟨.inr hcode, ?_, fun _ => ?_, fun h => absurd (hcode.symm.trans h) (by decide), fun _ _ _ _ _ => hcode⟩
    · rw [hend]; exact hout
    · rw [hend]
      exact ⟨raiseError_accepted _ hmem, fun i j hi hj => (hcont i j hi hj).symm.imp_left And.right⟩

end Sys2Proof.Machine
end

section
/-! SUPPORT. An accepted run.plane on plain memory that stops at a descriptor of KIND 3; settles O45. -/
namespace Sys2Proof.Machine

/-- The first g cells have descriptors with a filter kind, and cell g, where there is one, has none: where run.plane
stops on plain memory (R258). -/
structure StopsAt (m : Memory) (p : Params) (g : Nat) : Prop where
  le : g ≤ cellCount p
  before : ∀ k < g, (cellRecord m p k).isSome = true
  stop : g < cellCount p → cellRecord m p g = none

/-- What an accepted run.plane on plain memory that stops at cell g does: how its cells end, and the state m they leave
(R102, R258). -/
structure PlaneStop (s : State) (bd : BitDepth) (g : Nat) (m : State) : Prop where
  runs : exec .runPlane s =
    .next (finishPlane s.params bd (if g < cellCount s.params then some .badKind else none, g, m))
  memoryOnly : MemoryOnly (fun a => ∃ u ∈ gridCells s.params, unitDestByte s.params bd u a) (accepted .runPlane s) m
  draws : m.draws = s.draws
  samples : ∀ (k : Nat) (u : UnitRect) (rec : UnitRecord) (i j : Nat), k < g → (gridCells s.params)[k]? = some u →
    cellRecord s.mem s.params k = some rec → i < u.h → j < u.w →
    (m.mem.readLE (dstAddr s.params bd u i j) bd.sampleBytes : Int) =
      sampleDirect rec bd (src s.params bd u s.mem) u.y0 i j
  outside : ∀ a, (∀ (k : Nat) (u : UnitRect), k < g → (gridCells s.params)[k]? = some u →
    ¬ unitDestByte s.params bd u a) → m.mem.read a = s.mem.read a

theorem runPlane_stops {s : State} {bd : BitDepth} {g : Nat} (hw : s.mem.wf) (hr : readyFor s)
    (ha : acceptCheck .runPlane s.params = .none) (hp : onPlainMemory .runPlane s)
    (hal : aliased .runPlane s.params = false) (hbd : bitDepth? s.params.format = some bd)
    (hg : StopsAt s.mem s.params g) : ∃ m, PlaneStop s bd g m := by
  have hlen := gridCells_length s.params
  obtain ⟨hmem, -, -⟩ := runCells_spec s.params bd false (gridCells s.params) 0 (accepted .runPlane s)
  obtain ⟨herror, hcount, hdraws, hsamples, hout⟩ := runCells_plain s.params bd (gridCells s.params) 0 g
    (accepted .runPlane s) (planePlain_accepted hw ha hp hbd hal) (gridCells_apart _)
    (fun u hu => (destCells_inPlane .runPlane _ bd hbd ha u hu).1) (by omega) (hlen ▸ hg.le)
    (fun k hk => by rw [Nat.zero_add]; exact hg.before k hk)
    (fun h => by rw [Nat.zero_add]; exact hg.stop (hlen ▸ h))
  have hexec : exec .runPlane s = .next (finishPlane s.params bd
      (runCells s.params bd false 0 (gridCells s.params) (accepted .runPlane s))) := by
    rw [exec_ready _ _ hr ha, ← hal]
    exact performRunPlane_eq (accepted .runPlane s) bd hbd hp.1
  generalize runCells s.params bd false 0 (gridCells s.params) (accepted .runPlane s) = r at *
  obtain ⟨e, k, m⟩ := r
  simp only [Nat.zero_add, hlen, accepted_mem] at herror hcount hsamples hout
  subst herror hcount
  exact ⟨m, hexec, hmem, hdraws, hsamples, hout⟩

/-- The state after an accepted run.plane that an error stopped after k cells, which took no free value (R253, R258). -/
theorem finishPlane_stopped {s m : State} {bd : BitDepth} {P : Nat → Prop} {k : Nat} (e : ErrCode)
    (hm : MemoryOnly P (accepted .runPlane s) m) (hdraws : m.draws = s.draws) :
    finishPlane s.params bd (some e, k, m) =
      { failedWith .runPlane e s with
        mem := m.mem
        scratch := m.scratch
        result0 := BitVec.ofNat 32 k
        result1 := BitVec.ofNat 32 (cellCount s.params) } := by
  have hfields := hm.fields
  rw [hdraws] at hfields
  rw [finishPlane, spoil_clear _ _ _ _ (by rw [hfields]; rfl), hfields]
  simp only [trunc32, BitVec.ofInt_natCast]
  rfl

/-- Settles O45: cell k is where run.plane stops. -/
theorem runPlaneStopsAtTheFirstBadKind : Obligations.RunPlaneStopsAtTheFirstBadKind := by
  intro s bd k hw hr ha hp hal hbd hk hnone hsome
  obtain ⟨m, hm⟩ := runPlane_stops hw hr ha hp hal hbd ⟨hk.le, hsome, fun _ => hnone⟩
  have hexec := hm.runs
  rw [if_pos hk, finishPlane_stopped .badKind hm.memoryOnly hm.draws] at hexec
  exact ⟨_, hexec, rfl, hm.samples, hm.outside⟩

end Sys2Proof.Machine
end

section
/-! SUPPORT. Two runs of a command that read the same end alike; settles O51. -/
namespace Sys2Proof.Machine

/-! ### Memories that agree where a command reads (R81, R102) -/

/-- The two memories agree on these ranges. -/
def agreeOn (spans : List Span) (m m' : Memory) : Prop := ∀ sp ∈ spans, ∀ a, sp.has a → m'.read a = m.read a

theorem agreeOn.readLE {spans : List Span} {m m' : Memory} (h : agreeOn spans m m') {sp : Span} (hsp : sp ∈ spans)
    {a n : Nat} (hin : Span.within ⟨a, n⟩ sp) : m'.readLE a n = m.readLE a n :=
  Memory.readLE_congr _ _ _ _ fun x h1 h2 => h sp hsp x ⟨hin.1.trans h1, h2.trans_le hin.2⟩

/-- Memories whose containers of one place hold one value agree on its bytes (R72). -/
theorem read_of_readLE_eq {m m' : Memory} {n : Nat} : ∀ {a : Nat}, m'.readLE a n = m.readLE a n →
    ∀ x, a ≤ x → x < a + n → m'.read x = m.read x := by
  induction n with
  | zero => intro a _ x h1 h2; omega
  | succ n ih =>
    intro a h x h1 h2
    have hlow := (m.read a).isLt
    have hlow' := (m'.read a).isLt
    simp only [Memory.readLE] at h
    rcases Nat.eq_or_lt_of_le h1 with rfl | h1
    · exact BitVec.eq_of_toNat_eq (by omega)
    · exact ih (a := a + 1) (by omega) x h1 (by omega)

theorem cellRecord_agree {p : Params} {m m' : Memory} (h : agreeOn (descSpans .runPlane p) m m') {k : Nat}
    (hk : k < cellCount p) : cellRecord m' p k = cellRecord m p k := by
  have hword (n : Nat) (hn : n < 4) : cellWord m' p k n = cellWord m p k n := by
    rw [cellWord, h.readLE (List.mem_singleton.mpr rfl) ⟨by simp only; omega, by simp only; omega⟩, cellWord]
  unfold cellRecord
  rw [hword 0 (by decide), hword 1 (by decide), hword 2 (by decide), hword 3 (by decide)]

/-! ### Where run.plane stops (R258) -/

/-- run.plane on plain memory stops somewhere: at the first descriptor of KIND 3, or after the last cell. -/
theorem exists_stopsAt (m : Memory) (p : Params) : ∃ g, StopsAt m p g := by
  by_cases h : ∃ k, k < cellCount p ∧ cellRecord m p k = none
  · obtain ⟨hlt, hnone⟩ := Nat.find_spec h
    exact ⟨Nat.find h, hlt.le,
      fun k hk => Option.isSome_iff_ne_none.mpr fun hc => Nat.find_min h hk ⟨hk.trans hlt, hc⟩, fun _ => hnone⟩
  · exact ⟨cellCount p, le_refl _, fun k hk => Option.isSome_iff_ne_none.mpr fun hc => h ⟨k, hk, hc⟩,
      fun hlt => absurd hlt (Nat.lt_irrefl _)⟩

/-- Descriptors read alike stop run.plane at one cell. -/
theorem StopsAt.agree {m m' : Memory} {p : Params} {g : Nat} (hg : StopsAt m p g)
    (h : agreeOn (descSpans .runPlane p) m m') : StopsAt m' p g where
  le := hg.le
  before k hk := by
    rw [cellRecord_agree h (hk.trans_le hg.le)]
    exact hg.before k hk
  stop hlt := by
    rw [cellRecord_agree h hlt]
    exact hg.stop hlt

/-- The end of an accepted run.plane on plain memory, by where it stopped. -/
theorem PlaneStop.ends {s m : State} {bd : BitDepth} {g : Nat} (h : PlaneStop s bd g m) :
    ∃ t, exec .runPlane s = .next t ∧
      PlaneEnd s.params (if g < cellCount s.params then some .badKind else none, g, m) t := by
  have hfields := h.memoryOnly.fields
  exact ⟨_, h.runs, finishPlane_end _ _ _ (by rw [hfields]; rfl) (by rw [hfields]; rfl) (by rw [hfields]; rfl)⟩

theorem PlaneEnd.noError {p : Params} {r : Option ErrCode × Nat × State} {t : State} (h : PlaneEnd p r t)
    (herr : t.err = false) : r.1 = none := by
  rcases h.error with ⟨hnone, -⟩ | ⟨e, -, htrue, -⟩
  · exact hnone
  · cases herr.symm.trans htrue

/-- What stopped the cells fixes ERR and ERR_CODE. -/
theorem PlaneEnd.error_eq {p p' : Params} {r r' : Option ErrCode × Nat × State} {t t' : State} (h : PlaneEnd p r t)
    (h' : PlaneEnd p' r' t') (hr : r'.1 = r.1) : t'.err = t.err ∧ t'.errCode = t.errCode := by
  rcases h.error with ⟨hnone, herr, hcode⟩ | ⟨e, hsome, herr, hcode⟩ <;>
    rcases h'.error with ⟨hnone', herr', hcode'⟩ | ⟨e', hsome', herr', hcode'⟩ <;> rw [hr] at *
  · exact ⟨herr'.trans herr.symm, hcode'.trans hcode.symm⟩
  · cases hnone.symm.trans hsome'
  · cases hsome.symm.trans hnone'
  · cases hsome.symm.trans hsome'
    exact ⟨herr'.trans herr.symm, hcode'.trans hcode.symm⟩

/-! ### Ends that software cannot tell apart (R260) -/

/-- t and t' show the same effects of a command: the same error, the same results where its rule writes them, and
without an error the same destination. -/
structure SameEffects (i : Instr) (p : Params) (t t' : State) : Prop where
  err : t'.err = t.err
  errCode : t'.errCode = t.errCode
  results : writesResults i = true → t'.result0 = t.result0 ∧ t'.result1 = t.result1
  dest : t.err = false → ∀ a, destByte i p a → t'.mem.read a = t.mem.read a

/-- A destination of which each container holds the same value in both memories is the same byte by byte (R82). -/
theorem unitDestByte_read_eq {p : Params} {bd : BitDepth} {u : UnitRect} {m m' : Memory}
    (h : ∀ i j, i < u.h → j < u.w →
      m'.readLE (dstAddr p bd u i j) bd.sampleBytes = m.readLE (dstAddr p bd u i j) bd.sampleBytes)
    {a : Nat} (ha : unitDestByte p bd u a) : m'.read a = m.read a := by
  obtain ⟨i, j, hi, hj, h1, h2⟩ := ha
  exact read_of_readLE_eq (h i j hi hj) a h1 h2

/-- Two accepted runs of a command on plain memory that agree on the parameters and on what the command reads. -/
structure SameReads (i : Instr) (s s' : State) : Prop where
  wf : s.mem.wf
  wf' : s'.mem.wf
  ready : readyFor s
  ready' : readyFor s'
  params : s'.params = s.params
  accept : acceptCheck i s.params = .none
  plain : onPlainMemory i s
  plain' : onPlainMemory i s'
  unaliased : aliased i s.params = false
  source : agreeOn (sourceSpans i s.params) s.mem s'.mem
  desc : agreeOn (descSpans i s.params) s.mem s'.mem

/-- The second run ends, and as the first one does. -/
def endsAlike (i : Instr) (s s' : State) : Prop :=
  ∀ t, exec i s = .next t → ∃ t', exec i s' = .next t' ∧ SameEffects i s.params t t'

namespace SameReads
variable {i : Instr} {s s' : State}

theorem accept' (h : SameReads i s s') : acceptCheck i s'.params = .none := h.params ▸ h.accept

/-- Two completions of a command without a destination that write the same results. -/
theorem endsAlike_of_completes {r0 r1 r0' r1' : Word} (h : SameReads i s s') (hi : ∀ p a, ¬ destByte i p a)
    (hr : writesResults i = true → r0' = r0 ∧ r1' = r1)
    (hp : perform i (accepted i s) = .next (completeWith r0 r1 (accepted i s)))
    (hp' : perform i (accepted i s') = .next (completeWith r0' r1' (accepted i s'))) : endsAlike i s s' := by
  intro t ht
  cases (exec_ready_completes h.ready h.accept hp).symm.trans ht
  exact ⟨_, exec_ready_completes h.ready' h.accept' hp', rfl, rfl, hr, fun _ a ha => absurd ha (hi _ a)⟩

/-- `nop` writes no results: it completes with those there were (R254). -/
theorem endsAlike_nop (h : SameReads .nop s s') : endsAlike .nop s s' :=
  h.endsAlike_of_completes (r0 := s.result0) (r1 := s.result1) (r0' := s'.result0) (r1' := s'.result1)
    (fun _ _ => id) nofun rfl rfl

/-- The results of `prim.sgrab` come from S alone (R233). -/
theorem endsAlike_primSgrab {pass : Pass} (h : SameReads (.primSgrab pass) s s') :
    endsAlike (.primSgrab pass) s s' := by
  obtain ⟨hbd, -⟩ := acceptCheck_none _ _ h.accept
  obtain ⟨bd, hbd⟩ := hbd rfl
  have hbd' : bitDepth? s'.params.format = some bd := h.params ▸ hbd
  exact h.endsAlike_of_completes (fun _ _ => id) (fun _ => by simp only [accepted_snap, h.params, and_self])
    (performPrimSgrab_eq (s := accepted _ s) hbd) (performPrimSgrab_eq (s := accepted _ s') hbd')

/-! ### The box commands (R170, R171) -/

theorem endsAlike_box {r : Nat} (h : SameReads i s s') (hi : boxCommand i r) : endsAlike i s s' := by
  have hdest : ∀ p a, ¬ destByte i p a := by rcases hi with ⟨rfl, -⟩ | ⟨rfl, -⟩ <;> exact fun _ _ => id
  obtain ⟨bd, hbd, -⟩ := accepted_box i (hi.imp And.left And.left) _ h.accept
  have hbd' : bitDepth? s'.params.format = some bd := h.params ▸ hbd
  obtain ⟨hreads, -⟩ := touches_commandSpans _ _ _ _ h.plain.2
  obtain ⟨hreads', -⟩ := touches_commandSpans _ _ _ _ h.plain'.2
  rw [hi.sourceSpans_eq hbd] at hreads
  rw [hi.sourceSpans_eq hbd'] at hreads'
  have hrun := performBox_plain i r (accepted i s) bd hbd h.plain.1 hreads rfl
  have hrun' := performBox_plain i r (accepted i s') bd hbd' h.plain'.1 hreads' rfl
  have hsource := h.source
  rw [hi.sourceSpans_eq hbd] at hsource
  have hsrc (y x : Nat) (hy : y < 2 * r + 1) (hx : x < 2 * r + 1) :
      src s.params bd (unitOf s.params) s'.mem (hi16s s.params.opa + y - r) (lo16s s.params.opa + x - r) =
        src s.params bd (unitOf s.params) s.mem (hi16s s.params.opa + y - r) (lo16s s.params.opa + x - r) := by
    have hmem := mem_boxReads s.params bd (unitOf s.params) (hi16s s.params.opa) (lo16s s.params.opa)
      (Nat.le_of_lt_succ hy) (Nat.le_of_lt_succ hx)
    rw [src, sampleRead, hsource.readLE hmem ⟨le_refl _, le_refl _⟩, src, sampleRead]
  refine h.endsAlike_of_completes hdest (fun _ => ⟨?_, ?_⟩) (hi.perform_eq _ ▸ hrun) (hi.perform_eq _ ▸ hrun')
  · simp only [accepted_snap, accepted_mem, h.params]
    exact congrArg (fun n : Nat => trunc32 n)
      (sumNat_congr _ _ _ fun y hy => sumNat_congr _ _ _ fun x hx => hsrc y x hy hx)
  · simp only [accepted_snap, accepted_mem, h.params]
    exact congrArg (fun n : Nat => trunc32 n)
      (sumNat_congr _ _ _ fun y hy => sumNat_congr _ _ _ fun x hx => congrArg (· ^ 2) (hsrc y x hy hx))

/-! ### run.unit (R255) -/

theorem endsAlike_runUnit (h : SameReads .runUnit s s') : endsAlike .runUnit s s' := by
  intro t ht
  obtain ⟨bd, kind, hbd, hk, hu, -⟩ := accepted_runUnit _ h.accept
  obtain ⟨v, hv, hfields, -, hsamples, -⟩ :=
    runUnit_plain s bd kind h.wf h.ready h.accept h.plain h.unaliased hbd hk
  obtain ⟨v', hv', hfields', -, hsamples', -⟩ := runUnit_plain s' bd kind h.wf' h.ready' h.accept' h.plain'
    (h.params ▸ h.unaliased) (h.params ▸ hbd) (h.params ▸ hk)
  cases hv.symm.trans ht
  rw [h.params] at hsamples'
  have hsource := h.source
  simp only [sourceSpans, hbd, runUnitSource, hk] at hsource
  refine ⟨v', hv', by rw [hfields', hfields]; rfl, by rw [hfields', hfields]; rfl, nofun, fun _ a ha => ?_⟩
  obtain ⟨bd', hbd', hbyte⟩ := ha
  cases hbd.symm.trans hbd'
  refine unitDestByte_read_eq (fun i j hi hj => Int.ofNat_inj.mp ?_) hbyte
  rw [hsamples i j hi hj, hsamples' i j hi hj]
  exact sampleDirect_congr (snapshotRecord s.params kind) _ bd _ hu s'.mem s.mem hsource i j hi hj

/-! ### run.plane (R258) -/

/-- Cells complete in both runs hold the same samples. -/
theorem planeSamples_eq (h : SameReads .runPlane s s') {bd : BitDepth} (hbd : bitDepth? s.params.format = some bd)
    {g : Nat} (hg : StopsAt s.mem s.params g) {m m' : State} (hm : PlaneStop s bd g m) (hm' : PlaneStop s' bd g m')
    {k : Nat} {u : UnitRect} (hkg : k < g) (hk : (gridCells s.params)[k]? = some u) (i j : Nat) (hi : i < u.h)
    (hj : j < u.w) :
    m'.mem.readLE (dstAddr s.params bd u i j) bd.sampleBytes =
      m.mem.readLE (dstAddr s.params bd u i j) bd.sampleBytes := by
  obtain ⟨rec, hrec⟩ := Option.isSome_iff_exists.mp (hg.before k hkg)
  have hrec' := (cellRecord_agree h.desc (hkg.trans_le hg.le)).trans hrec
  have hsamples' := hm'.samples
  rw [h.params] at hsamples'
  have hsource := h.source
  simp only [sourceSpans, hbd] at hsource
  have hu := (destCells_inPlane .runPlane _ bd hbd h.accept u (List.mem_of_getElem? hk)).1
  have hsrc : src s.params bd u s'.mem = src s.params bd u s.mem :=
    src_congr s.params bd u hu _ _ fun sp hsp => hsource sp (unitSource_plane s.params bd u hu sp hsp)
  refine Int.ofNat_inj.mp ?_
  rw [hm.samples k u rec i j hkg hk hrec hi hj, hsamples' k u rec i j hkg hk hrec' hi hj, hsrc]

theorem endsAlike_runPlane (h : SameReads .runPlane s s') : endsAlike .runPlane s s' := by
  intro t ht
  obtain ⟨bd, hbd, -⟩ := accepted_runPlane _ h.accept
  obtain ⟨g, hg⟩ := exists_stopsAt s.mem s.params
  obtain ⟨m, hm⟩ := runPlane_stops h.wf h.ready h.accept h.plain h.unaliased hbd hg
  obtain ⟨m', hm'⟩ := runPlane_stops h.wf' h.ready' h.accept' h.plain' (h.params ▸ h.unaliased) (h.params ▸ hbd)
    (h.params ▸ hg.agree h.desc)
  obtain ⟨v, hv, hend⟩ := hm.ends
  obtain ⟨t', ht', hend'⟩ := hm'.ends
  cases hv.symm.trans ht
  rw [h.params] at hend'
  obtain ⟨herr, hcode⟩ := hend.error_eq hend' rfl
  refine ⟨t', ht', herr, hcode,
    fun _ => ⟨hend'.result0.trans hend.result0.symm, hend'.result1.trans hend.result1.symm⟩, fun hok a ha => ?_⟩
  obtain ⟨bd', hbd', u, hu, hbyte⟩ := ha
  cases hbd.symm.trans hbd'
  obtain ⟨k, hk⟩ := List.getElem?_of_mem hu
  have hkN : k < cellCount s.params := gridCells_length s.params ▸ (List.getElem?_eq_some_iff.mp hk).1
  have hall : ¬ g < cellCount s.params := fun hlt => by
    have hnone := hend.noError hok
    rw [if_pos hlt] at hnone
    cases hnone
  rw [hend.mem, hend'.mem]
  exact unitDestByte_read_eq (h.planeSamples_eq hbd hg hm hm' (by omega) hk) hbyte

end SameReads

/-- Settles O51, command by command. -/
theorem resultsDependOnlyOnSnapshotAndSource : Obligations.ResultsDependOnlyOnSnapshotAndSource := by
  intro s s' t i hw hw' hr hr' hparams ha hp hp' hal hreads ht
  have h : SameReads i s s' := ⟨hw, hw', hr, hr', hparams, ha, hp, hp', hal,
    fun sp hsp a hin => hreads sp (List.mem_append_left _ hsp) a hin.1 hin.2,
    fun sp hsp a hin => hreads sp (List.mem_append_right _ hsp) a hin.1 hin.2⟩
  have hend : endsAlike i s s' := by
    cases i with
    | nop => exact h.endsAlike_nop
    | runUnit => exact h.endsAlike_runUnit
    | runPlane => exact h.endsAlike_runPlane
    | primRsr | primClip3 | primLut =>
      exact h.endsAlike_of_completes (fun _ _ => id) (fun _ => by simp only [accepted_snap, h.params, and_self]) rfl rfl
    | primBox3 => exact h.endsAlike_box (.inl ⟨rfl, rfl⟩)
    | primBox5 => exact h.endsAlike_box (.inr ⟨rfl, rfl⟩)
    | primSgrab pass => exact h.endsAlike_primSgrab
  obtain ⟨t', ht', hsame⟩ := hend t ht
  exact ⟨t', ht', hsame.err, hsame.errCode, hsame.results, hsame.dest⟩

end Sys2Proof.Machine
end

section
/-! SUPPORT. A command held BUSY, and one whose cells have turns of their own, end as one that ends at once; settles
O52. -/
namespace Sys2Proof.Machine

/-! ### A running command does not look at the schedule (R262, R319; log entry 4) -/

/-- s with these turns to come. -/
def withSched (rest : List Turn) (s : State) : State := { s with sched := rest }

@[simp] theorem withSched_snap (rest : List Turn) (s : State) : (withSched rest s).snap = s.snap := rfl
@[simp] theorem withSched_regions (rest : List Turn) (s : State) : (withSched rest s).regions = s.regions := rfl
@[simp] theorem withSched_taint (rest : List Turn) (s : State) : (withSched rest s).taint = s.taint := rfl
@[simp] theorem withSched_progress (rest : List Turn) (s : State) : (withSched rest s).progress = s.progress := rfl

/-- The outcome with its next state, if there is one, changed by `f`. -/
def mapNext (f : State → State) : Outcome → Outcome
  | .next s => .next (f s)
  | .fault r => .fault r
  | .refused r => .refused r

section
variable (rest : List Turn)

theorem spoil_withSched (i : Instr) (p : Params) (bd : BitDepth) (s : State) :
    spoil i p bd (withSched rest s) = withSched rest (spoil i p bd s) := by
  unfold spoil
  rw [withSched_taint]
  split <;> rfl

theorem afterDescriptor_withSched (p : Params) (k : Nat) (s : State) :
    afterDescriptor p k (withSched rest s) = withSched rest (afterDescriptor p k s) := by
  unfold afterDescriptor
  rw [withSched_taint, withSched_regions]
  split <;> rfl

theorem filterUnit_withSched (rec : UnitRecord) (p : Params) (bd : BitDepth) (u : UnitRect) (loose failed : Bool)
    (s : State) : filterUnit rec p bd u loose failed (withSched rest s) =
      ((filterUnit rec p bd u loose failed s).1, withSched rest (filterUnit rec p bd u loose failed s).2) := rfl

theorem runCells_withSched (p : Params) (bd : BitDepth) (loose : Bool) (us : List UnitRect) :
    ∀ (k : Nat) (s : State), runCells p bd loose k us (withSched rest s) =
      ((runCells p bd loose k us s).1, (runCells p bd loose k us s).2.1,
        withSched rest (runCells p bd loose k us s).2.2) := by
  induction us with
  | nil => intro k s; rfl
  | cons u us ih =>
    intro k s
    have hrd : readDescriptor p k (withSched rest s) = readDescriptor p k s := rfl
    simp only [runCells, hrd, afterDescriptor_withSched, filterUnit_withSched]
    cases readDescriptor p k s with
    | error e => rfl
    | ok d =>
      simp only
      cases (filterUnit d.1 p bd u loose d.2 (afterDescriptor p k s)).1 with
      | some e => rfl
      | none => exact ih (k + 1) _

theorem finish_withSched (e : Option ErrCode) (s : State) :
    finish (e, withSched rest s) = withSched rest (finish (e, s)) := by cases e <;> rfl

theorem finishPlane_withSched (p : Params) (bd : BitDepth) (e : Option ErrCode) (k : Nat) (s : State) :
    finishPlane p bd (e, k, withSched rest s) = withSched rest (finishPlane p bd (e, k, s)) := by
  have hset (r0 r1 : Word) : setResults r0 r1 (withSched rest s) = withSched rest (setResults r0 r1 s) := rfl
  simp only [finishPlane, hset, spoil_withSched, finish_withSched]

theorem onOrdinaryMemory_withSched (i : Instr) (s : State) (o : Outcome) :
    onOrdinaryMemory i (withSched rest s) (mapNext (withSched rest) o) =
      mapNext (withSched rest) (onOrdinaryMemory i s o) := by
  unfold onOrdinaryMemory
  rw [withSched_snap, withSched_regions]
  split <;> rfl

theorem performBox_withSched (i : Instr) (r : Nat) (s : State) :
    performBox i r (withSched rest s) = mapNext (withSched rest) (performBox i r s) := by
  unfold performBox
  simp only [withSched_snap]
  split
  · rfl
  · rw [← onOrdinaryMemory_withSched, apply_ite (mapNext _), apply_ite (mapNext _)]
    rfl

theorem performRunUnit_withSched (s : State) :
    performRunUnit (withSched rest s) = mapNext (withSched rest) (performRunUnit s) := by
  unfold performRunUnit
  simp only [withSched_snap, filterUnit_withSched, spoil_withSched, finish_withSched]
  split
  · rfl
  · split
    · rfl
    · exact onOrdinaryMemory_withSched rest _ s (.next _)

theorem performRunPlane_withSched (s : State) :
    performRunPlane (withSched rest s) = mapNext (withSched rest) (performRunPlane s) := by
  unfold performRunPlane
  simp only [withSched_snap, withSched_progress, runCells_withSched, finishPlane_withSched]
  split
  · rfl
  · exact onOrdinaryMemory_withSched rest _ s (.next _)

theorem perform_withSched (i : Instr) (s : State) :
    perform i (withSched rest s) = mapNext (withSched rest) (perform i s) := by
  cases i with
  | nop | primRsr | primClip3 | primLut => rfl
  | runUnit => exact performRunUnit_withSched rest s
  | runPlane => exact performRunPlane_withSched rest s
  | primBox3 | primBox5 => exact performBox_withSched rest _ _ s
  | primSgrab pass =>
    simp only [perform, performPrimSgrab, withSched_snap]
    split <;> rfl

end

/-! ### A cell that ends the command (R89, R253, R258) -/

theorem MemoryOnly.fsm {P : Nat → Prop} {s t : State} (h : MemoryOnly P s t) : t.fsm = s.fsm := by rw [h.fields]

/-- Where the next cell stops run.plane, doing it in a turn of its own gives the end all cells together give. -/
theorem performCell_ended {s c t : State} (hc : performCell s = .next c) (hs : s.fsm ≠ .idle) (hidle : c.fsm = .idle)
    (hp : performRunPlane s = .next t) : c = t := by
  unfold performCell at hc
  simp only at hc
  split at hc
  · cases hc
    exact absurd hidle hs
  · rename_i bd hbd
    split at hc
    · cases hc
      exact absurd hidle hs
    · rename_i u hu
      obtain ⟨hlt, rfl⟩ := List.getElem?_eq_some_iff.mp hu
      cases onOrdinaryMemory_next _ _ _ _ hc
      simp only [performRunPlane, hbd, List.drop_eq_getElem_cons hlt] at hp
      rw [runCells_cons] at hp
      cases onOrdinaryMemory_next _ _ _ _ hp
      obtain ⟨hmem, -, -⟩ := runCells_spec s.snap.regs bd (aliased .runPlane s.snap.regs)
        [(gridCells s.snap.regs)[s.progress]] s.progress s
      generalize runCells s.snap.regs bd (aliased .runPlane s.snap.regs) s.progress
        [(gridCells s.snap.regs)[s.progress]] s = r at hidle hmem ⊢
      obtain ⟨e, n, m⟩ := r
      cases e with
      | some e => rfl
      | none =>
        exact absurd (hmem.fsm.symm.trans hidle) hs

theorem performCell_busy {s c : State} (hc : performCell s = .next c) (hbusy : c.fsm ≠ .idle) : c.fsm = s.fsm := by
  rcases performCell_cases s c hc with rfl | hend | ⟨-, -, ⟨bd, u, -, -, hmem⟩, -⟩
  · rfl
  · exact absurd hend.fsm hbusy
  · rw [hmem.withProgress]

theorem blockTurn_busy {s : State} {i : Instr} (h : s.fsm = .busy i) : blockTurn s = perform i s := by
  simp only [blockTurn, h]

theorem cellTurn_busy {s : State} (h : s.fsm = .busy .runPlane) : cellTurn s = performCell s := if_pos h

/-- Settles O52: running the command does not look at the schedule, and the cells not yet complete are the same
whichever turn did the ones before. -/
theorem heldCommandEndsAsAnImmediateOne : Obligations.HeldCommandEndsAsAnImmediateOne := by
  refine ⟨fun s t i rest hr hrest ha ht => ?_, fun s t c hb ht hc => ⟨fun hbusy => ?_, fun hidle => ?_⟩⟩
  · refine ⟨withSched rest (accepted i s), exec_held i (withSched rest s) hr.1 hrest ha, rfl, rfl, ?_⟩
    rw [blockTurn_busy (i := i) rfl, perform_withSched, ← exec_ready i s hr ha, ht]
    rfl
  · rw [cellTurn_busy hb] at hc
    rw [blockTurn_busy hb] at ht
    have hcb := (performCell_busy hc hbusy).trans hb
    exact ⟨hcb, (blockTurn_busy hcb).trans (performRunPlane_after_cell s c t hc hbusy ht)⟩
  · rw [cellTurn_busy hb] at hc
    rw [blockTurn_busy hb] at ht
    exact performCell_ended hc (by rw [hb]; simp) hidle ht

end Sys2Proof.Machine
end

section
/-! SUPPORT. A unit looks at its source through the window alone, up to three rows and columns beyond the unit; settles
O54. -/
namespace Sys2Proof.Machine

/-- The two sources agree on the window of a unit of w columns and h rows (R79). -/
def sameWindow (w h : Nat) (f g : Int → Int → Nat) : Prop :=
  ∀ i j : Int, (-3 ≤ i ∧ i ≤ h + 2) → (-3 ≤ j ∧ j ≤ w + 2) → f i j = g i j

section
variable {w h : Nat} {f g : Int → Int → Nat} (hfg : sameWindow w h f g)
include hfg

/-! ### The Wiener passes (R190, R192) -/

theorem wienerInter_sameWindow (bd : BitDepth) (wh : Word) {r : Int} {c : Nat} (hr : -3 ≤ r ∧ r ≤ h + 2)
    (hc : c < w) : wienerInter bd wh f r c = wienerInter bd wh g r c := by
  have hsum : wienerHSum wh f r c = wienerHSum wh g r c :=
    sumInt_congr _ _ _ fun t ht => by rw [hfg r (c + t - 3) hr (by omega)]
  rw [wienerInter, hsum, wienerInter]

theorem wienerDirect_sameWindow (bd : BitDepth) (wh wv : Word) {i c : Nat} (hi : i < h) (hc : c < w) :
    wienerDirect bd wh wv f i c = wienerDirect bd wh wv g i c := by
  have hsum : (sumInt 7 fun t => kernel wv t * wienerInter bd wh f ((i : Int) + t - 3) c) =
      sumInt 7 fun t => kernel wv t * wienerInter bd wh g ((i : Int) + t - 3) c :=
    sumInt_congr _ _ _ fun t ht => by rw [wienerInter_sameWindow hfg bd wh (by omega) hc]
  rw [wienerDirect, hsum, wienerDirect]

/-! ### The boxes of the statistics (R165, R221) -/

/-- A box of radius at most 2 around a position at most one beyond the unit lies in the window. -/
theorem boxSum_sameWindow {r k c : Nat} (hr : r ≤ 2) (hk : k < h + 2) (hc : c < w + 2) :
    boxSum f r ((k : Int) - 1) ((c : Int) - 1) = boxSum g r ((k : Int) - 1) ((c : Int) - 1) :=
  sumNat_congr _ _ _ fun _ _ => sumNat_congr _ _ _ fun _ _ => hfg _ _ (by omega) (by omega)

theorem boxSq_sameWindow {r k c : Nat} (hr : r ≤ 2) (hk : k < h + 2) (hc : c < w + 2) :
    boxSq f r ((k : Int) - 1) ((c : Int) - 1) = boxSq g r ((k : Int) - 1) ((c : Int) - 1) :=
  boxSum_sameWindow (f := fun i j => f i j ^ 2) (g := fun i j => g i j ^ 2)
    (fun i j hi hj => congrArg (· ^ 2) (hfg i j hi hj)) hr hk hc

theorem aDirect_sameWindow {r : Nat} (hr : r ≤ 2) (scale : Nat) (bd : BitDepth) :
    ∀ k < h + 2, ∀ c < w + 2, aDirect r scale bd f k c = aDirect r scale bd g k c := fun k hk c hc => by
  rw [aDirect, boxSum_sameWindow hfg hr hk hc, boxSq_sameWindow hfg hr hk hc, aDirect]

theorem bDirect_sameWindow {r : Nat} (hr : r ≤ 2) (scale : Nat) (bd : BitDepth) :
    ∀ k < h + 2, ∀ c < w + 2, bDirect r scale bd f k c = bDirect r scale bd g k c := fun k hk c hc => by
  rw [bDirect, boxSum_sameWindow hfg hr hk hc, boxSq_sameWindow hfg hr hk hc, bDirect]

/-! ### The self-guided sample (R223 to R229) -/

theorem sgrDirect_sameWindow (q : Preset) (bd : BitDepth) (w0 w1 : Int) {y0 y0' i j : Nat} (hi : i < h) (hj : j < w)
    (hpar : y0 % 2 = y0' % 2) : sgrDirect q bd w0 w1 f y0 i j = sgrDirect q bd w0 w1 g y0' i j := by
  have hodd : (y0 + i) % 2 = (y0' + i) % 2 := by omega
  unfold sgrDirect
  simp only [hfg i j (by omega) (by omega), hodd,
    combine0_congr _ _ _ i j w h hi hj (aDirect_sameWindow hfg (le_refl 2) q.scale0 bd),
    combine0_congr _ _ _ i j w h hi hj (bDirect_sameWindow hfg (le_refl 2) q.scale0 bd),
    combine1_congr _ _ i j w h hi hj (aDirect_sameWindow hfg one_le_two q.scale1 bd),
    combine1_congr _ _ i j w h hi hj (bDirect_sameWindow hfg one_le_two q.scale1 bd)]

end

/-- Settles O54: filter kind by filter kind. -/
theorem equalWindowsGiveEqualUnits : Obligations.EqualWindowsGiveEqualUnits := by
  intro rec bd f g y0 y0' w h hfg hpar i j hi hj
  unfold sampleDirect
  cases hk : rec.kind with
  | copy => exact congrArg Int.ofNat (hfg i j (by omega) (by omega))
  | wiener => exact wienerDirect_sameWindow hfg bd _ _ hi hj
  | selfGuided => exact sgrDirect_sameWindow hfg _ bd _ _ hi hj (hpar hk)

end Sys2Proof.Machine
end

section
/-! SUPPORT. Each acceptance check as the condition the table of R281 words; settles O15. -/
namespace Sys2Proof.Machine

/-! ### The reserved codes (R27, R35) -/

theorem lowCode_reserved_iff (w : Word) : w.extractLsb' 0 2 = 3#2 ↔ w.toNat % 4 = 3 := by
  rw [← BitVec.toNat_inj, BitVec.extractLsb'_toNat, Nat.shiftRight_zero]
  rfl

theorem bitDepth?_eq_none_iff (format : Word) : bitDepth? format = none ↔ format.toNat % 4 = 3 := by
  rw [← lowCode_reserved_iff, bitDepth?, bdCode]
  generalize format.extractLsb' 0 2 = code
  revert code
  decide

theorem filterKind?_eq_none_iff (w : Word) : filterKind? w = none ↔ w.toNat % 4 = 3 := by
  rw [← lowCode_reserved_iff, filterKind?]
  generalize w.extractLsb' 0 2 = code
  revert code
  decide

/-! ### The groups of R282 and the alignment of R84 -/

theorem unitGroupOK_iff (p : Params) : unitGroupOK p = true ↔ unitGroup p := by
  simp only [unitGroupOK, unitGroup, Bool.and_eq_true, decide_eq_true_eq, and_assoc]
  rfl

theorem planeFits_iff (base stride : Word) (p : Params) :
    planeFits base stride p = true ↔ planeGroup base stride p := by
  simp only [planeFits, planeGroup, Bool.and_eq_true, decide_eq_true_eq]

theorem geometryOK_iff (i : Instr) (p : Params) : geometryOK i p = true ↔ geometryHolds i p := by
  cases i with
  | runUnit | runPlane | primBox3 | primBox5 =>
    simp only [geometryOK, geometryHolds, sourceGroupOK, destGroupOK, descGroupOK, Bool.and_eq_true, decide_eq_true_eq,
      unitGroupOK_iff, gridGroupOK_iff, planeFits_iff, and_assoc]
  | nop | primRsr | primClip3 | primLut | primSgrab _ => exact iff_of_true rfl trivial

/-- SB is 1 or 2, so a plane is checked exactly where SB = 2 (R84). -/
theorem planeAligned_iff (base stride : Word) (p : Params) :
    planeAligned base stride p = true ↔ evenPlane base stride p := by
  have hsb : sampleBytesOf p.format = 1 ∨ sampleBytesOf p.format = 2 := by
    unfold sampleBytesOf
    split <;> simp
  rcases hsb with h | h <;> simp [planeAligned, evenPlane, h]

theorem alignOK_iff (i : Instr) (p : Params) : alignOK i p = true ↔ alignmentHolds i p := by
  cases i with
  | runUnit | runPlane | primBox3 | primBox5 =>
    simp only [alignOK, alignmentHolds, Bool.and_eq_true, beq_iff_eq, planeAligned_iff, and_assoc]
  | nop | primRsr | primClip3 | primLut | primSgrab _ => exact iff_of_true rfl trivial

/-! ### When each check fails (R281) -/

/-- A check that computes P fails exactly where P does not hold. -/
theorem checkFails_iff {b : Bool} {P : Prop} (h : b = true ↔ P) : (!b) = true ↔ ¬ P := by
  rw [← h, Bool.not_eq_true', Bool.not_eq_true]

theorem usesBitDepth_iff (i : Instr) : usesBitDepth i = true ↔
    i = .runUnit ∨ i = .runPlane ∨ i = .primBox3 ∨ i = .primBox5 ∨ ∃ pass, i = .primSgrab pass := by
  cases i <;> simp [usesBitDepth]

theorem formatCheck_fails_iff (i : Instr) (p : Params) : (usesBitDepth i && (bitDepth? p.format).isNone) = true ↔
    (i = .runUnit ∨ i = .runPlane ∨ i = .primBox3 ∨ i = .primBox5 ∨ ∃ pass, i = .primSgrab pass) ∧
      p.format.toNat % 4 = 3 := by
  rw [Bool.and_eq_true, usesBitDepth_iff, Option.isNone_iff_eq_none, bitDepth?_eq_none_iff]

theorem kindCheck_fails_iff (i : Instr) (p : Params) :
    (!kindOK i p) = true ↔ i = .runUnit ∧ p.unitKind.toNat % 4 = 3 := by
  cases i with
  | runUnit => simp [kindOK, filterKind?_eq_none_iff]
  | _ => simp [kindOK]

theorem passCheck_fails_iff (i : Instr) (p : Params) : (!passOK i p) = true ↔
    (i = .primSgrab .p0 ∧ (presetOf (p.sgrPreset.toNat % 16)).r0 = 0) ∨
      (i = .primSgrab .p1 ∧ (presetOf (p.sgrPreset.toNat % 16)).r1 = 0) := by
  cases i with
  | primSgrab pass => cases pass <;> simp [passOK, Preset.radius, presetIndex_eq]
  | _ => simp [passOK]

/-- Settles O15: each test of `acceptCheck` is the table's condition, and the tests are in the table's order. -/
theorem acceptanceReportsTheFirstFailingCheck : Obligations.AcceptanceReportsTheFirstFailingCheck := by
  intro i p badFormat badKind disabled
  have hformat : _ ↔ badFormat := formatCheck_fails_iff i p
  have hkind : _ ↔ badKind := kindCheck_fails_iff i p
  have hpass : _ ↔ disabled := passCheck_fails_iff i p
  have hgeometry : (!geometryOK i p) = true ↔ ¬ geometryHolds i p := checkFails_iff (geometryOK_iff i p)
  have halign : (!alignOK i p) = true ↔ ¬ alignmentHolds i p := checkFails_iff (alignOK_iff i p)
  unfold acceptCheck
  refine ⟨fun h => if_pos (hformat.mpr h), fun h1 h2 => ?_, fun h1 h2 h3 => ?_, fun h1 h2 h3 h4 => ?_,
    fun h1 h2 h3 h4 h5 => ?_, fun h1 h2 h3 h4 h5 => ?_⟩ <;> rw [if_neg (mt hformat.mp h1)]
  · exact if_pos (hkind.mpr h2)
  all_goals rw [if_neg (mt hkind.mp h2)]
  · exact if_pos (hgeometry.mpr h3)
  all_goals rw [if_neg fun h => hgeometry.mp h h3]
  · exact if_pos (halign.mpr h4)
  all_goals rw [if_neg fun h => halign.mp h h4]
  · exact if_pos (hpass.mpr h5)
  · exact if_neg (mt hpass.mp h5)

end Sys2Proof.Machine
end

section
/-! SUPPORT. The errors that can stop an accepted command off devices; settles O47. -/
namespace Sys2Proof.Machine

/-- The errors that can stop a command after its acceptance: BUS_ERROR where it accesses memory, and BAD_KIND of a
descriptor (R285). -/
def canStop (i : Instr) (e : ErrCode) : Prop := e = .busError ∧ accessesMemory i ∨ e = .badKind ∧ i = .runPlane

/-- The command answers, and its code is the one before it or that of an error that can stop it (R252, R253, R285). -/
def stopsOnlyBy (i : Instr) (s : State) (o : Outcome) : Prop :=
  ∃ t, o = .next t ∧ (t.errCode = s.errCode ∨ canStop i t.errCode)

/-- The end of a memory command shows the error that stopped it, or the code before it (R252, R253). -/
theorem stopsOnlyBy_finish {i : Instr} {s m : State} {e : Option ErrCode} (hm : m.errCode = s.errCode)
    (he : ∀ c ∈ e, canStop i c) : stopsOnlyBy i s (.next (finish (e, m))) := by
  cases e with
  | none => exact ⟨_, rfl, .inl hm⟩
  | some c => exact ⟨_, rfl, .inr (he c rfl)⟩

theorem stopsOnlyBy_performBox {i : Instr} {r : Nat} {s : State} (hi : boxCommand i r)
    (ha : acceptCheck i s.snap.regs = .none)
    (hdev : touches .device (ordinarySpans i s.snap.regs) s.regions = false) :
    stopsOnlyBy i s (performBox i r s) := by
  have hbox : i = .primBox3 ∨ i = .primBox5 := hi.imp And.left And.left
  obtain ⟨bd, hbd, -⟩ := accepted_box i hbox _ ha
  simp only [performBox, hbd, onOrdinaryMemory_plain _ _ _ hdev]
  split
  · exact ⟨_, rfl, .inr (.inl ⟨rfl, .inr (.inr hbox)⟩)⟩
  · split <;> exact ⟨_, rfl, .inl rfl⟩

theorem stopsOnlyBy_performRunUnit {s : State} (ha : acceptCheck .runUnit s.snap.regs = .none)
    (hdev : touches .device (ordinarySpans .runUnit s.snap.regs) s.regions = false) :
    stopsOnlyBy .runUnit s (performRunUnit s) := by
  obtain ⟨bd, kind, hbd, hk, -⟩ := accepted_runUnit _ ha
  rw [performRunUnit_eq s bd kind hbd hk hdev]
  obtain ⟨hunit, herror, -⟩ := filterUnit_spec (snapshotRecord s.snap.regs kind) s.snap.regs bd (unitOf s.snap.regs)
    (aliased .runUnit s.snap.regs) false s
  refine stopsOnlyBy_finish ((spoil_spec _ _ _ _).1.errCode.trans hunit.errCode) fun c hc => ?_
  rcases herror with h | h <;> cases h.symm.trans hc
  exact .inl ⟨rfl, .inl rfl⟩

theorem stopsOnlyBy_performRunPlane {s : State} (ha : acceptCheck .runPlane s.snap.regs = .none)
    (hdev : touches .device (ordinarySpans .runPlane s.snap.regs) s.regions = false) :
    stopsOnlyBy .runPlane s (performRunPlane s) := by
  obtain ⟨bd, hbd, -⟩ := accepted_runPlane _ ha
  rw [performRunPlane_eq s bd hbd hdev]
  obtain ⟨hcells, herror, -⟩ := runCells_spec s.snap.regs bd (aliased .runPlane s.snap.regs)
    ((gridCells s.snap.regs).drop s.progress) s.progress s
  refine stopsOnlyBy_finish ((spoil_spec _ _ _ _).1.errCode.trans hcells.errCode) fun c hc => ?_
  rcases herror with ⟨h, -⟩ | ⟨h | h, -⟩ <;> cases h.symm.trans hc
  · exact .inl ⟨rfl, .inr (.inl rfl)⟩
  · exact .inr ⟨rfl, rfl⟩

/-- A command whose acceptance checks passed ends off devices, and BAD_FORMAT never stops it: only BUS_ERROR and the
BAD_KIND of a descriptor do (R285). -/
theorem perform_stopsOnlyBy {i : Instr} {s : State} (ha : acceptCheck i s.snap.regs = .none)
    (hdev : touches .device (ordinarySpans i s.snap.regs) s.regions = false) : stopsOnlyBy i s (perform i s) := by
  cases i with
  | nop | primRsr | primClip3 | primLut => exact ⟨_, rfl, .inl rfl⟩
  | runUnit => exact stopsOnlyBy_performRunUnit ha hdev
  | runPlane => exact stopsOnlyBy_performRunPlane ha hdev
  | primBox3 => exact stopsOnlyBy_performBox (.inl ⟨rfl, rfl⟩) ha hdev
  | primBox5 => exact stopsOnlyBy_performBox (.inr ⟨rfl, rfl⟩) ha hdev
  | primSgrab pass =>
    obtain ⟨hbd, -⟩ := acceptCheck_none _ _ ha
    obtain ⟨bd, hbd⟩ := hbd rfl
    exact ⟨_, performPrimSgrab_eq hbd, .inl rfl⟩

/-- An accepted command off devices ends with DONE, and with no error or one of R285. -/
theorem perform_endsByItself {i : Instr} {s : State} (ha : acceptCheck i s.snap.regs = .none)
    (hdev : touches .device (ordinarySpans i s.snap.regs) s.regions = false) (herr : s.err = false)
    (hcode : s.errCode = .none) : ∃ t, perform i s = .next t ∧ t.fsm = .idle ∧ t.done = true ∧
      (t.err = false ∧ t.errCode = .none ∨ t.err = true ∧ t.errCode = .busError ∧ accessesMemory i ∨
        t.err = true ∧ t.errCode = .badKind ∧ i = .runPlane) := by
  obtain ⟨t, ht, hstop⟩ := perform_stopsOnlyBy ha hdev
  have hend := perform_ended i s t ht
  refine ⟨t, ht, hend.fsm, hend.done, ?_⟩
  rcases hend.error with ⟨h1, h2⟩ | ⟨h1, h2⟩
  · exact .inl ⟨h1.trans herr, h2.trans hcode⟩
  · rcases hstop with h | ⟨h, hi⟩ | ⟨h, hi⟩
    · exact absurd (h.trans hcode) h2
    · exact .inr (.inl ⟨h1, h, hi⟩)
    · exact .inr (.inr ⟨h1, h, hi⟩)

/-- Settles O47: both an accepted command and one left BUSY run from a state whose acceptance checks passed and whose
error field is clear. -/
theorem everyAcceptedCommandEnds : Obligations.EveryAcceptedCommandEnds := by
  refine ⟨fun s i hr ha hdev => ?_, fun s i hinv hb hdev => ?_⟩
  · rw [exec_ready i s hr ha]
    exact perform_endsByItself (s := accepted i s) ha hdev rfl rfl
  · obtain ⟨ha, -, -, herr⟩ := hinv.busy i hb
    obtain ⟨t, ht, hend⟩ := perform_endsByItself ha hdev herr (hinv.errIff.mp herr)
    exact ⟨t, ht, (blockTurn_busy hb).trans ht, hend⟩

end Sys2Proof.Machine
end

section
/-! SUPPORT. The state after reset, and what a soft reset of a BUSY block leaves of the abandoned command's writes;
settles O2 and O59. -/
namespace Sys2Proof.Machine

/-- Settles O59: the reset state is IDLE and its memory is empty. -/
theorem resetStateMeetsTheInvariant : Obligations.ResetStateMeetsTheInvariant :=
  inv_resetBlock (s := State.reset) ⟨List.Pairwise.nil, fun _ h => nomatch h⟩ (fun _ h => nomatch h)
    fun _ h => nomatch h

/-! ### The writes under way as containers (R82) -/

/-- A container of one of the command's units is a destination container of the command (R82). -/
theorem destContainer_of_cells {i : Instr} {p : Params} {bd : BitDepth} {u : UnitRect} {r c : Nat}
    (hbd : bitDepth? p.format = some bd) (hu : u ∈ destCells i p) (hr : r < u.h) (hc : c < u.w) :
    destContainer i p (dstAddr p bd u r c) := by
  cases i with
  | runUnit =>
    cases List.mem_singleton.mp hu
    exact ⟨bd, hbd, r, c, hr, hc, rfl⟩
  | runPlane => exact ⟨bd, hbd, u, hu, r, c, hr, hc, rfl⟩
  | _ => cases hu

/-- Every write under way is one of a destination container (R82). -/
theorem pendingStores_destContainer {i : Instr} {s : State} {st : Store} (h : st ∈ pendingStores i s) :
    destContainer i s.snap.regs st.addr := by
  obtain ⟨bd, hbd, u, hu, hin⟩ := pendingStores_in i s st h
  obtain ⟨r, c, hr, hc, haddr, -⟩ := hin st (List.mem_singleton.mpr rfl)
  exact haddr ▸ destContainer_of_cells hbd hu hr hc

/-- Any bytes are those of a little-endian value of their length (R72). -/
theorem exists_leBytes (bytes : List Byte) : ∃ v < 256 ^ bytes.length, bytes = leBytes bytes.length v := by
  have hwf : Memory.wf [] := ⟨List.Pairwise.nil, fun _ hc => nomatch hc⟩
  exact ⟨_, Memory.readLE_lt _ _ 0,
    (leBytes_readLE _ bytes 0 fun k hk => Memory.read_writeBytes_inside bytes [] 0 k hwf hk).symm⟩

/-- A write under way carries a value of the command's container size (R6, R82). -/
theorem pendingStores_value {i : Instr} {s : State} {st : Store} (ha : acceptCheck i s.snap.regs = .none)
    (h : st ∈ pendingStores i s) : ∃ v < 256 ^ sampleBytesOf s.snap.regs.format,
      st = { addr := st.addr, bytes := leBytes (sampleBytesOf s.snap.regs.format) v } := by
  obtain ⟨v, hv, hbytes⟩ := exists_leBytes st.bytes
  rw [(pendingStores_container ha (pendingStores_destContainer h) st h).1] at hv hbytes
  exact ⟨v, hv, congrArg (Store.mk st.addr) hbytes⟩

/-! ### Some of the writes under way performed (R311, U4) -/

/-- The container of a write under way holds its bytes where it was performed, and its old value where it was not. -/
theorem readLE_somePending {i : Instr} {s : State} {st : Store} (g : Store → Bool) (hm : s.mem.wf)
    (ha : acceptCheck i s.snap.regs = .none) (h : st ∈ pendingStores i s) :
    let sb := sampleBytesOf s.snap.regs.format
    let v := (s.mem.writeStores ((pendingStores i s).filter g)).readLE st.addr sb
    if g st then st.bytes = leBytes sb v else v = s.mem.readLE st.addr sb := by
  obtain ⟨v, hv, hst⟩ := pendingStores_value ha h
  have hread := Memory.readLE_writeStores_filter _ g s.mem hm (pendingStores_disjoint i s ha) _ _ v (hst ▸ h)
  rw [← hst, Nat.mod_eq_of_lt hv] at hread
  intro sb w
  split at hread
  · rename_i hg
    rw [if_pos hg]
    exact (congrArg Store.bytes hst).trans (congrArg (leBytes sb) hread.symm)
  · rename_i hg
    rw [if_neg hg]
    exact hread

/-- With some of the writes under way performed, a destination container holds what it held, or the bytes of one of
them. -/
theorem destContainer_somePending {i : Instr} {s : State} {a : Nat} (g : Store → Bool) (hm : s.mem.wf)
    (ha : acceptCheck i s.snap.regs = .none) (hc : destContainer i s.snap.regs a) :
    let sb := sampleBytesOf s.snap.regs.format
    let v := (s.mem.writeStores ((pendingStores i s).filter g)).readLE a sb
    v = s.mem.readLE a sb ∨ ∃ st ∈ pendingStores i s, st.addr = a ∧ st.bytes = leBytes sb v := by
  intro sb v
  by_cases h : ∃ st ∈ pendingStores i s, st.addr = a
  · obtain ⟨st, hst, rfl⟩ := h
    have hread := readLE_somePending g hm ha hst
    split at hread
    · exact .inr ⟨st, hst, rfl, hread⟩
    · exact .inl hread
  · refine .inl (Memory.readLE_congr _ _ _ _ fun x hlo hhi => Memory.read_writeStores_outside _ _ _ fun st hst => ?_)
    replace hst := List.mem_of_mem_filter hst
    obtain ⟨hlen, haddr⟩ := pendingStores_container ha hc st hst
    rcases haddr with haddr | haddr
    · exact absurd ⟨st, hst, haddr⟩ h
    · omega

/-! ### The soft reset (R311) -/

/-- A reset of a BUSY block off devices abandons its command (R311). -/
theorem reset_busy {s : State} {i : Instr} (hb : s.fsm = .busy i)
    (hdev : touches .device (ordinarySpans i s.snap.regs) s.regions = false) :
    reset s = .next (resetBlock (abandon i s)) := by
  rw [reset, hb]
  exact onOrdinaryMemory_plain i s _ hdev

/-- A write in flight after a command was abandoned was so before, or is one of the command's that was not performed. -/
theorem mem_inFlight_abandon {i : Instr} {s : State} {st : Store} (h : st ∈ (abandon i s).inFlight) :
    st ∈ s.inFlight ∨ st ∈ pendingStores i s ∧ Config.landed s.draws st.addr = false := by
  refine (List.mem_append.mp h).imp_right fun h => ?_
  obtain ⟨hst, hland⟩ := List.mem_filter.mp h
  exact ⟨hst, Bool.not_eq_true' _ ▸ hland⟩

/-- Settles O2: the command is abandoned with some of its writes under way performed and the others in flight. -/
theorem softResetAbandonsTheRunningCommand : Obligations.SoftResetAbandonsTheRunningCommand := by
  intro s i v hinv hb hdev hv sb
  obtain ⟨ha, -⟩ := hinv.busy i hb
  refine ⟨resetBlock (abandon i s), ?_, fun r => readReg_resetBlock r _, rfl, fun a hna => ?_, fun a hc => ?_,
    fun st hst => ?_, fun ht hal => pendingStores_rule i s ha ht hal⟩
  · rw [busWrite_ctrl, writeCtrl_softReset v s hv, reset_busy hb hdev]
  · exact Memory.read_writeStores_outside _ _ _ fun st hst =>
      pendingStores_outside i s a hna st (List.mem_of_mem_filter hst)
  · exact destContainer_somePending _ hinv.memWf ha hc
  · refine (mem_inFlight_abandon hst).imp_right fun ⟨hpend, hland⟩ => ?_
    have hread := readLE_somePending (fun st => Config.landed s.draws st.addr) hinv.memWf ha hpend
    rw [if_neg (Bool.not_eq_true _ ▸ hland)] at hread
    exact ⟨hpend, pendingStores_destContainer hpend, hread⟩

end Sys2Proof.Machine
end
